-- ==== Sys2Proof/Word.lean ====
section
/-! DEFINITION. The word types of the core: bytes, 64-bit register values and 32-bit addresses
(spec/00_scope.md R7, R8, R10). -/

namespace Sys2Proof

/-- A byte of code or of data memory. -/
abbrev Byte := BitVec 8

/-- A register value, or an immediate after assembly: 64 bits (R7, R10). -/
abbrev Word := BitVec 64

/-- A 32-bit value: a data address, a code offset, a host-call index (R8, R37, R42). -/
abbrev Addr := BitVec 32

end Sys2Proof
end

