-- ==== Sys2Proof/Machine/Bits.lean ====
section
/-! DEFINITION. Signed readings, sign extension and little-endian assembly (spec/00_scope.md R10, R11). -/

namespace Sys2Proof

/-- `s64(v)`: the two's-complement reading of a 64-bit value (R11). -/
def s64 (v : Word) : Int := v.toInt

/-- `s32(v)`: the two's-complement reading of the low 32 bits (R11). -/
def s32 (v : Word) : Int := (v.setWidth 32).toInt

/-- `u64(i)`: any integer as a register value, mod 2^64 (R11). -/
def u64 (i : Int) : Word := BitVec.ofInt 64 i

/-- `x32`: the 32-bit low-half view of a register value (R12; spec/10_state.md R34). -/
def low32 (v : Word) : BitVec 32 := v.setWidth 32

/-- `sext_n(v)`: `v mod 2^n` read as `n`-bit two's complement, mod 2^64; 0 when `n = 0` (R11). -/
def sext (n v : Nat) : Word := (BitVec.ofNat n v).signExtend 64

/-- The signed reading of `v mod 2^n`, 0 when `n = 0` (`s_n` of spec/30_encoding.md R124). -/
def signedOf (n v : Nat) : Int := (BitVec.ofNat n v).toInt

/-- A 32-bit result as it is written to a register: `sext_32` (spec/10_state.md R34). -/
def sext32 (r : BitVec 32) : Word := r.signExtend 64

/-- `LE(bytes)`: the little-endian value of a byte sequence (R10, spec/30_encoding.md R111). -/
def leNat : List Byte → Nat
  | [] => 0
  | b :: bs => b.toNat + 256 * leNat bs

/-- The `n` low bytes of `v`, least significant first (R10). -/
def leBytes : Nat → Nat → List Byte
  | 0, _ => []
  | n + 1, v => BitVec.ofNat 8 v :: leBytes n (v / 256)

end Sys2Proof
end

