-- ==== Sys2Proof/Machine/Flags.lean ====
section
/-! DEFINITION. The core has no status flags, condition codes or predicate registers: branches compare registers
directly and comparisons write 0 or 1 to a register (spec/10_state.md R39). This file holds those comparisons. -/

namespace Sys2Proof.Machine

/-- Unsigned `a < b`, of the values as naturals (spec/42_branch.md). -/
def ltU (a b : Word) : Bool := decide (a.toNat < b.toNat)

/-- Unsigned `a ≤ b`. -/
def leU (a b : Word) : Bool := decide (a.toNat ≤ b.toNat)

/-- Signed `a < b`, of the `s64` readings (spec/42_branch.md). -/
def ltS (a b : Word) : Bool := decide (s64 a < s64 b)

/-- Signed `a ≤ b`. -/
def leS (a b : Word) : Bool := decide (s64 a ≤ s64 b)

/-- `cond ? 1 : 0`, the value a comparison writes (spec/47_math.md R323). -/
def ofCond (c : Bool) : Word := if c then 1 else 0

end Sys2Proof.Machine
end

