-- ==== Sys2Proof/Config.lean ====
section
/-! DEFINITION. The constants that the source fixes (spec/00_scope.md R7, R8). The parameters it leaves
open, with the defaults of R9, are in Sys2Proof/Machine/Params.lean. -/

namespace Sys2Proof.Config

/-- `NUM_REGS = 13` (R7). -/
def numRegs : Nat := 13

/-- `ADDR_SPACE = 2^32` bytes (R7). -/
def addrSpace : Nat := 2 ^ 32

/-- `PAGE_SIZE = 4096` bytes (R7). -/
def pageSize : Nat := 4096

/-- `NUM_PAGES = 2^20` (R8). -/
def numPages : Nat := 2 ^ 20

/-- The value a jump-table entry that overflows 32 bits clamps to (R7, R113). -/
def jumpTableClamp : Nat := 0xFFFFFFFF

/-- The largest value a `varU32` holds (spec/30_encoding.md R111). -/
def maxU32 : Nat := 2 ^ 32 - 1

end Sys2Proof.Config
end

