-- ==== Sys2Proof/Syntax.lean ====
section
/-! DEFINITION. The instruction set as syntax: registers, the 13 argument shapes, the decoded arguments, the
program, and `Instr`, one constructor per row of spec/opcode_table.json (spec/30_encoding.md R129, R144). -/

namespace Sys2Proof

/-- A general register `r0`–`r12` (spec/10_state.md R32). -/
abbrev Reg := Fin 13

/-- The argument shapes (R129). -/
inductive Shape where
  | noArguments
  | oneImmediate
  | oneRegisterOneExtendedImmediate
  | twoImmediates
  | oneOffset
  | oneRegisterOneImmediate
  | oneRegisterTwoImmediates
  | oneRegisterOneImmediateOneOffset
  | twoRegisters
  | twoRegistersOneImmediate
  | twoRegistersOneOffset
  | twoRegistersTwoImmediates
  | threeRegisters
  deriving DecidableEq, Repr

/-- The fields that a shape decodes; a field that the shape lacks is 0 (spec/00_scope.md R14). Immediates are
the 64-bit values after sign extension. `off` is the signed offset whose target is `pc + off` (R124). -/
structure Args where
  rA : Reg := 0
  rB : Reg := 0
  rD : Reg := 0
  immX : Word := 0
  immY : Word := 0
  off : Int := 0
  deriving DecidableEq, Repr

/-- A decoded program: `code`, the instruction-start `mask` and the jump table `jt`
(spec/10_state.md R50). -/
structure Program where
  code : List Byte
  mask : List Bool
  jt : List (BitVec 32)
  deriving DecidableEq, Repr

/-- The instructions. Operands stand in the order of the assembler syntax (R149). -/
inductive Instr where
  /-- `TRAP`: explicit trap (R200, opcode 0). -/
  | trap
  /-- `FALLTHROUGH`: end a basic block, no operation (R201, opcode 1). -/
  | fallthrough
  /-- `ECALLI`: host call (R202, opcode 10). -/
  | ecalli (immX : Word)
  /-- `LOAD_IMM_64`: load 64-bit immediate (R240, opcode 20). -/
  | loadImm64 (rA : Reg) (immX : Word)
  /-- `STORE_IMM_U8`: store 8-bit immediate to absolute address (R260, opcode 30). -/
  | storeImmU8 (immX immY : Word)
  /-- `STORE_IMM_U16`: store 16-bit immediate to absolute address (R261, opcode 31). -/
  | storeImmU16 (immX immY : Word)
  /-- `STORE_IMM_U32`: store 32-bit immediate to absolute address (R262, opcode 32). -/
  | storeImmU32 (immX immY : Word)
  /-- `STORE_IMM_U64`: store 64-bit immediate to absolute address (R263, opcode 33). -/
  | storeImmU64 (immX immY : Word)
  /-- `JUMP`: unconditional static jump (R210, opcode 40). -/
  | jump (off : Int)
  /-- `JUMP_IND`: dynamic jump through the jump table (R211, opcode 50). -/
  | jumpInd (rA : Reg) (immX : Word)
  /-- `LOAD_IMM`: load sign-extended immediate (R241, opcode 51). -/
  | loadImm (rA : Reg) (immX : Word)
  /-- `LOAD_U8`: load unsigned 8-bit from absolute address (R242, opcode 52). -/
  | loadU8 (rA : Reg) (immX : Word)
  /-- `LOAD_I8`: load signed 8-bit from absolute address (R243, opcode 53). -/
  | loadI8 (rA : Reg) (immX : Word)
  /-- `LOAD_U16`: load unsigned 16-bit from absolute address (R244, opcode 54). -/
  | loadU16 (rA : Reg) (immX : Word)
  /-- `LOAD_I16`: load signed 16-bit from absolute address (R245, opcode 55). -/
  | loadI16 (rA : Reg) (immX : Word)
  /-- `LOAD_U32`: load unsigned 32-bit from absolute address (R246, opcode 56). -/
  | loadU32 (rA : Reg) (immX : Word)
  /-- `LOAD_I32`: load signed 32-bit from absolute address (R247, opcode 57). -/
  | loadI32 (rA : Reg) (immX : Word)
  /-- `LOAD_U64`: load unsigned 64-bit from absolute address (R248, opcode 58). -/
  | loadU64 (rA : Reg) (immX : Word)
  /-- `STORE_U8`: store 8-bit register to absolute address (R264, opcode 59). -/
  | storeU8 (rA : Reg) (immX : Word)
  /-- `STORE_U16`: store 16-bit register to absolute address (R265, opcode 60). -/
  | storeU16 (rA : Reg) (immX : Word)
  /-- `STORE_U32`: store 32-bit register to absolute address (R266, opcode 61). -/
  | storeU32 (rA : Reg) (immX : Word)
  /-- `STORE_U64`: store 64-bit register to absolute address (R267, opcode 62). -/
  | storeU64 (rA : Reg) (immX : Word)
  /-- `STORE_IMM_IND_U8`: store 8-bit immediate to register + offset (R268, opcode 70). -/
  | storeImmIndU8 (rA : Reg) (immX immY : Word)
  /-- `STORE_IMM_IND_U16`: store 16-bit immediate to register + offset (R269, opcode 71). -/
  | storeImmIndU16 (rA : Reg) (immX immY : Word)
  /-- `STORE_IMM_IND_U32`: store 32-bit immediate to register + offset (R270, opcode 72). -/
  | storeImmIndU32 (rA : Reg) (immX immY : Word)
  /-- `STORE_IMM_IND_U64`: store 64-bit immediate to register + offset (R271, opcode 73). -/
  | storeImmIndU64 (rA : Reg) (immX immY : Word)
  /-- `LOAD_IMM_JUMP`: load immediate and jump (R212, opcode 80). -/
  | loadImmJump (rA : Reg) (immX : Word) (off : Int)
  /-- `BRANCH_EQ_IMM`: branch if x[rA] = immX (equality compare with immediate) (R213, opcode 81). -/
  | branchEqImm (rA : Reg) (immX : Word) (off : Int)
  /-- `BRANCH_NE_IMM`: branch if x[rA] != immX (equality compare with immediate) (R214, opcode 82). -/
  | branchNeImm (rA : Reg) (immX : Word) (off : Int)
  /-- `BRANCH_LT_U_IMM`: branch if x[rA] < immX (unsigned compare with immediate) (R215, opcode 83). -/
  | branchLtUImm (rA : Reg) (immX : Word) (off : Int)
  /-- `BRANCH_LE_U_IMM`: branch if x[rA] <= immX (unsigned compare with immediate) (R216, opcode 84). -/
  | branchLeUImm (rA : Reg) (immX : Word) (off : Int)
  /-- `BRANCH_GE_U_IMM`: branch if x[rA] >= immX (unsigned compare with immediate) (R217, opcode 85). -/
  | branchGeUImm (rA : Reg) (immX : Word) (off : Int)
  /-- `BRANCH_GT_U_IMM`: branch if x[rA] > immX (unsigned compare with immediate) (R218, opcode 86). -/
  | branchGtUImm (rA : Reg) (immX : Word) (off : Int)
  /-- `BRANCH_LT_S_IMM`: branch if s64(x[rA]) < s64(immX) (signed compare with immediate) (R219, opcode 87). -/
  | branchLtSImm (rA : Reg) (immX : Word) (off : Int)
  /-- `BRANCH_LE_S_IMM`: branch if s64(x[rA]) <= s64(immX) (signed compare with immediate) (R220, opcode 88). -/
  | branchLeSImm (rA : Reg) (immX : Word) (off : Int)
  /-- `BRANCH_GE_S_IMM`: branch if s64(x[rA]) >= s64(immX) (signed compare with immediate) (R221, opcode 89). -/
  | branchGeSImm (rA : Reg) (immX : Word) (off : Int)
  /-- `BRANCH_GT_S_IMM`: branch if s64(x[rA]) > s64(immX) (signed compare with immediate) (R222, opcode 90). -/
  | branchGtSImm (rA : Reg) (immX : Word) (off : Int)
  /-- `MOVE_REG`: register copy (R311, opcode 100). -/
  | moveReg (rA rD : Reg)
  /-- `SBRK`: grow the heap (R310, opcode 101). -/
  | sbrk (rA rD : Reg)
  /-- `COUNT_SET_BITS_64`: population count, 64-bit (R281, opcode 102). -/
  | countSetBits64 (rA rD : Reg)
  /-- `COUNT_SET_BITS_32`: population count, low 32 bits (R282, opcode 103). -/
  | countSetBits32 (rA rD : Reg)
  /-- `LEADING_ZERO_BITS_64`: count leading zeros, 64-bit (R283, opcode 104). -/
  | leadingZeroBits64 (rA rD : Reg)
  /-- `LEADING_ZERO_BITS_32`: count leading zeros, low 32 bits (R284, opcode 105). -/
  | leadingZeroBits32 (rA rD : Reg)
  /-- `TRAILING_ZERO_BITS_64`: count trailing zeros, 64-bit (R285, opcode 106). -/
  | trailingZeroBits64 (rA rD : Reg)
  /-- `TRAILING_ZERO_BITS_32`: count trailing zeros, low 32 bits (R286, opcode 107). -/
  | trailingZeroBits32 (rA rD : Reg)
  /-- `SIGN_EXTEND_8`: sign-extend byte (R287, opcode 108). -/
  | signExtend8 (rA rD : Reg)
  /-- `SIGN_EXTEND_16`: sign-extend halfword (R288, opcode 109). -/
  | signExtend16 (rA rD : Reg)
  /-- `ZERO_EXTEND_16`: zero-extend halfword (R289, opcode 110). -/
  | zeroExtend16 (rA rD : Reg)
  /-- `REVERSE_BYTES`: reverse the 8 bytes (R290, opcode 111). -/
  | reverseBytes (rA rD : Reg)
  /-- `STORE_IND_U8`: store 8-bit register to register + offset (R272, opcode 120). -/
  | storeIndU8 (rA rB : Reg) (immX : Word)
  /-- `STORE_IND_U16`: store 16-bit register to register + offset (R273, opcode 121). -/
  | storeIndU16 (rA rB : Reg) (immX : Word)
  /-- `STORE_IND_U32`: store 32-bit register to register + offset (R274, opcode 122). -/
  | storeIndU32 (rA rB : Reg) (immX : Word)
  /-- `STORE_IND_U64`: store 64-bit register to register + offset (R275, opcode 123). -/
  | storeIndU64 (rA rB : Reg) (immX : Word)
  /-- `LOAD_IND_U8`: load unsigned 8-bit from register + offset (R249, opcode 124). -/
  | loadIndU8 (rA rB : Reg) (immX : Word)
  /-- `LOAD_IND_I8`: load signed 8-bit from register + offset (R250, opcode 125). -/
  | loadIndI8 (rA rB : Reg) (immX : Word)
  /-- `LOAD_IND_U16`: load unsigned 16-bit from register + offset (R251, opcode 126). -/
  | loadIndU16 (rA rB : Reg) (immX : Word)
  /-- `LOAD_IND_I16`: load signed 16-bit from register + offset (R252, opcode 127). -/
  | loadIndI16 (rA rB : Reg) (immX : Word)
  /-- `LOAD_IND_U32`: load unsigned 32-bit from register + offset (R253, opcode 128). -/
  | loadIndU32 (rA rB : Reg) (immX : Word)
  /-- `LOAD_IND_I32`: load signed 32-bit from register + offset (R254, opcode 129). -/
  | loadIndI32 (rA rB : Reg) (immX : Word)
  /-- `LOAD_IND_U64`: load unsigned 64-bit from register + offset (R255, opcode 130). -/
  | loadIndU64 (rA rB : Reg) (immX : Word)
  /-- `ADD_IMM_32`: add immediate, 32-bit (R321, opcode 131). -/
  | addImm32 (rA rB : Reg) (immX : Word)
  /-- `AND_IMM`: bitwise AND with immediate (R291, opcode 132). -/
  | andImm (rA rB : Reg) (immX : Word)
  /-- `XOR_IMM`: bitwise XOR with immediate (R292, opcode 133). -/
  | xorImm (rA rB : Reg) (immX : Word)
  /-- `OR_IMM`: bitwise OR with immediate (R293, opcode 134). -/
  | orImm (rA rB : Reg) (immX : Word)
  /-- `MUL_IMM_32`: multiply by immediate, 32-bit (R322, opcode 135). -/
  | mulImm32 (rA rB : Reg) (immX : Word)
  /-- `SET_LT_U_IMM`: set if less than immediate, unsigned (R323, opcode 136). -/
  | setLtUImm (rA rB : Reg) (immX : Word)
  /-- `SET_LT_S_IMM`: set if less than immediate, signed (R324, opcode 137). -/
  | setLtSImm (rA rB : Reg) (immX : Word)
  /-- `SHLO_L_IMM_32`: shift left by immediate, 32-bit (R361, opcode 138). -/
  | shloLImm32 (rA rB : Reg) (immX : Word)
  /-- `SHLO_R_IMM_32`: logical shift right by immediate, 32-bit (R362, opcode 139). -/
  | shloRImm32 (rA rB : Reg) (immX : Word)
  /-- `SHAR_R_IMM_32`: arithmetic shift right by immediate, 32-bit (R363, opcode 140). -/
  | sharRImm32 (rA rB : Reg) (immX : Word)
  /-- `NEG_ADD_IMM_32`: immediate minus register, 32-bit (R325, opcode 141). -/
  | negAddImm32 (rA rB : Reg) (immX : Word)
  /-- `SET_GT_U_IMM`: set if greater than immediate, unsigned (R326, opcode 142). -/
  | setGtUImm (rA rB : Reg) (immX : Word)
  /-- `SET_GT_S_IMM`: set if greater than immediate, signed (R327, opcode 143). -/
  | setGtSImm (rA rB : Reg) (immX : Word)
  /-- `SHLO_L_IMM_ALT_32`: shift immediate left by register, 32-bit (R364, opcode 144). -/
  | shloLImmAlt32 (rA rB : Reg) (immX : Word)
  /-- `SHLO_R_IMM_ALT_32`: logical shift immediate right by register, 32-bit (R365, opcode 145). -/
  | shloRImmAlt32 (rA rB : Reg) (immX : Word)
  /-- `SHAR_R_IMM_ALT_32`: arithmetic shift immediate right by register, 32-bit (R366, opcode 146). -/
  | sharRImmAlt32 (rA rB : Reg) (immX : Word)
  /-- `CMOV_IZ_IMM`: conditional move of immediate if zero (R312, opcode 147). -/
  | cmovIzImm (rA rB : Reg) (immX : Word)
  /-- `CMOV_NZ_IMM`: conditional move of immediate if nonzero (R313, opcode 148). -/
  | cmovNzImm (rA rB : Reg) (immX : Word)
  /-- `ADD_IMM_64`: add immediate, 64-bit (R328, opcode 149). -/
  | addImm64 (rA rB : Reg) (immX : Word)
  /-- `MUL_IMM_64`: multiply by immediate, 64-bit (R329, opcode 150). -/
  | mulImm64 (rA rB : Reg) (immX : Word)
  /-- `SHLO_L_IMM_64`: shift left by immediate, 64-bit (R367, opcode 151). -/
  | shloLImm64 (rA rB : Reg) (immX : Word)
  /-- `SHLO_R_IMM_64`: logical shift right by immediate, 64-bit (R368, opcode 152). -/
  | shloRImm64 (rA rB : Reg) (immX : Word)
  /-- `SHAR_R_IMM_64`: arithmetic shift right by immediate, 64-bit (R369, opcode 153). -/
  | sharRImm64 (rA rB : Reg) (immX : Word)
  /-- `NEG_ADD_IMM_64`: immediate minus register, 64-bit (R330, opcode 154). -/
  | negAddImm64 (rA rB : Reg) (immX : Word)
  /-- `SHLO_L_IMM_ALT_64`: shift immediate left by register, 64-bit (R370, opcode 155). -/
  | shloLImmAlt64 (rA rB : Reg) (immX : Word)
  /-- `SHLO_R_IMM_ALT_64`: logical shift immediate right by register, 64-bit (R371, opcode 156). -/
  | shloRImmAlt64 (rA rB : Reg) (immX : Word)
  /-- `SHAR_R_IMM_ALT_64`: arithmetic shift immediate right by register, 64-bit (R372, opcode 157). -/
  | sharRImmAlt64 (rA rB : Reg) (immX : Word)
  /-- `ROT_R_64_IMM`: rotate right by immediate, 64-bit (R373, opcode 158). -/
  | rotR64Imm (rA rB : Reg) (immX : Word)
  /-- `ROT_R_64_IMM_ALT`: rotate immediate right by register, 64-bit (R374, opcode 159). -/
  | rotR64ImmAlt (rA rB : Reg) (immX : Word)
  /-- `ROT_R_32_IMM`: rotate right by immediate, 32-bit (R375, opcode 160). -/
  | rotR32Imm (rA rB : Reg) (immX : Word)
  /-- `ROT_R_32_IMM_ALT`: rotate immediate right by register, 32-bit (R376, opcode 161). -/
  | rotR32ImmAlt (rA rB : Reg) (immX : Word)
  /-- `BRANCH_EQ`: branch if x[rA] = x[rB] (equality register compare) (R223, opcode 170). -/
  | branchEq (rA rB : Reg) (off : Int)
  /-- `BRANCH_NE`: branch if x[rA] != x[rB] (equality register compare) (R224, opcode 171). -/
  | branchNe (rA rB : Reg) (off : Int)
  /-- `BRANCH_LT_U`: branch if x[rA] < x[rB] (unsigned register compare) (R225, opcode 172). -/
  | branchLtU (rA rB : Reg) (off : Int)
  /-- `BRANCH_LT_S`: branch if s64(x[rA]) < s64(x[rB]) (signed register compare) (R226, opcode 173). -/
  | branchLtS (rA rB : Reg) (off : Int)
  /-- `BRANCH_GE_U`: branch if x[rA] >= x[rB] (unsigned register compare) (R227, opcode 174). -/
  | branchGeU (rA rB : Reg) (off : Int)
  /-- `BRANCH_GE_S`: branch if s64(x[rA]) >= s64(x[rB]) (signed register compare) (R228, opcode 175). -/
  | branchGeS (rA rB : Reg) (off : Int)
  /-- `LOAD_IMM_JUMP_IND`: load immediate and dynamic jump (R229, opcode 180). -/
  | loadImmJumpInd (rA rB : Reg) (immX immY : Word)
  /-- `ADD_32`: add, 32-bit (R331, opcode 190). -/
  | add32 (rA rB rD : Reg)
  /-- `SUB_32`: subtract, 32-bit (R332, opcode 191). -/
  | sub32 (rA rB rD : Reg)
  /-- `MUL_32`: multiply, 32-bit (R333, opcode 192). -/
  | mul32 (rA rB rD : Reg)
  /-- `DIV_U_32`: unsigned divide, 32-bit (R334, opcode 193). -/
  | divU32 (rA rB rD : Reg)
  /-- `DIV_S_32`: signed divide, 32-bit (R335, opcode 194). -/
  | divS32 (rA rB rD : Reg)
  /-- `REM_U_32`: unsigned remainder, 32-bit (R336, opcode 195). -/
  | remU32 (rA rB rD : Reg)
  /-- `REM_S_32`: signed remainder, 32-bit (R337, opcode 196). -/
  | remS32 (rA rB rD : Reg)
  /-- `SHLO_L_32`: shift left, 32-bit (R377, opcode 197). -/
  | shloL32 (rA rB rD : Reg)
  /-- `SHLO_R_32`: logical shift right, 32-bit (R378, opcode 198). -/
  | shloR32 (rA rB rD : Reg)
  /-- `SHAR_R_32`: arithmetic shift right, 32-bit (R379, opcode 199). -/
  | sharR32 (rA rB rD : Reg)
  /-- `ADD_64`: add, 64-bit (R338, opcode 200). -/
  | add64 (rA rB rD : Reg)
  /-- `SUB_64`: subtract, 64-bit (R339, opcode 201). -/
  | sub64 (rA rB rD : Reg)
  /-- `MUL_64`: multiply, 64-bit (R340, opcode 202). -/
  | mul64 (rA rB rD : Reg)
  /-- `DIV_U_64`: unsigned divide, 64-bit (R341, opcode 203). -/
  | divU64 (rA rB rD : Reg)
  /-- `DIV_S_64`: signed divide, 64-bit (R342, opcode 204). -/
  | divS64 (rA rB rD : Reg)
  /-- `REM_U_64`: unsigned remainder, 64-bit (R343, opcode 205). -/
  | remU64 (rA rB rD : Reg)
  /-- `REM_S_64`: signed remainder, 64-bit (R344, opcode 206). -/
  | remS64 (rA rB rD : Reg)
  /-- `SHLO_L_64`: shift left, 64-bit (R380, opcode 207). -/
  | shloL64 (rA rB rD : Reg)
  /-- `SHLO_R_64`: logical shift right, 64-bit (R381, opcode 208). -/
  | shloR64 (rA rB rD : Reg)
  /-- `SHAR_R_64`: arithmetic shift right, 64-bit (R382, opcode 209). -/
  | sharR64 (rA rB rD : Reg)
  /-- `AND`: bitwise AND (R294, opcode 210). -/
  | andReg (rA rB rD : Reg)
  /-- `XOR`: bitwise XOR (R295, opcode 211). -/
  | xorReg (rA rB rD : Reg)
  /-- `OR`: bitwise OR (R296, opcode 212). -/
  | orReg (rA rB rD : Reg)
  /-- `MUL_UPPER_S_S`: high 64 bits of signed × signed product (R345, opcode 213). -/
  | mulUpperSS (rA rB rD : Reg)
  /-- `MUL_UPPER_U_U`: high 64 bits of unsigned × unsigned product (R346, opcode 214). -/
  | mulUpperUU (rA rB rD : Reg)
  /-- `MUL_UPPER_S_U`: high 64 bits of signed × unsigned product (R347, opcode 215). -/
  | mulUpperSU (rA rB rD : Reg)
  /-- `SET_LT_U`: set if less than, unsigned (R348, opcode 216). -/
  | setLtU (rA rB rD : Reg)
  /-- `SET_LT_S`: set if less than, signed (R349, opcode 217). -/
  | setLtS (rA rB rD : Reg)
  /-- `CMOV_IZ`: conditional move if zero (R314, opcode 218). -/
  | cmovIz (rA rB rD : Reg)
  /-- `CMOV_NZ`: conditional move if nonzero (R315, opcode 219). -/
  | cmovNz (rA rB rD : Reg)
  /-- `ROT_L_64`: rotate left, 64-bit (R383, opcode 220). -/
  | rotL64 (rA rB rD : Reg)
  /-- `ROT_L_32`: rotate left, 32-bit (R384, opcode 221). -/
  | rotL32 (rA rB rD : Reg)
  /-- `ROT_R_64`: rotate right, 64-bit (R385, opcode 222). -/
  | rotR64 (rA rB rD : Reg)
  /-- `ROT_R_32`: rotate right, 32-bit (R386, opcode 223). -/
  | rotR32 (rA rB rD : Reg)
  /-- `AND_INV`: AND with complement (R297, opcode 224). -/
  | andInv (rA rB rD : Reg)
  /-- `OR_INV`: OR with complement (R298, opcode 225). -/
  | orInv (rA rB rD : Reg)
  /-- `XNOR`: exclusive NOR (R299, opcode 226). -/
  | xnor (rA rB rD : Reg)
  /-- `MAX`: signed maximum (R350, opcode 227). -/
  | maxS (rA rB rD : Reg)
  /-- `MAX_U`: unsigned maximum (R351, opcode 228). -/
  | maxU (rA rB rD : Reg)
  /-- `MIN`: signed minimum (R352, opcode 229). -/
  | minS (rA rB rD : Reg)
  /-- `MIN_U`: unsigned minimum (R353, opcode 230). -/
  | minU (rA rB rD : Reg)
  deriving DecidableEq, Repr

/-- The argument shape of an instruction (R129, R144). -/
def Instr.shape : Instr → Shape
  | .trap | .fallthrough => .noArguments
  | .ecalli .. => .oneImmediate
  | .loadImm64 .. => .oneRegisterOneExtendedImmediate
  | .storeImmU8 .. | .storeImmU16 .. | .storeImmU32 .. | .storeImmU64 .. => .twoImmediates
  | .jump .. => .oneOffset
  | .jumpInd .. | .loadImm .. | .loadU8 .. | .loadI8 .. | .loadU16 .. | .loadI16 .. | .loadU32 ..
  | .loadI32 .. | .loadU64 .. | .storeU8 .. | .storeU16 .. | .storeU32 .. | .storeU64 .. => .oneRegisterOneImmediate
  | .storeImmIndU8 .. | .storeImmIndU16 .. | .storeImmIndU32 .. | .storeImmIndU64 .. => .oneRegisterTwoImmediates
  | .loadImmJump .. | .branchEqImm .. | .branchNeImm .. | .branchLtUImm .. | .branchLeUImm ..
  | .branchGeUImm .. | .branchGtUImm .. | .branchLtSImm .. | .branchLeSImm .. | .branchGeSImm ..
  | .branchGtSImm .. => .oneRegisterOneImmediateOneOffset
  | .moveReg .. | .sbrk .. | .countSetBits64 .. | .countSetBits32 .. | .leadingZeroBits64 ..
  | .leadingZeroBits32 .. | .trailingZeroBits64 .. | .trailingZeroBits32 .. | .signExtend8 ..
  | .signExtend16 .. | .zeroExtend16 .. | .reverseBytes .. => .twoRegisters
  | .storeIndU8 .. | .storeIndU16 .. | .storeIndU32 .. | .storeIndU64 .. | .loadIndU8 ..
  | .loadIndI8 .. | .loadIndU16 .. | .loadIndI16 .. | .loadIndU32 .. | .loadIndI32 ..
  | .loadIndU64 .. | .addImm32 .. | .andImm .. | .xorImm .. | .orImm .. | .mulImm32 ..
  | .setLtUImm .. | .setLtSImm .. | .shloLImm32 .. | .shloRImm32 .. | .sharRImm32 ..
  | .negAddImm32 .. | .setGtUImm .. | .setGtSImm .. | .shloLImmAlt32 .. | .shloRImmAlt32 ..
  | .sharRImmAlt32 .. | .cmovIzImm .. | .cmovNzImm .. | .addImm64 .. | .mulImm64 ..
  | .shloLImm64 .. | .shloRImm64 .. | .sharRImm64 .. | .negAddImm64 .. | .shloLImmAlt64 ..
  | .shloRImmAlt64 .. | .sharRImmAlt64 .. | .rotR64Imm .. | .rotR64ImmAlt .. | .rotR32Imm ..
  | .rotR32ImmAlt .. => .twoRegistersOneImmediate
  | .branchEq .. | .branchNe .. | .branchLtU .. | .branchLtS .. | .branchGeU .. | .branchGeS .. => .twoRegistersOneOffset
  | .loadImmJumpInd .. => .twoRegistersTwoImmediates
  | .add32 .. | .sub32 .. | .mul32 .. | .divU32 .. | .divS32 .. | .remU32 .. | .remS32 ..
  | .shloL32 .. | .shloR32 .. | .sharR32 .. | .add64 .. | .sub64 .. | .mul64 .. | .divU64 ..
  | .divS64 .. | .remU64 .. | .remS64 .. | .shloL64 .. | .shloR64 .. | .sharR64 .. | .andReg ..
  | .xorReg .. | .orReg .. | .mulUpperSS .. | .mulUpperUU .. | .mulUpperSU .. | .setLtU ..
  | .setLtS .. | .cmovIz .. | .cmovNz .. | .rotL64 .. | .rotL32 .. | .rotR64 .. | .rotR32 ..
  | .andInv .. | .orInv .. | .xnor .. | .maxS .. | .maxU .. | .minS .. | .minU .. => .threeRegisters

/-- The arguments of an instruction. -/
def Instr.args : Instr → Args
  | .trap | .fallthrough =>
    {  }
  | .ecalli immX =>
    { immX := immX }
  | .loadImm64 rA immX =>
    { rA := rA, immX := immX }
  | .storeImmU8 immX immY | .storeImmU16 immX immY | .storeImmU32 immX immY
  | .storeImmU64 immX immY =>
    { immX := immX, immY := immY }
  | .jump off =>
    { off := off }
  | .jumpInd rA immX | .loadImm rA immX | .loadU8 rA immX | .loadI8 rA immX | .loadU16 rA immX
  | .loadI16 rA immX | .loadU32 rA immX | .loadI32 rA immX | .loadU64 rA immX | .storeU8 rA immX
  | .storeU16 rA immX | .storeU32 rA immX | .storeU64 rA immX =>
    { rA := rA, immX := immX }
  | .storeImmIndU8 rA immX immY | .storeImmIndU16 rA immX immY | .storeImmIndU32 rA immX immY
  | .storeImmIndU64 rA immX immY =>
    { rA := rA, immX := immX, immY := immY }
  | .loadImmJump rA immX off | .branchEqImm rA immX off | .branchNeImm rA immX off
  | .branchLtUImm rA immX off | .branchLeUImm rA immX off | .branchGeUImm rA immX off
  | .branchGtUImm rA immX off | .branchLtSImm rA immX off | .branchLeSImm rA immX off
  | .branchGeSImm rA immX off | .branchGtSImm rA immX off =>
    { rA := rA, immX := immX, off := off }
  | .moveReg rA rD | .sbrk rA rD | .countSetBits64 rA rD | .countSetBits32 rA rD
  | .leadingZeroBits64 rA rD | .leadingZeroBits32 rA rD | .trailingZeroBits64 rA rD
  | .trailingZeroBits32 rA rD | .signExtend8 rA rD | .signExtend16 rA rD | .zeroExtend16 rA rD
  | .reverseBytes rA rD =>
    { rA := rA, rD := rD }
  | .storeIndU8 rA rB immX | .storeIndU16 rA rB immX | .storeIndU32 rA rB immX
  | .storeIndU64 rA rB immX | .loadIndU8 rA rB immX | .loadIndI8 rA rB immX
  | .loadIndU16 rA rB immX | .loadIndI16 rA rB immX | .loadIndU32 rA rB immX
  | .loadIndI32 rA rB immX | .loadIndU64 rA rB immX | .addImm32 rA rB immX | .andImm rA rB immX
  | .xorImm rA rB immX | .orImm rA rB immX | .mulImm32 rA rB immX | .setLtUImm rA rB immX
  | .setLtSImm rA rB immX | .shloLImm32 rA rB immX | .shloRImm32 rA rB immX
  | .sharRImm32 rA rB immX | .negAddImm32 rA rB immX | .setGtUImm rA rB immX
  | .setGtSImm rA rB immX | .shloLImmAlt32 rA rB immX | .shloRImmAlt32 rA rB immX
  | .sharRImmAlt32 rA rB immX | .cmovIzImm rA rB immX | .cmovNzImm rA rB immX
  | .addImm64 rA rB immX | .mulImm64 rA rB immX | .shloLImm64 rA rB immX | .shloRImm64 rA rB immX
  | .sharRImm64 rA rB immX | .negAddImm64 rA rB immX | .shloLImmAlt64 rA rB immX
  | .shloRImmAlt64 rA rB immX | .sharRImmAlt64 rA rB immX | .rotR64Imm rA rB immX
  | .rotR64ImmAlt rA rB immX | .rotR32Imm rA rB immX | .rotR32ImmAlt rA rB immX =>
    { rA := rA, rB := rB, immX := immX }
  | .branchEq rA rB off | .branchNe rA rB off | .branchLtU rA rB off | .branchLtS rA rB off
  | .branchGeU rA rB off | .branchGeS rA rB off =>
    { rA := rA, rB := rB, off := off }
  | .loadImmJumpInd rA rB immX immY =>
    { rA := rA, rB := rB, immX := immX, immY := immY }
  | .add32 rA rB rD | .sub32 rA rB rD | .mul32 rA rB rD | .divU32 rA rB rD | .divS32 rA rB rD
  | .remU32 rA rB rD | .remS32 rA rB rD | .shloL32 rA rB rD | .shloR32 rA rB rD | .sharR32 rA rB rD
  | .add64 rA rB rD | .sub64 rA rB rD | .mul64 rA rB rD | .divU64 rA rB rD | .divS64 rA rB rD
  | .remU64 rA rB rD | .remS64 rA rB rD | .shloL64 rA rB rD | .shloR64 rA rB rD | .sharR64 rA rB rD
  | .andReg rA rB rD | .xorReg rA rB rD | .orReg rA rB rD | .mulUpperSS rA rB rD
  | .mulUpperUU rA rB rD | .mulUpperSU rA rB rD | .setLtU rA rB rD | .setLtS rA rB rD
  | .cmovIz rA rB rD | .cmovNz rA rB rD | .rotL64 rA rB rD | .rotL32 rA rB rD | .rotR64 rA rB rD
  | .rotR32 rA rB rD | .andInv rA rB rD | .orInv rA rB rD | .xnor rA rB rD | .maxS rA rB rD
  | .maxU rA rB rD | .minS rA rB rD | .minU rA rB rD =>
    { rA := rA, rB := rB, rD := rD }

end Sys2Proof
end

