-- ==== Sys2Proof/Machine/Params.lean ====
section
/-! DEFINITION. The parameters that the source leaves open, as an argument of the model, and the default that
spec/00_scope.md R9 decides for each (notes/assumptions/1.md). -/

namespace Sys2Proof

/-- An entry of `OPCODE_TABLE`: the argument shape of an opcode, and the semantic rule of files 41–48 that the table
names for it (spec/40_step.md R166), by the number that spec/30_encoding.md R144 gives the rule's instruction. -/
structure OpEntry where
  shape : Shape
  rule : Nat
  deriving DecidableEq, Repr

/-- The parameters of R9. They are fixed for the life of a core (spec/10_state.md R31). -/
structure Params where
  /-- `OPCODE_TABLE`: the opcodes whose entry is not that of spec/30_encoding.md R144, each with its entry, or none if
  it is unknown. The first pair of an opcode counts. -/
  opcodes : List (Nat × Option OpEntry)
  /-- `GAS_COST`: the opcodes whose cost is not 1, each with its cost. The first pair of an opcode counts. -/
  gasCosts : List (Nat × Nat)
  /-- `GAS_MAX`. -/
  gasMax : Nat
  /-- `MAX_SKIP`. -/
  maxSkip : Nat
  /-- `MAX_IMM`, in bytes, of every immediate but the 8-byte one, and of branch offsets (DESIGN CHOICE,
  notes/assumptions/24.md). -/
  maxImm : Nat
  /-- `JUMP_ALIGN`. -/
  jumpAlign : Nat
  /-- `HALT_ADDRESS`. -/
  haltAddress : Addr
  /-- `HEAP_LIMIT`. -/
  heapLimit : Nat
  /-- `SBRK_FAIL_RESULT`. -/
  sbrkFailResult : Word
  deriving DecidableEq, Repr

/-- The defaults of R9 (spec/92_eei_decisions.md D2, D3, D15, D18, D19, D20, D24). -/
def Params.default : Params where
  opcodes := []
  gasCosts := []
  gasMax := 2 ^ 64 - 1
  maxSkip := 24
  maxImm := 4
  jumpAlign := 2
  haltAddress := 0xFFFF0000
  heapLimit := 2 ^ 32
  sbrkFailResult := 0

/-- `GAS_COST(opcode)`. -/
def Params.gasCost (P : Params) (op : Nat) : Nat := (P.gasCosts.lookup op).getD 1

/-- The parameters make sense: an immediate has a length that a 3-bit field holds (spec/30_encoding.md R126), and the
heap stays in the address space (spec/20_memory.md R88). Values to which the spec gives no meaning are in
notes/assumptions/23.md. -/
def Params.wf (P : Params) : Bool := P.maxImm ≤ 7 && P.heapLimit ≤ Config.addrSpace

end Sys2Proof
end

