-- ==== Sys2Proof/WellFormed.lean ====
section
/-! DEFINITION. Well-formed instructions: those whose operands some encoding holds
(spec/30_encoding.md R123, R124, R126, R133). -/

namespace Sys2Proof

/-- The immediate is the sign extension of at most `MAX_IMM` bytes (R123, R126). -/
def immOk (P : Params) (v : Word) : Bool := sext (8 * P.maxImm) v.toNat == v

/-- The offset is a signed number of at most `MAX_IMM` bytes (R124, R126; that `MAX_IMM` limits offsets too is a DESIGN
CHOICE, notes/assumptions/24.md). -/
def offOk (P : Params) (o : Int) : Bool := signedOf (8 * P.maxImm) (u64 o).toNat == o

/-- The arguments with every field that the shape lacks at 0, as the argument decoder leaves it. That a rule whose operand
the shape lacks reads 0 is a DESIGN CHOICE (notes/assumptions/1.md); no entry of the default table is such. -/
def Args.restrict (sh : Shape) (a : Args) : Args :=
  match sh with
  | .noArguments => {}
  | .oneImmediate => { immX := a.immX }
  | .oneRegisterOneExtendedImmediate | .oneRegisterOneImmediate => { rA := a.rA, immX := a.immX }
  | .twoImmediates => { immX := a.immX, immY := a.immY }
  | .oneOffset => { off := a.off }
  | .oneRegisterTwoImmediates => { rA := a.rA, immX := a.immX, immY := a.immY }
  | .oneRegisterOneImmediateOneOffset => { rA := a.rA, immX := a.immX, off := a.off }
  | .twoRegisters => { rA := a.rA, rD := a.rD }
  | .twoRegistersOneImmediate => { rA := a.rA, rB := a.rB, immX := a.immX }
  | .twoRegistersOneOffset => { rA := a.rA, rB := a.rB, off := a.off }
  | .twoRegistersTwoImmediates => { rA := a.rA, rB := a.rB, immX := a.immX, immY := a.immY }
  | .threeRegisters => { rA := a.rA, rB := a.rB, rD := a.rD }

/-- The arguments fit a shape: it has the fields that are not 0, and their values are in range. Only the 8-byte immediate of
R133 is free of the limit `MAX_IMM`. -/
def Args.wf (P : Params) (sh : Shape) (a : Args) : Bool :=
  a.restrict sh == a && match sh with
  | .noArguments | .oneRegisterOneExtendedImmediate | .twoRegisters | .threeRegisters => true
  | .oneImmediate | .oneRegisterOneImmediate | .twoRegistersOneImmediate => immOk P a.immX
  | .twoImmediates | .oneRegisterTwoImmediates | .twoRegistersTwoImmediates =>
    immOk P a.immX && immOk P a.immY
  | .oneOffset | .twoRegistersOneOffset => offOk P a.off
  | .oneRegisterOneImmediateOneOffset => immOk P a.immX && offOk P a.off

/-- The operands of the instruction have an encoding in its own shape (R144). -/
def Instr.wf (P : Params) (i : Instr) : Bool := i.args.wf P i.shape

end Sys2Proof
end

