-- ==== Sys2Proof/Decode.lean ====
section
/-! DEFINITION. The instruction decoder (instruction length, argument shapes, opcode map) and, after it, the
encoder (spec/30_encoding.md R118–R148). -/

namespace Sys2Proof

/-! ## Instruction length -/

/-- `mask*[i]`: the instruction-start bit, 1 past the end (spec/00_scope.md R14; R121). -/
def maskStar (mask : List Bool) (i : Nat) : Bool := mask.getD i true

/-- The distance from `i` to the next set bit of `mask*`, at most `n`. -/
def toNextStart (mask : List Bool) (i : Nat) : Nat → Nat
  | 0 => 0
  | n + 1 => if maskStar mask i then 0 else toNextStart mask (i + 1) n + 1

/-- `skip(pc)`: the number of bytes after the opcode, at most `MAX_SKIP` (R125). -/
def skip (P : Params) (mask : List Bool) (pc : Nat) : Nat := toNextStart mask (pc + 1) P.maxSkip

/-! ## Arguments

`bs` is the code from the opcode byte on; bytes past its end read 0 (R120). `l` is `ℓ = skip(pc)`. -/

/-- `code*[pc + i]` (spec/00_scope.md R14; R120). -/
def byteAt (bs : List Byte) (i : Nat) : Nat := (bs.getD i 0).toNat

/-- The low nibble of a byte (R130). -/
def lo (b : Nat) : Nat := b % 16

/-- The high nibble of a byte (R130). -/
def hi (b : Nat) : Nat := b / 16

/-- `reg(v) = min(12, v)` (R122). -/
def regOf (v : Nat) : Reg := ⟨min 12 v, by omega⟩

/-- The little-endian value of the `len` bytes at `o`. -/
def fieldAt (bs : List Byte) (o : Nat) : Nat → Nat
  | 0 => 0
  | n + 1 => byteAt bs o + 256 * fieldAt bs (o + 1) n

/-- `imm(o, len)`: a sign-extended immediate (R123). -/
def immAt (bs : List Byte) (o len : Nat) : Word := sext (8 * len) (fieldAt bs o len)

/-- `off(o, len)`: a signed offset (R124). -/
def offAt (bs : List Byte) (o len : Nat) : Int := signedOf (8 * len) (fieldAt bs o len)

/-- A 3-bit length field, clamped to `MAX_IMM` (R126). -/
def lenField (P : Params) (b : Nat) : Nat := min P.maxImm (b % 8)

/-- The length of a last immediate or offset: what the instruction's bytes leave, clamped to `MAX_IMM` (R126). R9 and D2
give `MAX_IMM` as the limit of immediates; that it limits branch offsets too, where R126, R135, R138 and R141 write 4, is
a DESIGN CHOICE (notes/assumptions/24.md). -/
def lenRest (P : Params) (l used : Nat) : Nat := min P.maxImm (l - used)

/-- The argument decoder, a total function (R128; R131–R143). -/
def decodeArgs (P : Params) (sh : Shape) (bs : List Byte) (l : Nat) : Args :=
  let b1 := byteAt bs 1
  let b2 := byteAt bs 2
  match sh with
  | .noArguments => {}
  | .oneImmediate => { immX := immAt bs 1 (lenRest P l 0) }
  | .oneRegisterOneExtendedImmediate =>
    { rA := regOf (lo b1), immX := BitVec.ofNat 64 (fieldAt bs 2 8) }
  | .twoImmediates =>
    let lX := lenField P b1
    { immX := immAt bs 2 lX, immY := immAt bs (2 + lX) (lenRest P l (lX + 1)) }
  | .oneOffset => { off := offAt bs 1 (lenRest P l 0) }
  | .oneRegisterOneImmediate => { rA := regOf (lo b1), immX := immAt bs 2 (lenRest P l 1) }
  | .oneRegisterTwoImmediates =>
    let lX := lenField P (hi b1)
    { rA := regOf (lo b1), immX := immAt bs 2 lX,
      immY := immAt bs (2 + lX) (lenRest P l (lX + 1)) }
  | .oneRegisterOneImmediateOneOffset =>
    let lX := lenField P (hi b1)
    { rA := regOf (lo b1), immX := immAt bs 2 lX,
      off := offAt bs (2 + lX) (lenRest P l (lX + 1)) }
  | .twoRegisters => { rD := regOf (lo b1), rA := regOf (hi b1) }
  | .twoRegistersOneImmediate =>
    { rA := regOf (lo b1), rB := regOf (hi b1), immX := immAt bs 2 (lenRest P l 1) }
  | .twoRegistersOneOffset =>
    { rA := regOf (lo b1), rB := regOf (hi b1), off := offAt bs 2 (lenRest P l 1) }
  | .twoRegistersTwoImmediates =>
    let lX := lenField P b2
    { rA := regOf (lo b1), rB := regOf (hi b1), immX := immAt bs 3 lX,
      immY := immAt bs (3 + lX) (lenRest P l (lX + 2)) }
  | .threeRegisters => { rA := regOf (lo b1), rB := regOf (hi b1), rD := regOf b2 }

/-! ## The opcode map -/

/-- A row of the opcode map: opcode, mnemonic, shape, and the instruction its arguments make (R144). -/
structure OpRow where
  op : Nat
  mnemonic : String
  shape : Shape
  build : Args → Instr

/-- The number of an instruction: its opcode byte in the default table (R144). -/
def Instr.opcode : Instr → Nat
  | .trap => 0
  | .fallthrough => 1
  | .ecalli .. => 10
  | .loadImm64 .. => 20
  | .storeImmU8 .. => 30
  | .storeImmU16 .. => 31
  | .storeImmU32 .. => 32
  | .storeImmU64 .. => 33
  | .jump .. => 40
  | .jumpInd .. => 50
  | .loadImm .. => 51
  | .loadU8 .. => 52
  | .loadI8 .. => 53
  | .loadU16 .. => 54
  | .loadI16 .. => 55
  | .loadU32 .. => 56
  | .loadI32 .. => 57
  | .loadU64 .. => 58
  | .storeU8 .. => 59
  | .storeU16 .. => 60
  | .storeU32 .. => 61
  | .storeU64 .. => 62
  | .storeImmIndU8 .. => 70
  | .storeImmIndU16 .. => 71
  | .storeImmIndU32 .. => 72
  | .storeImmIndU64 .. => 73
  | .loadImmJump .. => 80
  | .branchEqImm .. => 81
  | .branchNeImm .. => 82
  | .branchLtUImm .. => 83
  | .branchLeUImm .. => 84
  | .branchGeUImm .. => 85
  | .branchGtUImm .. => 86
  | .branchLtSImm .. => 87
  | .branchLeSImm .. => 88
  | .branchGeSImm .. => 89
  | .branchGtSImm .. => 90
  | .moveReg .. => 100
  | .sbrk .. => 101
  | .countSetBits64 .. => 102
  | .countSetBits32 .. => 103
  | .leadingZeroBits64 .. => 104
  | .leadingZeroBits32 .. => 105
  | .trailingZeroBits64 .. => 106
  | .trailingZeroBits32 .. => 107
  | .signExtend8 .. => 108
  | .signExtend16 .. => 109
  | .zeroExtend16 .. => 110
  | .reverseBytes .. => 111
  | .storeIndU8 .. => 120
  | .storeIndU16 .. => 121
  | .storeIndU32 .. => 122
  | .storeIndU64 .. => 123
  | .loadIndU8 .. => 124
  | .loadIndI8 .. => 125
  | .loadIndU16 .. => 126
  | .loadIndI16 .. => 127
  | .loadIndU32 .. => 128
  | .loadIndI32 .. => 129
  | .loadIndU64 .. => 130
  | .addImm32 .. => 131
  | .andImm .. => 132
  | .xorImm .. => 133
  | .orImm .. => 134
  | .mulImm32 .. => 135
  | .setLtUImm .. => 136
  | .setLtSImm .. => 137
  | .shloLImm32 .. => 138
  | .shloRImm32 .. => 139
  | .sharRImm32 .. => 140
  | .negAddImm32 .. => 141
  | .setGtUImm .. => 142
  | .setGtSImm .. => 143
  | .shloLImmAlt32 .. => 144
  | .shloRImmAlt32 .. => 145
  | .sharRImmAlt32 .. => 146
  | .cmovIzImm .. => 147
  | .cmovNzImm .. => 148
  | .addImm64 .. => 149
  | .mulImm64 .. => 150
  | .shloLImm64 .. => 151
  | .shloRImm64 .. => 152
  | .sharRImm64 .. => 153
  | .negAddImm64 .. => 154
  | .shloLImmAlt64 .. => 155
  | .shloRImmAlt64 .. => 156
  | .sharRImmAlt64 .. => 157
  | .rotR64Imm .. => 158
  | .rotR64ImmAlt .. => 159
  | .rotR32Imm .. => 160
  | .rotR32ImmAlt .. => 161
  | .branchEq .. => 170
  | .branchNe .. => 171
  | .branchLtU .. => 172
  | .branchLtS .. => 173
  | .branchGeU .. => 174
  | .branchGeS .. => 175
  | .loadImmJumpInd .. => 180
  | .add32 .. => 190
  | .sub32 .. => 191
  | .mul32 .. => 192
  | .divU32 .. => 193
  | .divS32 .. => 194
  | .remU32 .. => 195
  | .remS32 .. => 196
  | .shloL32 .. => 197
  | .shloR32 .. => 198
  | .sharR32 .. => 199
  | .add64 .. => 200
  | .sub64 .. => 201
  | .mul64 .. => 202
  | .divU64 .. => 203
  | .divS64 .. => 204
  | .remU64 .. => 205
  | .remS64 .. => 206
  | .shloL64 .. => 207
  | .shloR64 .. => 208
  | .sharR64 .. => 209
  | .andReg .. => 210
  | .xorReg .. => 211
  | .orReg .. => 212
  | .mulUpperSS .. => 213
  | .mulUpperUU .. => 214
  | .mulUpperSU .. => 215
  | .setLtU .. => 216
  | .setLtS .. => 217
  | .cmovIz .. => 218
  | .cmovNz .. => 219
  | .rotL64 .. => 220
  | .rotL32 .. => 221
  | .rotR64 .. => 222
  | .rotR32 .. => 223
  | .andInv .. => 224
  | .orInv .. => 225
  | .xnor .. => 226
  | .maxS .. => 227
  | .maxU .. => 228
  | .minS .. => 229
  | .minU .. => 230

/-- Rows 1–35 of the opcode map (R144). -/
def opRows1 : List OpRow := [
  ⟨0, "TRAP", .noArguments, fun _ => .trap⟩,
  ⟨1, "FALLTHROUGH", .noArguments, fun _ => .fallthrough⟩,
  ⟨10, "ECALLI", .oneImmediate, fun a => .ecalli a.immX⟩,
  ⟨20, "LOAD_IMM_64", .oneRegisterOneExtendedImmediate, fun a => .loadImm64 a.rA a.immX⟩,
  ⟨30, "STORE_IMM_U8", .twoImmediates, fun a => .storeImmU8 a.immX a.immY⟩,
  ⟨31, "STORE_IMM_U16", .twoImmediates, fun a => .storeImmU16 a.immX a.immY⟩,
  ⟨32, "STORE_IMM_U32", .twoImmediates, fun a => .storeImmU32 a.immX a.immY⟩,
  ⟨33, "STORE_IMM_U64", .twoImmediates, fun a => .storeImmU64 a.immX a.immY⟩,
  ⟨40, "JUMP", .oneOffset, fun a => .jump a.off⟩,
  ⟨50, "JUMP_IND", .oneRegisterOneImmediate, fun a => .jumpInd a.rA a.immX⟩,
  ⟨51, "LOAD_IMM", .oneRegisterOneImmediate, fun a => .loadImm a.rA a.immX⟩,
  ⟨52, "LOAD_U8", .oneRegisterOneImmediate, fun a => .loadU8 a.rA a.immX⟩,
  ⟨53, "LOAD_I8", .oneRegisterOneImmediate, fun a => .loadI8 a.rA a.immX⟩,
  ⟨54, "LOAD_U16", .oneRegisterOneImmediate, fun a => .loadU16 a.rA a.immX⟩,
  ⟨55, "LOAD_I16", .oneRegisterOneImmediate, fun a => .loadI16 a.rA a.immX⟩,
  ⟨56, "LOAD_U32", .oneRegisterOneImmediate, fun a => .loadU32 a.rA a.immX⟩,
  ⟨57, "LOAD_I32", .oneRegisterOneImmediate, fun a => .loadI32 a.rA a.immX⟩,
  ⟨58, "LOAD_U64", .oneRegisterOneImmediate, fun a => .loadU64 a.rA a.immX⟩,
  ⟨59, "STORE_U8", .oneRegisterOneImmediate, fun a => .storeU8 a.rA a.immX⟩,
  ⟨60, "STORE_U16", .oneRegisterOneImmediate, fun a => .storeU16 a.rA a.immX⟩,
  ⟨61, "STORE_U32", .oneRegisterOneImmediate, fun a => .storeU32 a.rA a.immX⟩,
  ⟨62, "STORE_U64", .oneRegisterOneImmediate, fun a => .storeU64 a.rA a.immX⟩,
  ⟨70, "STORE_IMM_IND_U8", .oneRegisterTwoImmediates, fun a => .storeImmIndU8 a.rA a.immX a.immY⟩,
  ⟨71, "STORE_IMM_IND_U16", .oneRegisterTwoImmediates, fun a => .storeImmIndU16 a.rA a.immX a.immY⟩,
  ⟨72, "STORE_IMM_IND_U32", .oneRegisterTwoImmediates, fun a => .storeImmIndU32 a.rA a.immX a.immY⟩,
  ⟨73, "STORE_IMM_IND_U64", .oneRegisterTwoImmediates, fun a => .storeImmIndU64 a.rA a.immX a.immY⟩,
  ⟨80, "LOAD_IMM_JUMP", .oneRegisterOneImmediateOneOffset, fun a => .loadImmJump a.rA a.immX a.off⟩,
  ⟨81, "BRANCH_EQ_IMM", .oneRegisterOneImmediateOneOffset, fun a => .branchEqImm a.rA a.immX a.off⟩,
  ⟨82, "BRANCH_NE_IMM", .oneRegisterOneImmediateOneOffset, fun a => .branchNeImm a.rA a.immX a.off⟩,
  ⟨83, "BRANCH_LT_U_IMM", .oneRegisterOneImmediateOneOffset, fun a => .branchLtUImm a.rA a.immX a.off⟩,
  ⟨84, "BRANCH_LE_U_IMM", .oneRegisterOneImmediateOneOffset, fun a => .branchLeUImm a.rA a.immX a.off⟩,
  ⟨85, "BRANCH_GE_U_IMM", .oneRegisterOneImmediateOneOffset, fun a => .branchGeUImm a.rA a.immX a.off⟩,
  ⟨86, "BRANCH_GT_U_IMM", .oneRegisterOneImmediateOneOffset, fun a => .branchGtUImm a.rA a.immX a.off⟩,
  ⟨87, "BRANCH_LT_S_IMM", .oneRegisterOneImmediateOneOffset, fun a => .branchLtSImm a.rA a.immX a.off⟩,
  ⟨88, "BRANCH_LE_S_IMM", .oneRegisterOneImmediateOneOffset, fun a => .branchLeSImm a.rA a.immX a.off⟩]

/-- Rows 36–70 of the opcode map (R144). -/
def opRows2 : List OpRow := [
  ⟨89, "BRANCH_GE_S_IMM", .oneRegisterOneImmediateOneOffset, fun a => .branchGeSImm a.rA a.immX a.off⟩,
  ⟨90, "BRANCH_GT_S_IMM", .oneRegisterOneImmediateOneOffset, fun a => .branchGtSImm a.rA a.immX a.off⟩,
  ⟨100, "MOVE_REG", .twoRegisters, fun a => .moveReg a.rA a.rD⟩,
  ⟨101, "SBRK", .twoRegisters, fun a => .sbrk a.rA a.rD⟩,
  ⟨102, "COUNT_SET_BITS_64", .twoRegisters, fun a => .countSetBits64 a.rA a.rD⟩,
  ⟨103, "COUNT_SET_BITS_32", .twoRegisters, fun a => .countSetBits32 a.rA a.rD⟩,
  ⟨104, "LEADING_ZERO_BITS_64", .twoRegisters, fun a => .leadingZeroBits64 a.rA a.rD⟩,
  ⟨105, "LEADING_ZERO_BITS_32", .twoRegisters, fun a => .leadingZeroBits32 a.rA a.rD⟩,
  ⟨106, "TRAILING_ZERO_BITS_64", .twoRegisters, fun a => .trailingZeroBits64 a.rA a.rD⟩,
  ⟨107, "TRAILING_ZERO_BITS_32", .twoRegisters, fun a => .trailingZeroBits32 a.rA a.rD⟩,
  ⟨108, "SIGN_EXTEND_8", .twoRegisters, fun a => .signExtend8 a.rA a.rD⟩,
  ⟨109, "SIGN_EXTEND_16", .twoRegisters, fun a => .signExtend16 a.rA a.rD⟩,
  ⟨110, "ZERO_EXTEND_16", .twoRegisters, fun a => .zeroExtend16 a.rA a.rD⟩,
  ⟨111, "REVERSE_BYTES", .twoRegisters, fun a => .reverseBytes a.rA a.rD⟩,
  ⟨120, "STORE_IND_U8", .twoRegistersOneImmediate, fun a => .storeIndU8 a.rA a.rB a.immX⟩,
  ⟨121, "STORE_IND_U16", .twoRegistersOneImmediate, fun a => .storeIndU16 a.rA a.rB a.immX⟩,
  ⟨122, "STORE_IND_U32", .twoRegistersOneImmediate, fun a => .storeIndU32 a.rA a.rB a.immX⟩,
  ⟨123, "STORE_IND_U64", .twoRegistersOneImmediate, fun a => .storeIndU64 a.rA a.rB a.immX⟩,
  ⟨124, "LOAD_IND_U8", .twoRegistersOneImmediate, fun a => .loadIndU8 a.rA a.rB a.immX⟩,
  ⟨125, "LOAD_IND_I8", .twoRegistersOneImmediate, fun a => .loadIndI8 a.rA a.rB a.immX⟩,
  ⟨126, "LOAD_IND_U16", .twoRegistersOneImmediate, fun a => .loadIndU16 a.rA a.rB a.immX⟩,
  ⟨127, "LOAD_IND_I16", .twoRegistersOneImmediate, fun a => .loadIndI16 a.rA a.rB a.immX⟩,
  ⟨128, "LOAD_IND_U32", .twoRegistersOneImmediate, fun a => .loadIndU32 a.rA a.rB a.immX⟩,
  ⟨129, "LOAD_IND_I32", .twoRegistersOneImmediate, fun a => .loadIndI32 a.rA a.rB a.immX⟩,
  ⟨130, "LOAD_IND_U64", .twoRegistersOneImmediate, fun a => .loadIndU64 a.rA a.rB a.immX⟩,
  ⟨131, "ADD_IMM_32", .twoRegistersOneImmediate, fun a => .addImm32 a.rA a.rB a.immX⟩,
  ⟨132, "AND_IMM", .twoRegistersOneImmediate, fun a => .andImm a.rA a.rB a.immX⟩,
  ⟨133, "XOR_IMM", .twoRegistersOneImmediate, fun a => .xorImm a.rA a.rB a.immX⟩,
  ⟨134, "OR_IMM", .twoRegistersOneImmediate, fun a => .orImm a.rA a.rB a.immX⟩,
  ⟨135, "MUL_IMM_32", .twoRegistersOneImmediate, fun a => .mulImm32 a.rA a.rB a.immX⟩,
  ⟨136, "SET_LT_U_IMM", .twoRegistersOneImmediate, fun a => .setLtUImm a.rA a.rB a.immX⟩,
  ⟨137, "SET_LT_S_IMM", .twoRegistersOneImmediate, fun a => .setLtSImm a.rA a.rB a.immX⟩,
  ⟨138, "SHLO_L_IMM_32", .twoRegistersOneImmediate, fun a => .shloLImm32 a.rA a.rB a.immX⟩,
  ⟨139, "SHLO_R_IMM_32", .twoRegistersOneImmediate, fun a => .shloRImm32 a.rA a.rB a.immX⟩,
  ⟨140, "SHAR_R_IMM_32", .twoRegistersOneImmediate, fun a => .sharRImm32 a.rA a.rB a.immX⟩]

/-- Rows 71–105 of the opcode map (R144). -/
def opRows3 : List OpRow := [
  ⟨141, "NEG_ADD_IMM_32", .twoRegistersOneImmediate, fun a => .negAddImm32 a.rA a.rB a.immX⟩,
  ⟨142, "SET_GT_U_IMM", .twoRegistersOneImmediate, fun a => .setGtUImm a.rA a.rB a.immX⟩,
  ⟨143, "SET_GT_S_IMM", .twoRegistersOneImmediate, fun a => .setGtSImm a.rA a.rB a.immX⟩,
  ⟨144, "SHLO_L_IMM_ALT_32", .twoRegistersOneImmediate, fun a => .shloLImmAlt32 a.rA a.rB a.immX⟩,
  ⟨145, "SHLO_R_IMM_ALT_32", .twoRegistersOneImmediate, fun a => .shloRImmAlt32 a.rA a.rB a.immX⟩,
  ⟨146, "SHAR_R_IMM_ALT_32", .twoRegistersOneImmediate, fun a => .sharRImmAlt32 a.rA a.rB a.immX⟩,
  ⟨147, "CMOV_IZ_IMM", .twoRegistersOneImmediate, fun a => .cmovIzImm a.rA a.rB a.immX⟩,
  ⟨148, "CMOV_NZ_IMM", .twoRegistersOneImmediate, fun a => .cmovNzImm a.rA a.rB a.immX⟩,
  ⟨149, "ADD_IMM_64", .twoRegistersOneImmediate, fun a => .addImm64 a.rA a.rB a.immX⟩,
  ⟨150, "MUL_IMM_64", .twoRegistersOneImmediate, fun a => .mulImm64 a.rA a.rB a.immX⟩,
  ⟨151, "SHLO_L_IMM_64", .twoRegistersOneImmediate, fun a => .shloLImm64 a.rA a.rB a.immX⟩,
  ⟨152, "SHLO_R_IMM_64", .twoRegistersOneImmediate, fun a => .shloRImm64 a.rA a.rB a.immX⟩,
  ⟨153, "SHAR_R_IMM_64", .twoRegistersOneImmediate, fun a => .sharRImm64 a.rA a.rB a.immX⟩,
  ⟨154, "NEG_ADD_IMM_64", .twoRegistersOneImmediate, fun a => .negAddImm64 a.rA a.rB a.immX⟩,
  ⟨155, "SHLO_L_IMM_ALT_64", .twoRegistersOneImmediate, fun a => .shloLImmAlt64 a.rA a.rB a.immX⟩,
  ⟨156, "SHLO_R_IMM_ALT_64", .twoRegistersOneImmediate, fun a => .shloRImmAlt64 a.rA a.rB a.immX⟩,
  ⟨157, "SHAR_R_IMM_ALT_64", .twoRegistersOneImmediate, fun a => .sharRImmAlt64 a.rA a.rB a.immX⟩,
  ⟨158, "ROT_R_64_IMM", .twoRegistersOneImmediate, fun a => .rotR64Imm a.rA a.rB a.immX⟩,
  ⟨159, "ROT_R_64_IMM_ALT", .twoRegistersOneImmediate, fun a => .rotR64ImmAlt a.rA a.rB a.immX⟩,
  ⟨160, "ROT_R_32_IMM", .twoRegistersOneImmediate, fun a => .rotR32Imm a.rA a.rB a.immX⟩,
  ⟨161, "ROT_R_32_IMM_ALT", .twoRegistersOneImmediate, fun a => .rotR32ImmAlt a.rA a.rB a.immX⟩,
  ⟨170, "BRANCH_EQ", .twoRegistersOneOffset, fun a => .branchEq a.rA a.rB a.off⟩,
  ⟨171, "BRANCH_NE", .twoRegistersOneOffset, fun a => .branchNe a.rA a.rB a.off⟩,
  ⟨172, "BRANCH_LT_U", .twoRegistersOneOffset, fun a => .branchLtU a.rA a.rB a.off⟩,
  ⟨173, "BRANCH_LT_S", .twoRegistersOneOffset, fun a => .branchLtS a.rA a.rB a.off⟩,
  ⟨174, "BRANCH_GE_U", .twoRegistersOneOffset, fun a => .branchGeU a.rA a.rB a.off⟩,
  ⟨175, "BRANCH_GE_S", .twoRegistersOneOffset, fun a => .branchGeS a.rA a.rB a.off⟩,
  ⟨180, "LOAD_IMM_JUMP_IND", .twoRegistersTwoImmediates, fun a => .loadImmJumpInd a.rA a.rB a.immX a.immY⟩,
  ⟨190, "ADD_32", .threeRegisters, fun a => .add32 a.rA a.rB a.rD⟩,
  ⟨191, "SUB_32", .threeRegisters, fun a => .sub32 a.rA a.rB a.rD⟩,
  ⟨192, "MUL_32", .threeRegisters, fun a => .mul32 a.rA a.rB a.rD⟩,
  ⟨193, "DIV_U_32", .threeRegisters, fun a => .divU32 a.rA a.rB a.rD⟩,
  ⟨194, "DIV_S_32", .threeRegisters, fun a => .divS32 a.rA a.rB a.rD⟩,
  ⟨195, "REM_U_32", .threeRegisters, fun a => .remU32 a.rA a.rB a.rD⟩,
  ⟨196, "REM_S_32", .threeRegisters, fun a => .remS32 a.rA a.rB a.rD⟩]

/-- Rows 106–139 of the opcode map (R144). -/
def opRows4 : List OpRow := [
  ⟨197, "SHLO_L_32", .threeRegisters, fun a => .shloL32 a.rA a.rB a.rD⟩,
  ⟨198, "SHLO_R_32", .threeRegisters, fun a => .shloR32 a.rA a.rB a.rD⟩,
  ⟨199, "SHAR_R_32", .threeRegisters, fun a => .sharR32 a.rA a.rB a.rD⟩,
  ⟨200, "ADD_64", .threeRegisters, fun a => .add64 a.rA a.rB a.rD⟩,
  ⟨201, "SUB_64", .threeRegisters, fun a => .sub64 a.rA a.rB a.rD⟩,
  ⟨202, "MUL_64", .threeRegisters, fun a => .mul64 a.rA a.rB a.rD⟩,
  ⟨203, "DIV_U_64", .threeRegisters, fun a => .divU64 a.rA a.rB a.rD⟩,
  ⟨204, "DIV_S_64", .threeRegisters, fun a => .divS64 a.rA a.rB a.rD⟩,
  ⟨205, "REM_U_64", .threeRegisters, fun a => .remU64 a.rA a.rB a.rD⟩,
  ⟨206, "REM_S_64", .threeRegisters, fun a => .remS64 a.rA a.rB a.rD⟩,
  ⟨207, "SHLO_L_64", .threeRegisters, fun a => .shloL64 a.rA a.rB a.rD⟩,
  ⟨208, "SHLO_R_64", .threeRegisters, fun a => .shloR64 a.rA a.rB a.rD⟩,
  ⟨209, "SHAR_R_64", .threeRegisters, fun a => .sharR64 a.rA a.rB a.rD⟩,
  ⟨210, "AND", .threeRegisters, fun a => .andReg a.rA a.rB a.rD⟩,
  ⟨211, "XOR", .threeRegisters, fun a => .xorReg a.rA a.rB a.rD⟩,
  ⟨212, "OR", .threeRegisters, fun a => .orReg a.rA a.rB a.rD⟩,
  ⟨213, "MUL_UPPER_S_S", .threeRegisters, fun a => .mulUpperSS a.rA a.rB a.rD⟩,
  ⟨214, "MUL_UPPER_U_U", .threeRegisters, fun a => .mulUpperUU a.rA a.rB a.rD⟩,
  ⟨215, "MUL_UPPER_S_U", .threeRegisters, fun a => .mulUpperSU a.rA a.rB a.rD⟩,
  ⟨216, "SET_LT_U", .threeRegisters, fun a => .setLtU a.rA a.rB a.rD⟩,
  ⟨217, "SET_LT_S", .threeRegisters, fun a => .setLtS a.rA a.rB a.rD⟩,
  ⟨218, "CMOV_IZ", .threeRegisters, fun a => .cmovIz a.rA a.rB a.rD⟩,
  ⟨219, "CMOV_NZ", .threeRegisters, fun a => .cmovNz a.rA a.rB a.rD⟩,
  ⟨220, "ROT_L_64", .threeRegisters, fun a => .rotL64 a.rA a.rB a.rD⟩,
  ⟨221, "ROT_L_32", .threeRegisters, fun a => .rotL32 a.rA a.rB a.rD⟩,
  ⟨222, "ROT_R_64", .threeRegisters, fun a => .rotR64 a.rA a.rB a.rD⟩,
  ⟨223, "ROT_R_32", .threeRegisters, fun a => .rotR32 a.rA a.rB a.rD⟩,
  ⟨224, "AND_INV", .threeRegisters, fun a => .andInv a.rA a.rB a.rD⟩,
  ⟨225, "OR_INV", .threeRegisters, fun a => .orInv a.rA a.rB a.rD⟩,
  ⟨226, "XNOR", .threeRegisters, fun a => .xnor a.rA a.rB a.rD⟩,
  ⟨227, "MAX", .threeRegisters, fun a => .maxS a.rA a.rB a.rD⟩,
  ⟨228, "MAX_U", .threeRegisters, fun a => .maxU a.rA a.rB a.rD⟩,
  ⟨229, "MIN", .threeRegisters, fun a => .minS a.rA a.rB a.rD⟩,
  ⟨230, "MIN_U", .threeRegisters, fun a => .minU a.rA a.rB a.rD⟩]

/-- The opcode map: one row per defined opcode (R144). -/
def opTable : List OpRow := opRows1 ++ opRows2 ++ opRows3 ++ opRows4

/-- The row of an instruction number. -/
def findRow (op : Nat) : Option OpRow := opTable.find? (fun r => r.op == op)

/-- The row of an opcode in `OPCODE_TABLE`: that of the semantic rule it names, with the shape it gives, and `op` the
number of the rule's instruction. None for an unknown opcode (R119, R145; spec/00_scope.md R9). The row keeps the
mnemonic that R144 gives the rule's instruction (DESIGN CHOICE, notes/assumptions/1.md). -/
def Params.row (P : Params) (op : Nat) : Option OpRow :=
  match P.opcodes.lookup op with
  | none => findRow op
  | some none => none
  | some (some e) => (findRow e.rule).map fun r => { r with shape := e.shape }

/-- The opcode stands for instruction `n`. -/
def Params.standsFor (P : Params) (op n : Nat) : Bool := (P.row op).any fun r => r.op == n

/-- An opcode that stands for instruction `n`: `n` itself where it does, and otherwise the least (DESIGN CHOICE,
notes/assumptions/1.md). -/
def Params.opcodeOf (P : Params) (n : Nat) : Option Nat :=
  if P.standsFor n n then some n else (List.range 256).find? (P.standsFor · n)

/-- The opcode of TRAP, for the cost of an unknown opcode; 0 if the table has no TRAP (DESIGN CHOICE,
notes/assumptions/1.md). -/
def Params.trapOpcode (P : Params) : Nat := (P.opcodeOf 0).getD 0

/-! ## The decoder -/

/-- Why the decoder rejects bytes. -/
inductive Reject where
  /-- The opcode byte has no row in the opcode map (R145). The step takes PANIC for it. -/
  | unknownOpcode (op : Nat)
  deriving DecidableEq, Repr

/-- Decodes the instruction at the head of `bs`, with `ℓ = l` (R118, R119, R128). Only an unknown opcode
is rejected. -/
def decodeBytes (P : Params) (bs : List Byte) (l : Nat) : Except Reject Instr :=
  match P.row (byteAt bs 0) with
  | none => .error (.unknownOpcode (byteAt bs 0))
  | some r => .ok (r.build (decodeArgs P r.shape bs l))

/-- Decodes the instruction at offset `pc` of a program (spec/40_step.md R163). -/
def Program.decodeAt (p : Program) (P : Params) (pc : Nat) : Except Reject Instr :=
  decodeBytes P (p.code.drop pc) (skip P p.mask pc)

/-- The `1 + MAX_SKIP` bytes of the longest instruction whose bits are `w`, numbered as spec/opcode_table.json numbers
them, and 0 above `nbits`. -/
def tableBytes (P : Params) (nbits w : Nat) : List Byte := leBytes (P.maxSkip + 1) (w % 2 ^ nbits)

/-- The instruction that the decoder, with the default parameters, reads from the bits `w` of a table row. -/
def decodeTableWord (nbits w : Nat) : Option Instr :=
  (decodeBytes .default (tableBytes .default nbits w) Params.default.maxSkip).toOption

/-! ## The encoder -/

/-- The byte of two nibbles (R122). -/
def nibbles (low high : Nat) : Byte := BitVec.ofNat 8 (low + 16 * high)

/-- The operand bytes of a shape (R131–R143), its first variable field in `lX` bytes and its second
in `lY`. -/
def encodeArgs (sh : Shape) (lX lY : Nat) (a : Args) : List Byte :=
  let immX := leBytes lX a.immX.toNat
  match sh with
  | .noArguments => []
  | .oneImmediate => immX
  | .oneRegisterOneExtendedImmediate => nibbles a.rA 0 :: leBytes 8 a.immX.toNat
  | .twoImmediates => nibbles lX 0 :: (immX ++ leBytes lY a.immY.toNat)
  | .oneOffset => leBytes lX (u64 a.off).toNat
  | .oneRegisterOneImmediate => nibbles a.rA 0 :: immX
  | .oneRegisterTwoImmediates => nibbles a.rA lX :: (immX ++ leBytes lY a.immY.toNat)
  | .oneRegisterOneImmediateOneOffset => nibbles a.rA lX :: (immX ++ leBytes lY (u64 a.off).toNat)
  | .twoRegisters => [nibbles a.rD a.rA]
  | .twoRegistersOneImmediate => nibbles a.rA a.rB :: immX
  | .twoRegistersOneOffset => nibbles a.rA a.rB :: leBytes lX (u64 a.off).toNat
  | .twoRegistersTwoImmediates =>
    nibbles a.rA a.rB :: nibbles lX 0 :: (immX ++ leBytes lY a.immY.toNat)
  | .threeRegisters => [nibbles a.rA a.rB, nibbles a.rD 0]

/-- The immediate is the sign extension of its low `n` bytes, `n ≤ MAX_IMM` (R123). -/
def immFits (P : Params) (n : Nat) (v : Word) : Bool := n ≤ P.maxImm && sext (8 * n) v.toNat == v

/-- The offset is the signed reading of `n` bytes, `n ≤ MAX_IMM` (R124; DESIGN CHOICE, notes/assumptions/24.md). -/
def offFits (P : Params) (n : Nat) (o : Int) : Bool := n ≤ P.maxImm && signedOf (8 * n) (u64 o).toNat == o

/-- The shape has the fields of the arguments, and the lengths `lX` and `lY` hold its variable fields. -/
def Args.fits (P : Params) (sh : Shape) (lX lY : Nat) (a : Args) : Bool :=
  a.restrict sh == a && match sh with
  | .noArguments | .oneRegisterOneExtendedImmediate | .twoRegisters | .threeRegisters => true
  | .oneImmediate | .oneRegisterOneImmediate | .twoRegistersOneImmediate => immFits P lX a.immX
  | .twoImmediates | .oneRegisterTwoImmediates | .twoRegistersTwoImmediates =>
    immFits P lX a.immX && immFits P lY a.immY
  | .oneOffset | .twoRegistersOneOffset => offFits P lX a.off
  | .oneRegisterOneImmediateOneOffset => immFits P lX a.immX && offFits P lY a.off

/-- The encoding of an instruction with a given opcode, shape and field lengths `lX` and `lY`. -/
def encodeAs (op : Nat) (sh : Shape) (lX lY : Nat) (i : Instr) : List Byte :=
  BitVec.ofNat 8 op :: encodeArgs sh lX lY i.args

/-- The least of the lengths 0 to `MAX_IMM` that `p` accepts. -/
def leastLen (P : Params) (p : Nat → Bool) : Nat := ((List.range P.maxImm).find? p).getD P.maxImm

/-- The shortest lengths that hold an instruction's variable fields (R149). -/
def Args.lens (P : Params) (sh : Shape) (a : Args) : Nat × Nat :=
  let x := leastLen P (immFits P · a.immX)
  let y := leastLen P (immFits P · a.immY)
  let o := leastLen P (offFits P · a.off)
  match sh with
  | .noArguments | .oneRegisterOneExtendedImmediate | .twoRegisters | .threeRegisters => (0, 0)
  | .oneImmediate | .oneRegisterOneImmediate | .twoRegistersOneImmediate => (x, 0)
  | .twoImmediates | .oneRegisterTwoImmediates | .twoRegistersTwoImmediates => (x, y)
  | .oneOffset | .twoRegistersOneOffset => (o, 0)
  | .oneRegisterOneImmediateOneOffset => (x, o)

/-- The opcode with which `OPCODE_TABLE` has an instruction, and the shape it gives it; the instruction's own where it
has none. -/
def Params.formOf (P : Params) (i : Instr) : Nat × Shape :=
  let op := (P.opcodeOf i.opcode).getD i.opcode
  (op, ((P.row op).map OpRow.shape).getD i.shape)

/-- The encoder has an encoding of the instruction: the table has it, with a shape that holds its operands. -/
def Params.encodes (P : Params) (i : Instr) : Bool :=
  (P.opcodeOf i.opcode).isSome && i.args.wf P (P.formOf i).2

/-- The encoder: the bytes of a well-formed instruction, with the shortest fields that hold its operands
(R149; notes/assumptions/8.md). -/
def encode (P : Params) (i : Instr) : List Byte :=
  let f := P.formOf i
  let n := i.args.lens P f.2
  encodeAs f.1 f.2 n.1 n.2 i

end Sys2Proof
end

