-- ==== Sys2Proof/Machine/Blocks.lean ====
section
/-! DEFINITION. Instruction boundaries, the basic-block start set, block gas costs and disassembly
(spec/10_state.md R38; spec/40_step.md R170–R172; spec/30_encoding.md R151). -/

namespace Sys2Proof.Machine

/-- `code*[i]` of a program, as a number (spec/00_scope.md R14). -/
def opcodeAt (p : Program) (i : Nat) : Nat := byteAt p.code i

/-- `pc` is an instruction boundary (spec/10_state.md R38; spec/40_step.md R162). -/
def atBoundary (p : Program) (pc : Nat) : Bool := decide (pc < p.code.length) && p.mask.getD pc false

/-- The terminating set `T`, by instruction number (R171). -/
def terminating (op : Nat) : Bool :=
  op == 0 || op == 1 || op == 40 || op == 50 || (80 ≤ op && op ≤ 90) || (170 ≤ op && op ≤ 175) ||
    op == 180

/-- The instruction of an opcode byte is in `T`. An unknown opcode is not (R170). In another opcode table than the default,
`T` goes by the semantic rule (DESIGN CHOICE, notes/assumptions/1.md). -/
def endsBlock (P : Params) (op : Nat) : Bool := (P.row op).any fun r => terminating r.op

/-- The instruction at `n` is a boundary, its encoded end is `q`, and it is in `T` (R170). -/
def terminatorEndsAt (P : Params) (p : Program) (q n : Nat) : Bool :=
  p.mask.getD n false && n + 1 + skip P p.mask n == q && endsBlock P (opcodeAt p n)

/-- `isBB(q)` for a code offset `q` (R170). An instruction that ends at `q` starts at most `MAX_SKIP + 1` bytes
before it (R125), so only those offsets are looked at. -/
def isBlockStart (P : Params) (p : Program) (q : Nat) : Bool :=
  q == 0 ||
    (atBoundary p q &&
      (List.range (P.maxSkip + 1)).any fun d => d < q && terminatorEndsAt P p q (q - 1 - d))

/-- `isBB(t)` for an unbounded integer target (R170, R175). -/
def isBB (P : Params) (p : Program) (t : Int) : Bool := decide (0 ≤ t) && isBlockStart P p t.toNat

/-- The gas cost of an opcode byte; an unknown opcode costs what TRAP costs (R164; 90_conflicts.md C1). -/
def opGas (P : Params) (op : Nat) : Nat :=
  if (P.row op).isSome then P.gasCost op else P.gasCost P.trapOpcode

/-- The cost of the block from offset `n` on, over at most `fuel` instructions (R172). -/
def blockCost (P : Params) (p : Program) : Nat → Nat → Nat
  | 0, _ => 0
  | fuel + 1, n =>
    let next := n + 1 + skip P p.mask n
    opGas P (opcodeAt p n) +
      (if endsBlock P (opcodeAt p n) || decide (p.code.length ≤ next) || isBlockStart P p next then 0
       else blockCost P p fuel next)

/-- `calculateBlockGasCost()`: each block start with its static cost, in ascending order (R172). -/
def blockGasCosts (P : Params) (p : Program) : List (Nat × Nat) :=
  ((List.range p.code.length).filter (isBlockStart P p)).map fun b => (b, blockCost P p p.code.length b)

/-- The mnemonic of an opcode byte; TRAP for an unknown opcode (spec/30_encoding.md R151). R151 speaks of R144's table only:
in another opcode table a byte has the mnemonic that R144 gives the semantic rule of its entry (DESIGN CHOICE,
notes/assumptions/1.md). -/
def mnemonicOf (P : Params) (op : Nat) : String := ((P.row op).map OpRow.mnemonic).getD "TRAP"

/-- `disassemble()`: one mnemonic per set mask bit, in ascending order (spec/30_encoding.md R151). -/
def disassembly (P : Params) (p : Program) : List String :=
  ((List.range p.code.length).filter (atBoundary p)).map fun i => mnemonicOf P (opcodeAt p i)

end Sys2Proof.Machine
end

