-- ==== Sys2Proof/Machine/Sparse.lean ====
section
/-! DEFINITION. Sparse maps from addresses (or page numbers) to values, as sorted lists in one canonical form:
keys strictly rising, and no entry equal to the value `d` that an unlisted key reads as. -/

namespace Sys2Proof.Machine

/-- The value at key `k`; `d` if `k` is not listed. -/
def sparseGet {α : Type} (d : α) : List (Nat × α) → Nat → α
  | [], _ => d
  | (k', v) :: t, k => if k = k' then v else sparseGet d t k

/-- The entry for a value: none for the default. -/
def sparseEntry {α : Type} [DecidableEq α] (d : α) (k : Nat) (v : α) : List (Nat × α) :=
  if v = d then [] else [(k, v)]

/-- Writes `v` at key `k`. Writing `d` removes the entry. -/
def sparseSet {α : Type} [DecidableEq α] (d : α) (k : Nat) (v : α) : List (Nat × α) → List (Nat × α)
  | [] => sparseEntry d k v
  | (k', v') :: t =>
    if k < k' then sparseEntry d k v ++ (k', v') :: t
    else if k = k' then sparseEntry d k v ++ t
    else (k', v') :: sparseSet d k v t

/-- The canonical form. -/
def sparseWf {α : Type} [DecidableEq α] (d : α) (m : List (Nat × α)) : Bool :=
  decide (m.Pairwise (fun a b => a.1 < b.1)) && m.all (fun e => e.2 ≠ d)

end Sys2Proof.Machine
end

