-- ==== Sys2Proof/Machine/State.lean ====
section
/-! DEFINITION. The state of one core (spec/10_state.md R30), the reasons a command can be turned away, and the
state right after reset (R54). -/

namespace Sys2Proof.Machine

/-- The six values of the status register (R40). -/
inductive Status where
  /-- OK: still running. -/
  | ok
  /-- HALT: the program finished normally. -/
  | halt
  /-- PANIC: invalid opcode, invalid jump target, explicit TRAP, invalid pc. -/
  | panic
  /-- FAULT: page fault; `exitParam` is the faulting address. -/
  | fault
  /-- HOST: suspended at a host call; `exitParam` is its index. -/
  | host
  /-- OOG: gas exhausted. -/
  | oog
  deriving DecidableEq, Repr

/-- The state of a page (spec/20_memory.md R72, R73). -/
inductive PageState where
  | unmapped
  | readable
  | writable
  deriving DecidableEq, Repr

/-- The memory unit: page table, page data and heap registers (R49; spec/20_memory.md R72).
`pages` lists the pages that are not Unmapped, by page number; `cells` the bytes that are not 0, by
address. The heap registers are addresses up to 2^32 (notes/assumptions/6.md). -/
structure Memory where
  pages : List (Nat × PageState)
  cells : List Host.Cell
  heapStart : Nat
  heapEnd : Nat
  heapPtr : Nat
  heapTop : Nat
  deriving DecidableEq, Repr

/-- The architectural state of one core (R30), with the parameters of the step (R31) beside it. -/
structure State where
  /-- The parameters of spec/00_scope.md R9: an argument of every step and command, and no state of the core (R31).
  The host's interface hands a step its state only, so they stand here. Nothing writes them (notes/assumptions/1.md). -/
  params : Params
  /-- 1 after a reset whose blob decoded (R50). -/
  loaded : Bool
  /-- `code`, `mask` and `jt` (R50). -/
  prog : Program
  /-- The program counter, an offset into `code` (R37). -/
  pc : BitVec 32
  /-- The register file (R32). -/
  x : Vector Word 13
  /-- The status register (R40). -/
  status : Status
  /-- The exit parameter, possibly empty (R42). -/
  exitParam : Option (BitVec 32)
  /-- The faulting access was a write (R43). -/
  faultIsWrite : Bool
  /-- The remaining gas (R44). -/
  gas : Nat
  /-- The gas given at the last reset (R44). -/
  initialGas : Nat
  /-- The memory unit (R49; spec/20_memory.md R72). -/
  mem : Memory
  deriving DecidableEq, Repr

/-- The one memory error value (spec/20_memory.md R76). Every exception of an instruction is a status, so no step
ends in a fault of the model (notes/assumptions/7.md). -/
inductive Fault where
  /-- `PageFault(address, isWrite)`: `address` is the first byte that fails the page check. Raised by the shared
  reads and writes of Ops; a load or store turns it into status FAULT, the host's memory port returns it (R90).
  Safe: the spec gives the same value. -/
  | pageFault (address : Addr) (isWrite : Bool)
  deriving DecidableEq, Repr

/-- What the spec refuses: behaviour with no meaning in any source (spec/93_implementation_defined.md, part 1).
All are safe: no claim about such a run can be proved. -/
inductive Refusal where
  /-- An instruction that has no meaning in this model. Raised by no arm. -/
  | notModelled (mnemonic : String)
  /-- A step, or a command other than reset, on an Unloaded core (spec/40_step.md R161;
  spec/70_reset_and_hazards.md R442). Raised by `step` and every host command but reset. -/
  | notLoaded
  /-- SBRK would grow the heap onto a page that is already mapped (spec/20_memory.md R89). Raised by SBRK. -/
  | sbrkOntoMappedPage
  /-- `resumeHost` with a status other than HOST (spec/60_exceptions.md R412). Raised by resume. -/
  | resumeNotSuspended
  /-- `getFaultIsWrite` with a status other than FAULT (spec/60_exceptions.md R406). Raised by that command. -/
  | faultIsWriteUnspecified
  /-- A register index above 12, or a place outside the 104-byte register buffer (spec/10_state.md R35, R36).
  Raised by the host's register commands. -/
  | registerIndex
  /-- `gas.set` outside `[0, GAS_MAX]` (spec/10_state.md R45). Raised by that command. -/
  | gasOutOfRange
  /-- A host memory access longer than 2^32 bytes (spec/20_memory.md R90). Raised by the memory port. -/
  | accessTooLong
  /-- Reset arguments out of range (spec/70_reset_and_hazards.md R440), or a memory that was not finalized (R446).
  Raised by reset. -/
  | resetArguments
  /-- A misuse of the memory builder (spec/70_reset_and_hazards.md R446). Raised by the builder. -/
  | builderMisuse
  deriving DecidableEq, Repr

/-- What executing an instruction answers. -/
abbrev Out := Host.Outcome State Fault Refusal

/-- The empty program: no code, no mask, no jump table (R54; spec/30_encoding.md R115). -/
def emptyProgram : Program := { code := [], mask := [], jt := [] }

/-- The memory of a reset that is given none: every page Unmapped, heap registers 0 (R54). -/
def Memory.empty : Memory :=
  { pages := [], cells := [], heapStart := 0, heapEnd := 0, heapPtr := 0, heapTop := 0 }

/-- The core with parameters `P` that was never reset: Unloaded (R54; spec/70_reset_and_hazards.md R442). Its other values are
unspecified, and every read of them is refused (notes/assumptions/5.md). -/
def State.unloaded (P : Params) : State :=
  { params := P, loaded := false, prog := emptyProgram, pc := 0, x := Vector.replicate 13 0, status := .ok,
    exitParam := none, faultIsWrite := false, gas := 0, initialGas := 0, mem := Memory.empty }

/-- The core with parameters `P` right after reset (R54, first column; spec/70_reset_and_hazards.md R441): the reset
command with `regs` and `mem` omitted. Its arguments `blob`, `pc0` and `gas0` are the empty program, 0 and 0
(DESIGN CHOICE, notes/assumptions/2.md); `faultIsWrite` is unspecified (DESIGN CHOICE 0, 3.md). -/
def State.resetWith (P : Params) : State :=
  { params := P, loaded := true, prog := emptyProgram, pc := 0, x := Vector.replicate 13 0, status := .ok,
    exitParam := none, faultIsWrite := false, gas := 0, initialGas := 0, mem := Memory.empty }

/-- The machine right after reset, with the default parameters (spec/00_scope.md R9). -/
def State.reset : State := State.resetWith .default

end Sys2Proof.Machine
end

