-- ==== Sys2Proof/Machine/Ops.lean ====
section
/-! DEFINITION. The operations over registers, memory, heap, gas and control flow, and the taking of an
exception and the return from one. Every instruction is written over them. -/

namespace Sys2Proof.Machine

/-! ## Registers (spec/10_state.md R32, R40) -/

/-- `x[i]` (spec/00_scope.md R12). -/
def State.reg (s : State) (r : Reg) : Word := s.x[r.val]

/-- `x[i] <- v` (spec/00_scope.md R12). -/
def State.setReg (s : State) (r : Reg) (v : Word) : State := { s with x := s.x.set r.val v }

/-- The 8-bit code of a status (R40). -/
def Status.code : Status → Byte
  | .halt => 0
  | .panic => 1
  | .fault => 2
  | .host => 3
  | .oog => 4
  | .ok => 255

/-! ## Data memory (spec/20_memory.md R70–R81) -/

/-- `a_i = (addr + i) mod 2^32` (R74). -/
def accessAddr (addr : Addr) (i : Nat) : Nat := (addr.toNat + i) % Config.addrSpace

/-- The addresses that an access of `n` bytes touches, in order (R74). -/
def accessAddrs (addr : Addr) (n : Nat) : List Nat := (List.range n).map (accessAddr addr)

/-- The state of page `p` (R72). -/
def Memory.pageState (m : Memory) (p : Nat) : PageState := sparseGet .unmapped m.pages p

/-- The data byte at address `a`; an untouched byte reads 0 (R72; notes/assumptions/4.md). -/
def Memory.byte (m : Memory) (a : Nat) : Byte := sparseGet 0 m.cells a

/-- The byte at `a` is readable (R73). -/
def Memory.canRead (m : Memory) (a : Nat) : Bool := m.pageState (a / Config.pageSize) != .unmapped

/-- The byte at `a` is writable (R73). -/
def Memory.canWrite (m : Memory) (a : Nat) : Bool := m.pageState (a / Config.pageSize) == .writable

/-- The first address of an access that fails its check (R75, R76). -/
def firstFailing (ok : Nat → Bool) (addr : Addr) (n : Nat) : Option Nat :=
  (accessAddrs addr n).find? fun a => !ok a

/-- The bytes of a read of `n` bytes, or its page fault (R80, R90). -/
def Memory.readBytes (m : Memory) (addr : Addr) (n : Nat) : Except Fault (List Byte) :=
  match firstFailing m.canRead addr n with
  | some a => .error (.pageFault (BitVec.ofNat 32 a) false)
  | none => .ok ((accessAddrs addr n).map m.byte)

/-- `MemRead(addr, n)`: the little-endian value, or a page fault (R77, R80). -/
def Memory.read (m : Memory) (addr : Addr) (n : Nat) : Except Fault Nat :=
  match m.readBytes addr n with
  | .error f => .error f
  | .ok bs => .ok (leNat bs)

/-- Stores one byte. -/
def Memory.setByte (m : Memory) (a : Nat) (b : Byte) : Memory :=
  { m with cells := sparseSet 0 a b m.cells }

/-- Stores a list of bytes, each at its address, in order. -/
def Memory.setBytes (m : Memory) : List (Nat × Byte) → Memory
  | [] => m
  | e :: es => (m.setByte e.1 e.2).setBytes es

/-- A write of bytes from `addr` on: all of them, or none and a page fault (R81, R90). -/
def Memory.writeBytes (m : Memory) (addr : Addr) (bs : List Byte) : Except Fault Memory :=
  match firstFailing m.canWrite addr bs.length with
  | some a => .error (.pageFault (BitVec.ofNat 32 a) true)
  | none => .ok (m.setBytes ((accessAddrs addr bs.length).zip bs))

/-- `MemWrite(addr, n, v)`: the `n` low bytes of `v`, little-endian (R77, R81). -/
def Memory.write (m : Memory) (addr : Addr) (n v : Nat) : Except Fault Memory :=
  m.writeBytes addr (leBytes n v)

/-! ## Pages and the heap (spec/20_memory.md R86–R89) -/

/-- `alignUp(a, PAGE_SIZE)` (R87). -/
def alignUp (a : Nat) : Nat :=
  (a + (Config.pageSize - 1)) / Config.pageSize * Config.pageSize

/-- Some page of the `count` pages from `p` on is mapped (R87, R89). -/
def Memory.anyMapped (m : Memory) (p : Nat) : Nat → Bool
  | 0 => false
  | count + 1 => m.pageState p != .unmapped || m.anyMapped (p + 1) count

/-- Sets the state of the `count` pages from `p` on. -/
def Memory.setPages (m : Memory) (st : PageState) (p : Nat) : Nat → Memory
  | 0 => m
  | count + 1 =>
    { m with pages := sparseSet .unmapped p st m.pages }.setPages st (p + 1) count

/-- Makes the data bytes of the `count` pages from `p` on zero (R87). -/
def Memory.zeroPages (m : Memory) (p count : Nat) : Memory :=
  { m with cells := m.cells.filter fun e =>
      decide (e.1 / Config.pageSize < p) || decide (p + count ≤ e.1 / Config.pageSize) }

/-- Maps the `count` pages from `p` on with state `st` and zero bytes. -/
def Memory.mapPages (m : Memory) (st : PageState) (p count : Nat) : Memory :=
  (m.setPages st p count).zeroPages p count

/-- What the memory unit's heap growth answers (R87). -/
inductive SbrkAnswer where
  /-- Growth would pass `HEAP_LIMIT`; no state changes (R88). -/
  | fail
  /-- Growth onto a mapped page, which the spec refuses (R89). -/
  | refuse
  /-- The previous heap pointer and the grown memory. -/
  | grown (old : Nat) (m : Memory)
  deriving DecidableEq, Repr

/-- `Sbrk(n)` with `HEAP_LIMIT = limit` (R87, R88). -/
def Memory.sbrk (m : Memory) (limit n : Nat) : SbrkAnswer :=
  let new := m.heapPtr + n
  let newTop := alignUp new
  let first := m.heapTop / Config.pageSize
  let count := newTop / Config.pageSize - first
  if new > limit then .fail
  else if m.anyMapped first count then .refuse
  else .grown m.heapPtr
    { m.mapPages .writable first count with heapPtr := new, heapTop := max m.heapTop newTop }

/-! ## Gas (spec/10_state.md R46, R47) -/

/-- `sub(c)`: the saturating subtraction, and whether it underflowed (R46). -/
def State.subGas (s : State) (c : Nat) : State × Bool :=
  if c > s.gas then ({ s with gas := 0 }, true) else ({ s with gas := s.gas - c }, false)

/-- `used() = max(0, initialGas − gas)` (R47). -/
def State.usedGas (s : State) : Nat := s.initialGas - s.gas

/-! ## Exceptions (spec/40_step.md R164, R167; spec/60_exceptions.md R400–R412) -/

/-- `pc + 1 + ℓ`: the offset after the current instruction (R177). -/
def State.nextPC (s : State) : BitVec 32 :=
  BitVec.ofNat 32 (s.pc.toNat + 1 + skip s.params s.prog.mask s.pc.toNat)

/-- What a step can raise (spec/60_exceptions.md R400). -/
inductive Cause where
  | halt
  | panic
  | fault (address : Addr) (isWrite : Bool)
  | host (index : BitVec 32)
  | oog
  deriving DecidableEq, Repr

/-- Taking an exception: the commit of R167, and of R164 for OOG. It writes the status and the exit record,
advances the pc for HOST only, and has no vector, saved state or mode (spec/60_exceptions.md R410). -/
def takeException (c : Cause) (s : State) : State :=
  match c with
  | .halt => { s with status := .halt, exitParam := none }
  | .panic => { s with status := .panic, exitParam := none }
  | .fault a w => { s with status := .fault, exitParam := some a, faultIsWrite := w }
  | .host i => { s with status := .host, pc := s.nextPC, exitParam := some i }
  | .oog => { s with status := .oog }

/-- Taking the FAULT of a page fault (R167; spec/60_exceptions.md R402). -/
def takePageFault (f : Fault) (s : State) : State :=
  match f with
  | .pageFault a w => takeException (.fault a w) s

/-- `resumeHost()`: the only return from an exception (spec/60_exceptions.md R412). -/
def resumeHost (s : State) : Out :=
  if !s.loaded then .refused .notLoaded
  else if s.status ≠ .host then .refused .resumeNotSuspended
  else .next { s with status := .ok, exitParam := none }

/-! ## Control flow (spec/40_step.md R167, R175–R177) -/

/-- The commit of an instruction that raised nothing, with `nextPC = npc` (R167). -/
def State.commit (s : State) (npc : BitVec 32) : State :=
  { s with status := .ok, pc := npc, exitParam := none }

/-- The commit with the default `nextPC` (R167, R177). -/
def State.advance (s : State) : State := s.commit s.nextPC

/-- The target of an offset: `pc + off`, an unbounded integer (spec/30_encoding.md R124). -/
def State.target (s : State) (off : Int) : Int := (s.pc.toNat : Int) + off

/-- `branch(target, cond)` and the commit (R175). -/
def branch (target : Int) (cond : Bool) (s : State) : State :=
  if !cond then s.advance
  else if !isBB s.params s.prog target then takeException .panic s
  else s.commit (BitVec.ofInt 32 target)

/-- `jt.hasIndex(i)` (spec/30_encoding.md R114). -/
def hasIndex (jt : List (BitVec 32)) (i : Nat) : Bool := i < jt.length

/-- `jt.getDestination(i)` (spec/30_encoding.md R114). -/
def getDestination (jt : List (BitVec 32)) (i : Nat) : BitVec 32 := jt.getD i 0

/-- The jump-table index of a dynamic address (R176). -/
def jumpIndex (P : Params) (a : Addr) : Nat := a.toNat / P.jumpAlign - 1

/-- `djump(a)` and the commit (R176). With `JUMP_ALIGN = 0` no address is aligned, so every one but `HALT_ADDRESS`
panics: the spec does not say what `mod 0` is (DESIGN CHOICE, notes/assumptions/23.md). -/
def djump (a : Addr) (s : State) : State :=
  if a = s.params.haltAddress then takeException .halt s
  else if a = 0 ∨ a.toNat % s.params.jumpAlign ≠ 0 then takeException .panic s
  else if !hasIndex s.prog.jt (jumpIndex s.params a) then takeException .panic s
  else
    let t := getDestination s.prog.jt (jumpIndex s.params a)
    if !isBB s.params s.prog t.toNat then takeException .panic s
    else s.commit t

/-! ## Shapes of execution -/

/-- Writes a result to `rd` and goes on to the next instruction. -/
def writeResult (rd : Reg) (v : Word) (s : State) : Out := .next (s.setReg rd v).advance

/-- A load of `n` bytes into `rd`, extended by `ext`; FAULT leaves `rd` unchanged
(spec/43_load.md; spec/20_memory.md R80). -/
def loadInto (n : Nat) (ext : Nat → Word) (rd : Reg) (addr : Addr) (s : State) : Out :=
  match s.mem.read addr n with
  | .error f => .next (takePageFault f s)
  | .ok v => writeResult rd (ext v) s

/-- A store of the `n` low bytes of `v` (spec/44_store.md; spec/20_memory.md R81). -/
def storeAt (n : Nat) (addr : Addr) (v : Word) (s : State) : Out :=
  match s.mem.write addr n v.toNat with
  | .error f => .next (takePageFault f s)
  | .ok m => .next { s with mem := m }.advance

end Sys2Proof.Machine
end

