-- ==== Sys2Proof/Machine/Operands.lean ====
section
/-! DEFINITION. The operand forms of the instructions: effective addresses, and the register and immediate
operands of the computing instructions (spec/20_memory.md R79; spec/30_encoding.md R131–R143). -/

namespace Sys2Proof.Machine

/-- The address of a direct load or store: `imm mod 2^32` (R79). -/
def absAddr (imm : Word) : Addr := imm.setWidth 32

/-- The address of an indirect access or dynamic jump: `(x[r] + imm) mod 2^32` (R79). -/
def State.indAddr (s : State) (r : Reg) (imm : Word) : Addr := (s.reg r + imm).setWidth 32

/-- TwoRegisters: `x[rD] <- f(x[rA])` (R139). -/
def unary (f : Word → Word) (rA rD : Reg) (s : State) : Out := writeResult rD (f (s.reg rA)) s

/-- TwoRegistersOneImmediate: `x[rA] <- f(x[rB], immX)` (R140). -/
def binaryImm (f : Word → Word → Word) (rA rB : Reg) (immX : Word) (s : State) : Out :=
  writeResult rA (f (s.reg rB) immX) s

/-- ThreeRegisters: `x[rD] <- f(x[rA], x[rB])` (R143). -/
def binary (f : Word → Word → Word) (rA rB rD : Reg) (s : State) : Out :=
  writeResult rD (f (s.reg rA) (s.reg rB)) s

end Sys2Proof.Machine
end

