-- ==== Sys2Proof/Machine/Bit.lean ====
section
/-! DEFINITION. The meanings of the bit instructions: counts, extensions, byte reversal, logic (spec/45_bit.md). -/

namespace Sys2Proof.Machine

/-- The number of 1 bits among the `n` low bits of `v` (R280). -/
def popcount : Nat → Nat → Nat
  | 0, _ => 0
  | n + 1, v => v % 2 + popcount n (v / 2)

/-- `clz`: the 0 bits above the highest 1 bit of the `n`-bit value `v`; `n` when `v = 0` (R280). -/
def clz : Nat → Nat → Nat
  | 0, _ => 0
  | n + 1, v => if v.testBit n then 0 else clz n v + 1

/-- `ctz`: the 0 bits below the lowest 1 bit of the `n`-bit value `v`; `n` when `v = 0` (R280). -/
def ctz : Nat → Nat → Nat
  | 0, _ => 0
  | n + 1, v => if v.testBit 0 then 0 else ctz n (v / 2) + 1

/-- R281. -/
def Val.countSetBits64 (a : Word) : Word := BitVec.ofNat 64 (popcount 64 a.toNat)
/-- R282. -/
def Val.countSetBits32 (a : Word) : Word := BitVec.ofNat 64 (popcount 32 (low32 a).toNat)
/-- R283. -/
def Val.leadingZeroBits64 (a : Word) : Word := BitVec.ofNat 64 (clz 64 a.toNat)
/-- R284. -/
def Val.leadingZeroBits32 (a : Word) : Word := BitVec.ofNat 64 (clz 32 (low32 a).toNat)
/-- R285. -/
def Val.trailingZeroBits64 (a : Word) : Word := BitVec.ofNat 64 (ctz 64 a.toNat)
/-- R286. -/
def Val.trailingZeroBits32 (a : Word) : Word := BitVec.ofNat 64 (ctz 32 (low32 a).toNat)
/-- `sext_8` (R287). -/
def Val.signExtend8 (a : Word) : Word := (a.setWidth 8).signExtend 64
/-- `sext_16` (R288). -/
def Val.signExtend16 (a : Word) : Word := (a.setWidth 16).signExtend 64
/-- `mod 2^16` (R289). -/
def Val.zeroExtend16 (a : Word) : Word := (a.setWidth 16).setWidth 64
/-- `byte_reverse_64` (R280, R290). -/
def Val.reverseBytes (a : Word) : Word := BitVec.ofNat 64 (leNat (leBytes 8 a.toNat).reverse)
/-- R291, R294. -/
def Val.and (a b : Word) : Word := a &&& b
/-- R292, R295. -/
def Val.xor (a b : Word) : Word := a ^^^ b
/-- R293, R296. -/
def Val.or (a b : Word) : Word := a ||| b
/-- R297. -/
def Val.andInv (a b : Word) : Word := a &&& ~~~b
/-- R298. -/
def Val.orInv (a b : Word) : Word := a ||| ~~~b
/-- R299. -/
def Val.xnor (a b : Word) : Word := ~~~(a ^^^ b)

/-- `COUNT_SET_BITS_64`: population count, 64-bit (R281). -/
def execCountSetBits64 (rA rD : Reg) (s : State) : Out := unary Val.countSetBits64 rA rD s

/-- `COUNT_SET_BITS_32`: population count, low 32 bits (R282). -/
def execCountSetBits32 (rA rD : Reg) (s : State) : Out := unary Val.countSetBits32 rA rD s

/-- `LEADING_ZERO_BITS_64`: count leading zeros, 64-bit (R283). -/
def execLeadingZeroBits64 (rA rD : Reg) (s : State) : Out := unary Val.leadingZeroBits64 rA rD s

/-- `LEADING_ZERO_BITS_32`: count leading zeros, low 32 bits (R284). -/
def execLeadingZeroBits32 (rA rD : Reg) (s : State) : Out := unary Val.leadingZeroBits32 rA rD s

/-- `TRAILING_ZERO_BITS_64`: count trailing zeros, 64-bit (R285). -/
def execTrailingZeroBits64 (rA rD : Reg) (s : State) : Out := unary Val.trailingZeroBits64 rA rD s

/-- `TRAILING_ZERO_BITS_32`: count trailing zeros, low 32 bits (R286). -/
def execTrailingZeroBits32 (rA rD : Reg) (s : State) : Out := unary Val.trailingZeroBits32 rA rD s

/-- `SIGN_EXTEND_8`: sign-extend byte (R287). -/
def execSignExtend8 (rA rD : Reg) (s : State) : Out := unary Val.signExtend8 rA rD s

/-- `SIGN_EXTEND_16`: sign-extend halfword (R288). -/
def execSignExtend16 (rA rD : Reg) (s : State) : Out := unary Val.signExtend16 rA rD s

/-- `ZERO_EXTEND_16`: zero-extend halfword (R289). -/
def execZeroExtend16 (rA rD : Reg) (s : State) : Out := unary Val.zeroExtend16 rA rD s

/-- `REVERSE_BYTES`: reverse the 8 bytes (R290). -/
def execReverseBytes (rA rD : Reg) (s : State) : Out := unary Val.reverseBytes rA rD s

/-- `AND_IMM`: bitwise AND with immediate (R291). -/
def execAndImm (rA rB : Reg) (immX : Word) (s : State) : Out := binaryImm Val.and rA rB immX s

/-- `XOR_IMM`: bitwise XOR with immediate (R292). -/
def execXorImm (rA rB : Reg) (immX : Word) (s : State) : Out := binaryImm Val.xor rA rB immX s

/-- `OR_IMM`: bitwise OR with immediate (R293). -/
def execOrImm (rA rB : Reg) (immX : Word) (s : State) : Out := binaryImm Val.or rA rB immX s

/-- `AND`: bitwise AND (R294). -/
def execAndReg (rA rB rD : Reg) (s : State) : Out := binary Val.and rA rB rD s

/-- `XOR`: bitwise XOR (R295). -/
def execXorReg (rA rB rD : Reg) (s : State) : Out := binary Val.xor rA rB rD s

/-- `OR`: bitwise OR (R296). -/
def execOrReg (rA rB rD : Reg) (s : State) : Out := binary Val.or rA rB rD s

/-- `AND_INV`: AND with complement (R297). -/
def execAndInv (rA rB rD : Reg) (s : State) : Out := binary Val.andInv rA rB rD s

/-- `OR_INV`: OR with complement (R298). -/
def execOrInv (rA rB rD : Reg) (s : State) : Out := binary Val.orInv rA rB rD s

/-- `XNOR`: exclusive NOR (R299). -/
def execXnor (rA rB rD : Reg) (s : State) : Out := binary Val.xnor rA rB rD s

end Sys2Proof.Machine
end

