-- ==== Sys2Proof/Machine/Branch.lean ====
section
/-! DEFINITION. The meanings of the jumps and branches (spec/42_branch.md). -/

namespace Sys2Proof.Machine

/-- `JUMP`: unconditional static jump (R210). -/
def execJump (off : Int) (s : State) : Out := .next (branch (s.target off) true s)

/-- `JUMP_IND`: dynamic jump through the jump table (R211). -/
def execJumpInd (rA : Reg) (immX : Word) (s : State) : Out := .next (djump (s.indAddr rA immX) s)

/-- `LOAD_IMM_JUMP`: load immediate and jump (R212). -/
def execLoadImmJump (rA : Reg) (immX : Word) (off : Int) (s : State) : Out :=
  .next (branch (s.target off) true (s.setReg rA immX))

/-- `BRANCH_EQ_IMM`: branch if x[rA] = immX (equality compare with immediate) (R213). -/
def execBranchEqImm (rA : Reg) (immX : Word) (off : Int) (s : State) : Out :=
  .next (branch (s.target off) (s.reg rA == immX) s)

/-- `BRANCH_NE_IMM`: branch if x[rA] != immX (equality compare with immediate) (R214). -/
def execBranchNeImm (rA : Reg) (immX : Word) (off : Int) (s : State) : Out :=
  .next (branch (s.target off) (s.reg rA != immX) s)

/-- `BRANCH_LT_U_IMM`: branch if x[rA] < immX (unsigned compare with immediate) (R215). -/
def execBranchLtUImm (rA : Reg) (immX : Word) (off : Int) (s : State) : Out :=
  .next (branch (s.target off) (ltU (s.reg rA) immX) s)

/-- `BRANCH_LE_U_IMM`: branch if x[rA] <= immX (unsigned compare with immediate) (R216). -/
def execBranchLeUImm (rA : Reg) (immX : Word) (off : Int) (s : State) : Out :=
  .next (branch (s.target off) (leU (s.reg rA) immX) s)

/-- `BRANCH_GE_U_IMM`: branch if x[rA] >= immX (unsigned compare with immediate) (R217). -/
def execBranchGeUImm (rA : Reg) (immX : Word) (off : Int) (s : State) : Out :=
  .next (branch (s.target off) (leU immX (s.reg rA)) s)

/-- `BRANCH_GT_U_IMM`: branch if x[rA] > immX (unsigned compare with immediate) (R218). -/
def execBranchGtUImm (rA : Reg) (immX : Word) (off : Int) (s : State) : Out :=
  .next (branch (s.target off) (ltU immX (s.reg rA)) s)

/-- `BRANCH_LT_S_IMM`: branch if s64(x[rA]) < s64(immX) (signed compare with immediate) (R219). -/
def execBranchLtSImm (rA : Reg) (immX : Word) (off : Int) (s : State) : Out :=
  .next (branch (s.target off) (ltS (s.reg rA) immX) s)

/-- `BRANCH_LE_S_IMM`: branch if s64(x[rA]) <= s64(immX) (signed compare with immediate) (R220). -/
def execBranchLeSImm (rA : Reg) (immX : Word) (off : Int) (s : State) : Out :=
  .next (branch (s.target off) (leS (s.reg rA) immX) s)

/-- `BRANCH_GE_S_IMM`: branch if s64(x[rA]) >= s64(immX) (signed compare with immediate) (R221). -/
def execBranchGeSImm (rA : Reg) (immX : Word) (off : Int) (s : State) : Out :=
  .next (branch (s.target off) (leS immX (s.reg rA)) s)

/-- `BRANCH_GT_S_IMM`: branch if s64(x[rA]) > s64(immX) (signed compare with immediate) (R222). -/
def execBranchGtSImm (rA : Reg) (immX : Word) (off : Int) (s : State) : Out :=
  .next (branch (s.target off) (ltS immX (s.reg rA)) s)

/-- `BRANCH_EQ`: branch if x[rA] = x[rB] (equality register compare) (R223). -/
def execBranchEq (rA rB : Reg) (off : Int) (s : State) : Out :=
  .next (branch (s.target off) (s.reg rA == s.reg rB) s)

/-- `BRANCH_NE`: branch if x[rA] != x[rB] (equality register compare) (R224). -/
def execBranchNe (rA rB : Reg) (off : Int) (s : State) : Out :=
  .next (branch (s.target off) (s.reg rA != s.reg rB) s)

/-- `BRANCH_LT_U`: branch if x[rA] < x[rB] (unsigned register compare) (R225). -/
def execBranchLtU (rA rB : Reg) (off : Int) (s : State) : Out :=
  .next (branch (s.target off) (ltU (s.reg rA) (s.reg rB)) s)

/-- `BRANCH_LT_S`: branch if s64(x[rA]) < s64(x[rB]) (signed register compare) (R226). -/
def execBranchLtS (rA rB : Reg) (off : Int) (s : State) : Out :=
  .next (branch (s.target off) (ltS (s.reg rA) (s.reg rB)) s)

/-- `BRANCH_GE_U`: branch if x[rA] >= x[rB] (unsigned register compare) (R227). -/
def execBranchGeU (rA rB : Reg) (off : Int) (s : State) : Out :=
  .next (branch (s.target off) (leU (s.reg rB) (s.reg rA)) s)

/-- `BRANCH_GE_S`: branch if s64(x[rA]) >= s64(x[rB]) (signed register compare) (R228). -/
def execBranchGeS (rA rB : Reg) (off : Int) (s : State) : Out :=
  .next (branch (s.target off) (leS (s.reg rB) (s.reg rA)) s)

/-- `LOAD_IMM_JUMP_IND`: load immediate and dynamic jump (R229). -/
def execLoadImmJumpInd (rA rB : Reg) (immX immY : Word) (s : State) : Out :=
  .next (djump (s.indAddr rB immY) (s.setReg rA immX))

end Sys2Proof.Machine
end

