-- ==== Sys2Proof/Machine/Load.lean ====
section
/-! DEFINITION. The meanings of the immediate loads and the memory loads (spec/43_load.md). -/

namespace Sys2Proof.Machine

/-- `LOAD_IMM_64`: load 64-bit immediate (R240). -/
def execLoadImm64 (rA : Reg) (immX : Word) (s : State) : Out := writeResult rA immX s

/-- `LOAD_IMM`: load sign-extended immediate (R241). -/
def execLoadImm (rA : Reg) (immX : Word) (s : State) : Out := writeResult rA immX s

/-- `LOAD_U8`: load unsigned 8-bit from absolute address (R242). -/
def execLoadU8 (rA : Reg) (immX : Word) (s : State) : Out :=
  loadInto 1 (BitVec.ofNat 64) rA (absAddr immX) s

/-- `LOAD_I8`: load signed 8-bit from absolute address (R243). -/
def execLoadI8 (rA : Reg) (immX : Word) (s : State) : Out :=
  loadInto 1 (sext 8) rA (absAddr immX) s

/-- `LOAD_U16`: load unsigned 16-bit from absolute address (R244). -/
def execLoadU16 (rA : Reg) (immX : Word) (s : State) : Out :=
  loadInto 2 (BitVec.ofNat 64) rA (absAddr immX) s

/-- `LOAD_I16`: load signed 16-bit from absolute address (R245). -/
def execLoadI16 (rA : Reg) (immX : Word) (s : State) : Out :=
  loadInto 2 (sext 16) rA (absAddr immX) s

/-- `LOAD_U32`: load unsigned 32-bit from absolute address (R246). -/
def execLoadU32 (rA : Reg) (immX : Word) (s : State) : Out :=
  loadInto 4 (BitVec.ofNat 64) rA (absAddr immX) s

/-- `LOAD_I32`: load signed 32-bit from absolute address (R247). -/
def execLoadI32 (rA : Reg) (immX : Word) (s : State) : Out :=
  loadInto 4 (sext 32) rA (absAddr immX) s

/-- `LOAD_U64`: load unsigned 64-bit from absolute address (R248). -/
def execLoadU64 (rA : Reg) (immX : Word) (s : State) : Out :=
  loadInto 8 (BitVec.ofNat 64) rA (absAddr immX) s

/-- `LOAD_IND_U8`: load unsigned 8-bit from register + offset (R249). -/
def execLoadIndU8 (rA rB : Reg) (immX : Word) (s : State) : Out :=
  loadInto 1 (BitVec.ofNat 64) rA (s.indAddr rB immX) s

/-- `LOAD_IND_I8`: load signed 8-bit from register + offset (R250). -/
def execLoadIndI8 (rA rB : Reg) (immX : Word) (s : State) : Out :=
  loadInto 1 (sext 8) rA (s.indAddr rB immX) s

/-- `LOAD_IND_U16`: load unsigned 16-bit from register + offset (R251). -/
def execLoadIndU16 (rA rB : Reg) (immX : Word) (s : State) : Out :=
  loadInto 2 (BitVec.ofNat 64) rA (s.indAddr rB immX) s

/-- `LOAD_IND_I16`: load signed 16-bit from register + offset (R252). -/
def execLoadIndI16 (rA rB : Reg) (immX : Word) (s : State) : Out :=
  loadInto 2 (sext 16) rA (s.indAddr rB immX) s

/-- `LOAD_IND_U32`: load unsigned 32-bit from register + offset (R253). -/
def execLoadIndU32 (rA rB : Reg) (immX : Word) (s : State) : Out :=
  loadInto 4 (BitVec.ofNat 64) rA (s.indAddr rB immX) s

/-- `LOAD_IND_I32`: load signed 32-bit from register + offset (R254). -/
def execLoadIndI32 (rA rB : Reg) (immX : Word) (s : State) : Out :=
  loadInto 4 (sext 32) rA (s.indAddr rB immX) s

/-- `LOAD_IND_U64`: load unsigned 64-bit from register + offset (R255). -/
def execLoadIndU64 (rA rB : Reg) (immX : Word) (s : State) : Out :=
  loadInto 8 (BitVec.ofNat 64) rA (s.indAddr rB immX) s

end Sys2Proof.Machine
end

