-- ==== Sys2Proof/Machine/Math.lean ====
section
/-! DEFINITION. The meanings of arithmetic, comparison, minimum and maximum (spec/47_math.md). -/

namespace Sys2Proof.Machine

/-- `sext_32((a + b) mod 2^32)` (R321, R331). -/
def Val.add32 (a b : Word) : Word := sext32 (low32 a + low32 b)
/-- R332. -/
def Val.sub32 (a b : Word) : Word := sext32 (low32 a - low32 b)
/-- R322, R333. -/
def Val.mul32 (a b : Word) : Word := sext32 (low32 a * low32 b)
/-- `b − a`, with `b` the immediate (R325). -/
def Val.negAdd32 (a b : Word) : Word := sext32 (low32 b - low32 a)
/-- R328, R338. -/
def Val.add64 (a b : Word) : Word := a + b
/-- R339. -/
def Val.sub64 (a b : Word) : Word := a - b
/-- R329, R340. -/
def Val.mul64 (a b : Word) : Word := a * b
/-- `b − a`, with `b` the immediate (R330). -/
def Val.negAdd64 (a b : Word) : Word := b - a
/-- Division by 0 gives all ones (R334). -/
def Val.divU32 (a b : Word) : Word :=
  if low32 b = 0 then BitVec.allOnes 64 else sext32 (low32 a / low32 b)
/-- Rounds toward 0; division by 0 gives all ones, and `−2^31 / −1` gives `−2^31` (R335). -/
def Val.divS32 (a b : Word) : Word :=
  if low32 b = 0 then BitVec.allOnes 64 else sext32 ((low32 a).sdiv (low32 b))
/-- The remainder by 0 is the dividend (R336). -/
def Val.remU32 (a b : Word) : Word :=
  if low32 b = 0 then sext32 (low32 a) else sext32 (low32 a % low32 b)
/-- The remainder of `divS32`, with the sign of `a`; by 0 it is the dividend (R337). -/
def Val.remS32 (a b : Word) : Word :=
  if low32 b = 0 then sext32 (low32 a) else sext32 ((low32 a).srem (low32 b))
/-- Division by 0 gives all ones (R341). -/
def Val.divU64 (a b : Word) : Word := if b = 0 then BitVec.allOnes 64 else a / b
/-- Rounds toward 0; division by 0 gives all ones, and `−2^63 / −1` gives `−2^63` (R342). -/
def Val.divS64 (a b : Word) : Word := if b = 0 then BitVec.allOnes 64 else a.sdiv b
/-- The remainder by 0 is the dividend (R343). -/
def Val.remU64 (a b : Word) : Word := if b = 0 then a else a % b
/-- The remainder of `divS64`, with the sign of `a`; by 0 it is the dividend (R344). -/
def Val.remS64 (a b : Word) : Word := if b = 0 then a else a.srem b
/-- The upper 64 bits of a 128-bit product. -/
def upper64 (p : BitVec 128) : Word := (p >>> 64).setWidth 64
/-- R345. -/
def Val.mulUpperSS (a b : Word) : Word := upper64 (a.signExtend 128 * b.signExtend 128)
/-- R346. -/
def Val.mulUpperUU (a b : Word) : Word := upper64 (a.setWidth 128 * b.setWidth 128)
/-- R347. -/
def Val.mulUpperSU (a b : Word) : Word := upper64 (a.signExtend 128 * b.setWidth 128)
/-- R323, R348. -/
def Val.setLtU (a b : Word) : Word := ofCond (ltU a b)
/-- R324, R349. -/
def Val.setLtS (a b : Word) : Word := ofCond (ltS a b)
/-- R326. -/
def Val.setGtU (a b : Word) : Word := ofCond (ltU b a)
/-- R327. -/
def Val.setGtS (a b : Word) : Word := ofCond (ltS b a)
/-- R350. -/
def Val.maxS (a b : Word) : Word := if ltS a b then b else a
/-- R351. -/
def Val.maxU (a b : Word) : Word := if ltU a b then b else a
/-- R352. -/
def Val.minS (a b : Word) : Word := if ltS b a then b else a
/-- R353. -/
def Val.minU (a b : Word) : Word := if ltU b a then b else a

/-- `ADD_IMM_32`: add immediate, 32-bit (R321). -/
def execAddImm32 (rA rB : Reg) (immX : Word) (s : State) : Out := binaryImm Val.add32 rA rB immX s

/-- `MUL_IMM_32`: multiply by immediate, 32-bit (R322). -/
def execMulImm32 (rA rB : Reg) (immX : Word) (s : State) : Out := binaryImm Val.mul32 rA rB immX s

/-- `SET_LT_U_IMM`: set if less than immediate, unsigned (R323). -/
def execSetLtUImm (rA rB : Reg) (immX : Word) (s : State) : Out :=
  binaryImm Val.setLtU rA rB immX s

/-- `SET_LT_S_IMM`: set if less than immediate, signed (R324). -/
def execSetLtSImm (rA rB : Reg) (immX : Word) (s : State) : Out :=
  binaryImm Val.setLtS rA rB immX s

/-- `NEG_ADD_IMM_32`: immediate minus register, 32-bit (R325). -/
def execNegAddImm32 (rA rB : Reg) (immX : Word) (s : State) : Out :=
  binaryImm Val.negAdd32 rA rB immX s

/-- `SET_GT_U_IMM`: set if greater than immediate, unsigned (R326). -/
def execSetGtUImm (rA rB : Reg) (immX : Word) (s : State) : Out :=
  binaryImm Val.setGtU rA rB immX s

/-- `SET_GT_S_IMM`: set if greater than immediate, signed (R327). -/
def execSetGtSImm (rA rB : Reg) (immX : Word) (s : State) : Out :=
  binaryImm Val.setGtS rA rB immX s

/-- `ADD_IMM_64`: add immediate, 64-bit (R328). -/
def execAddImm64 (rA rB : Reg) (immX : Word) (s : State) : Out := binaryImm Val.add64 rA rB immX s

/-- `MUL_IMM_64`: multiply by immediate, 64-bit (R329). -/
def execMulImm64 (rA rB : Reg) (immX : Word) (s : State) : Out := binaryImm Val.mul64 rA rB immX s

/-- `NEG_ADD_IMM_64`: immediate minus register, 64-bit (R330). -/
def execNegAddImm64 (rA rB : Reg) (immX : Word) (s : State) : Out :=
  binaryImm Val.negAdd64 rA rB immX s

/-- `ADD_32`: add, 32-bit (R331). -/
def execAdd32 (rA rB rD : Reg) (s : State) : Out := binary Val.add32 rA rB rD s

/-- `SUB_32`: subtract, 32-bit (R332). -/
def execSub32 (rA rB rD : Reg) (s : State) : Out := binary Val.sub32 rA rB rD s

/-- `MUL_32`: multiply, 32-bit (R333). -/
def execMul32 (rA rB rD : Reg) (s : State) : Out := binary Val.mul32 rA rB rD s

/-- `DIV_U_32`: unsigned divide, 32-bit (R334). -/
def execDivU32 (rA rB rD : Reg) (s : State) : Out := binary Val.divU32 rA rB rD s

/-- `DIV_S_32`: signed divide, 32-bit (R335). -/
def execDivS32 (rA rB rD : Reg) (s : State) : Out := binary Val.divS32 rA rB rD s

/-- `REM_U_32`: unsigned remainder, 32-bit (R336). -/
def execRemU32 (rA rB rD : Reg) (s : State) : Out := binary Val.remU32 rA rB rD s

/-- `REM_S_32`: signed remainder, 32-bit (R337). -/
def execRemS32 (rA rB rD : Reg) (s : State) : Out := binary Val.remS32 rA rB rD s

/-- `ADD_64`: add, 64-bit (R338). -/
def execAdd64 (rA rB rD : Reg) (s : State) : Out := binary Val.add64 rA rB rD s

/-- `SUB_64`: subtract, 64-bit (R339). -/
def execSub64 (rA rB rD : Reg) (s : State) : Out := binary Val.sub64 rA rB rD s

/-- `MUL_64`: multiply, 64-bit (R340). -/
def execMul64 (rA rB rD : Reg) (s : State) : Out := binary Val.mul64 rA rB rD s

/-- `DIV_U_64`: unsigned divide, 64-bit (R341). -/
def execDivU64 (rA rB rD : Reg) (s : State) : Out := binary Val.divU64 rA rB rD s

/-- `DIV_S_64`: signed divide, 64-bit (R342). -/
def execDivS64 (rA rB rD : Reg) (s : State) : Out := binary Val.divS64 rA rB rD s

/-- `REM_U_64`: unsigned remainder, 64-bit (R343). -/
def execRemU64 (rA rB rD : Reg) (s : State) : Out := binary Val.remU64 rA rB rD s

/-- `REM_S_64`: signed remainder, 64-bit (R344). -/
def execRemS64 (rA rB rD : Reg) (s : State) : Out := binary Val.remS64 rA rB rD s

/-- `MUL_UPPER_S_S`: high 64 bits of signed × signed product (R345). -/
def execMulUpperSS (rA rB rD : Reg) (s : State) : Out := binary Val.mulUpperSS rA rB rD s

/-- `MUL_UPPER_U_U`: high 64 bits of unsigned × unsigned product (R346). -/
def execMulUpperUU (rA rB rD : Reg) (s : State) : Out := binary Val.mulUpperUU rA rB rD s

/-- `MUL_UPPER_S_U`: high 64 bits of signed × unsigned product (R347). -/
def execMulUpperSU (rA rB rD : Reg) (s : State) : Out := binary Val.mulUpperSU rA rB rD s

/-- `SET_LT_U`: set if less than, unsigned (R348). -/
def execSetLtU (rA rB rD : Reg) (s : State) : Out := binary Val.setLtU rA rB rD s

/-- `SET_LT_S`: set if less than, signed (R349). -/
def execSetLtS (rA rB rD : Reg) (s : State) : Out := binary Val.setLtS rA rB rD s

/-- `MAX`: signed maximum (R350). -/
def execMaxS (rA rB rD : Reg) (s : State) : Out := binary Val.maxS rA rB rD s

/-- `MAX_U`: unsigned maximum (R351). -/
def execMaxU (rA rB rD : Reg) (s : State) : Out := binary Val.maxU rA rB rD s

/-- `MIN`: signed minimum (R352). -/
def execMinS (rA rB rD : Reg) (s : State) : Out := binary Val.minS rA rB rD s

/-- `MIN_U`: unsigned minimum (R353). -/
def execMinU (rA rB rD : Reg) (s : State) : Out := binary Val.minU rA rB rD s

end Sys2Proof.Machine
end

