-- ==== Sys2Proof/Machine/Move.lean ====
section
/-! DEFINITION. The meanings of heap growth, the register move and the conditional moves (spec/46_memory_move.md). -/

namespace Sys2Proof.Machine

/-- `if c: x[rd] <- v`; otherwise `x[rd]` keeps its value (R312–R315). -/
def cmov (c : Bool) (rd : Reg) (v : Word) (s : State) : Out :=
  if c then writeResult rd v s else .next s.advance

/-- `MOVE_REG`: register copy (R311). -/
def execMoveReg (rA rD : Reg) (s : State) : Out := unary id rA rD s

/-- `SBRK`: grow the heap (R310). -/
def execSbrk (rA rD : Reg) (s : State) : Out :=
  match s.mem.sbrk s.params.heapLimit (s.reg rA).toNat with
  | .fail => writeResult rD s.params.sbrkFailResult s
  | .refuse => .refused .sbrkOntoMappedPage
  | .grown old m => writeResult rD (BitVec.ofNat 64 old) { s with mem := m }

/-- `CMOV_IZ_IMM`: conditional move of immediate if zero (R312). -/
def execCmovIzImm (rA rB : Reg) (immX : Word) (s : State) : Out := cmov (s.reg rB == 0) rA immX s

/-- `CMOV_NZ_IMM`: conditional move of immediate if nonzero (R313). -/
def execCmovNzImm (rA rB : Reg) (immX : Word) (s : State) : Out := cmov (s.reg rB != 0) rA immX s

/-- `CMOV_IZ`: conditional move if zero (R314). -/
def execCmovIz (rA rB rD : Reg) (s : State) : Out := cmov (s.reg rB == 0) rD (s.reg rA) s

/-- `CMOV_NZ`: conditional move if nonzero (R315). -/
def execCmovNz (rA rB rD : Reg) (s : State) : Out := cmov (s.reg rB != 0) rD (s.reg rA) s

end Sys2Proof.Machine
end

