-- ==== Sys2Proof/Machine/NoArgs.lean ====
section
/-! DEFINITION. The meanings of the instructions without register operands: TRAP, FALLTHROUGH, ECALLI (spec/41_noargs_hostcall.md). -/

namespace Sys2Proof.Machine

/-- `TRAP`: explicit trap (R200). -/
def execTrap (s : State) : Out := .next (takeException .panic s)

/-- `FALLTHROUGH`: end a basic block, no operation (R201). -/
def execFallthrough (s : State) : Out := .next s.advance

/-- `ECALLI`: host call (R202). -/
def execEcalli (immX : Word) (s : State) : Out := .next (takeException (.host (low32 immX)) s)

end Sys2Proof.Machine
end

