-- ==== Sys2Proof/Machine/Shift.lean ====
section
/-! DEFINITION. The meanings of the shifts and rotates (spec/48_shift_rotate.md). Every amount is reduced modulo the width first (R360). -/

namespace Sys2Proof.Machine

/-- The amount of a 32-bit shift or rotate (R360). -/
def amount32 (b : Word) : Nat := b.toNat % 32
/-- The amount of a 64-bit shift or rotate (R360). -/
def amount64 (b : Word) : Nat := b.toNat % 64
/-- R361, R364, R377. -/
def Val.shloL32 (a b : Word) : Word := sext32 (low32 a <<< amount32 b)
/-- R362, R365, R378. -/
def Val.shloR32 (a b : Word) : Word := sext32 (low32 a >>> amount32 b)
/-- R363, R366, R379. -/
def Val.sharR32 (a b : Word) : Word := sext32 ((low32 a).sshiftRight (amount32 b))
/-- R367, R370, R380. -/
def Val.shloL64 (a b : Word) : Word := a <<< amount64 b
/-- R368, R371, R381. -/
def Val.shloR64 (a b : Word) : Word := a >>> amount64 b
/-- R369, R372, R382. -/
def Val.sharR64 (a b : Word) : Word := a.sshiftRight (amount64 b)
/-- `rotr64` (R360, R373, R374, R385). -/
def Val.rotR64 (a b : Word) : Word := a.rotateRight (amount64 b)
/-- `rotr32` (R360, R375, R376, R386). -/
def Val.rotR32 (a b : Word) : Word := sext32 ((low32 a).rotateRight (amount32 b))
/-- `rotl64` (R360, R383). -/
def Val.rotL64 (a b : Word) : Word := a.rotateLeft (amount64 b)
/-- `rotl32` (R360, R384). -/
def Val.rotL32 (a b : Word) : Word := sext32 ((low32 a).rotateLeft (amount32 b))

/-- `SHLO_L_IMM_32`: shift left by immediate, 32-bit (R361). -/
def execShloLImm32 (rA rB : Reg) (immX : Word) (s : State) : Out :=
  binaryImm Val.shloL32 rA rB immX s

/-- `SHLO_R_IMM_32`: logical shift right by immediate, 32-bit (R362). -/
def execShloRImm32 (rA rB : Reg) (immX : Word) (s : State) : Out :=
  binaryImm Val.shloR32 rA rB immX s

/-- `SHAR_R_IMM_32`: arithmetic shift right by immediate, 32-bit (R363). -/
def execSharRImm32 (rA rB : Reg) (immX : Word) (s : State) : Out :=
  binaryImm Val.sharR32 rA rB immX s

/-- `SHLO_L_IMM_ALT_32`: shift immediate left by register, 32-bit (R364). -/
def execShloLImmAlt32 (rA rB : Reg) (immX : Word) (s : State) : Out :=
  binaryImm (fun b imm => Val.shloL32 imm b) rA rB immX s

/-- `SHLO_R_IMM_ALT_32`: logical shift immediate right by register, 32-bit (R365). -/
def execShloRImmAlt32 (rA rB : Reg) (immX : Word) (s : State) : Out :=
  binaryImm (fun b imm => Val.shloR32 imm b) rA rB immX s

/-- `SHAR_R_IMM_ALT_32`: arithmetic shift immediate right by register, 32-bit (R366). -/
def execSharRImmAlt32 (rA rB : Reg) (immX : Word) (s : State) : Out :=
  binaryImm (fun b imm => Val.sharR32 imm b) rA rB immX s

/-- `SHLO_L_IMM_64`: shift left by immediate, 64-bit (R367). -/
def execShloLImm64 (rA rB : Reg) (immX : Word) (s : State) : Out :=
  binaryImm Val.shloL64 rA rB immX s

/-- `SHLO_R_IMM_64`: logical shift right by immediate, 64-bit (R368). -/
def execShloRImm64 (rA rB : Reg) (immX : Word) (s : State) : Out :=
  binaryImm Val.shloR64 rA rB immX s

/-- `SHAR_R_IMM_64`: arithmetic shift right by immediate, 64-bit (R369). -/
def execSharRImm64 (rA rB : Reg) (immX : Word) (s : State) : Out :=
  binaryImm Val.sharR64 rA rB immX s

/-- `SHLO_L_IMM_ALT_64`: shift immediate left by register, 64-bit (R370). -/
def execShloLImmAlt64 (rA rB : Reg) (immX : Word) (s : State) : Out :=
  binaryImm (fun b imm => Val.shloL64 imm b) rA rB immX s

/-- `SHLO_R_IMM_ALT_64`: logical shift immediate right by register, 64-bit (R371). -/
def execShloRImmAlt64 (rA rB : Reg) (immX : Word) (s : State) : Out :=
  binaryImm (fun b imm => Val.shloR64 imm b) rA rB immX s

/-- `SHAR_R_IMM_ALT_64`: arithmetic shift immediate right by register, 64-bit (R372). -/
def execSharRImmAlt64 (rA rB : Reg) (immX : Word) (s : State) : Out :=
  binaryImm (fun b imm => Val.sharR64 imm b) rA rB immX s

/-- `ROT_R_64_IMM`: rotate right by immediate, 64-bit (R373). -/
def execRotR64Imm (rA rB : Reg) (immX : Word) (s : State) : Out :=
  binaryImm Val.rotR64 rA rB immX s

/-- `ROT_R_64_IMM_ALT`: rotate immediate right by register, 64-bit (R374). -/
def execRotR64ImmAlt (rA rB : Reg) (immX : Word) (s : State) : Out :=
  binaryImm (fun b imm => Val.rotR64 imm b) rA rB immX s

/-- `ROT_R_32_IMM`: rotate right by immediate, 32-bit (R375). -/
def execRotR32Imm (rA rB : Reg) (immX : Word) (s : State) : Out :=
  binaryImm Val.rotR32 rA rB immX s

/-- `ROT_R_32_IMM_ALT`: rotate immediate right by register, 32-bit (R376). -/
def execRotR32ImmAlt (rA rB : Reg) (immX : Word) (s : State) : Out :=
  binaryImm (fun b imm => Val.rotR32 imm b) rA rB immX s

/-- `SHLO_L_32`: shift left, 32-bit (R377). -/
def execShloL32 (rA rB rD : Reg) (s : State) : Out := binary Val.shloL32 rA rB rD s

/-- `SHLO_R_32`: logical shift right, 32-bit (R378). -/
def execShloR32 (rA rB rD : Reg) (s : State) : Out := binary Val.shloR32 rA rB rD s

/-- `SHAR_R_32`: arithmetic shift right, 32-bit (R379). -/
def execSharR32 (rA rB rD : Reg) (s : State) : Out := binary Val.sharR32 rA rB rD s

/-- `SHLO_L_64`: shift left, 64-bit (R380). -/
def execShloL64 (rA rB rD : Reg) (s : State) : Out := binary Val.shloL64 rA rB rD s

/-- `SHLO_R_64`: logical shift right, 64-bit (R381). -/
def execShloR64 (rA rB rD : Reg) (s : State) : Out := binary Val.shloR64 rA rB rD s

/-- `SHAR_R_64`: arithmetic shift right, 64-bit (R382). -/
def execSharR64 (rA rB rD : Reg) (s : State) : Out := binary Val.sharR64 rA rB rD s

/-- `ROT_L_64`: rotate left, 64-bit (R383). -/
def execRotL64 (rA rB rD : Reg) (s : State) : Out := binary Val.rotL64 rA rB rD s

/-- `ROT_L_32`: rotate left, 32-bit (R384). -/
def execRotL32 (rA rB rD : Reg) (s : State) : Out := binary Val.rotL32 rA rB rD s

/-- `ROT_R_64`: rotate right, 64-bit (R385). -/
def execRotR64 (rA rB rD : Reg) (s : State) : Out := binary Val.rotR64 rA rB rD s

/-- `ROT_R_32`: rotate right, 32-bit (R386). -/
def execRotR32 (rA rB rD : Reg) (s : State) : Out := binary Val.rotR32 rA rB rD s

end Sys2Proof.Machine
end

