-- ==== Sys2Proof/Machine/Store.lean ====
section
/-! DEFINITION. The meanings of the stores (spec/44_store.md). -/

namespace Sys2Proof.Machine

/-- `STORE_IMM_U8`: store 8-bit immediate to absolute address (R260). -/
def execStoreImmU8 (immX immY : Word) (s : State) : Out := storeAt 1 (absAddr immX) immY s

/-- `STORE_IMM_U16`: store 16-bit immediate to absolute address (R261). -/
def execStoreImmU16 (immX immY : Word) (s : State) : Out := storeAt 2 (absAddr immX) immY s

/-- `STORE_IMM_U32`: store 32-bit immediate to absolute address (R262). -/
def execStoreImmU32 (immX immY : Word) (s : State) : Out := storeAt 4 (absAddr immX) immY s

/-- `STORE_IMM_U64`: store 64-bit immediate to absolute address (R263). -/
def execStoreImmU64 (immX immY : Word) (s : State) : Out := storeAt 8 (absAddr immX) immY s

/-- `STORE_U8`: store 8-bit register to absolute address (R264). -/
def execStoreU8 (rA : Reg) (immX : Word) (s : State) : Out :=
  storeAt 1 (absAddr immX) (s.reg rA) s

/-- `STORE_U16`: store 16-bit register to absolute address (R265). -/
def execStoreU16 (rA : Reg) (immX : Word) (s : State) : Out :=
  storeAt 2 (absAddr immX) (s.reg rA) s

/-- `STORE_U32`: store 32-bit register to absolute address (R266). -/
def execStoreU32 (rA : Reg) (immX : Word) (s : State) : Out :=
  storeAt 4 (absAddr immX) (s.reg rA) s

/-- `STORE_U64`: store 64-bit register to absolute address (R267). -/
def execStoreU64 (rA : Reg) (immX : Word) (s : State) : Out :=
  storeAt 8 (absAddr immX) (s.reg rA) s

/-- `STORE_IMM_IND_U8`: store 8-bit immediate to register + offset (R268). -/
def execStoreImmIndU8 (rA : Reg) (immX immY : Word) (s : State) : Out :=
  storeAt 1 (s.indAddr rA immX) immY s

/-- `STORE_IMM_IND_U16`: store 16-bit immediate to register + offset (R269). -/
def execStoreImmIndU16 (rA : Reg) (immX immY : Word) (s : State) : Out :=
  storeAt 2 (s.indAddr rA immX) immY s

/-- `STORE_IMM_IND_U32`: store 32-bit immediate to register + offset (R270). -/
def execStoreImmIndU32 (rA : Reg) (immX immY : Word) (s : State) : Out :=
  storeAt 4 (s.indAddr rA immX) immY s

/-- `STORE_IMM_IND_U64`: store 64-bit immediate to register + offset (R271). -/
def execStoreImmIndU64 (rA : Reg) (immX immY : Word) (s : State) : Out :=
  storeAt 8 (s.indAddr rA immX) immY s

/-- `STORE_IND_U8`: store 8-bit register to register + offset (R272). -/
def execStoreIndU8 (rA rB : Reg) (immX : Word) (s : State) : Out :=
  storeAt 1 (s.indAddr rB immX) (s.reg rA) s

/-- `STORE_IND_U16`: store 16-bit register to register + offset (R273). -/
def execStoreIndU16 (rA rB : Reg) (immX : Word) (s : State) : Out :=
  storeAt 2 (s.indAddr rB immX) (s.reg rA) s

/-- `STORE_IND_U32`: store 32-bit register to register + offset (R274). -/
def execStoreIndU32 (rA rB : Reg) (immX : Word) (s : State) : Out :=
  storeAt 4 (s.indAddr rB immX) (s.reg rA) s

/-- `STORE_IND_U64`: store 64-bit register to register + offset (R275). -/
def execStoreIndU64 (rA rB : Reg) (immX : Word) (s : State) : Out :=
  storeAt 8 (s.indAddr rB immX) (s.reg rA) s

end Sys2Proof.Machine
end

