-- ==== Sys2Proof/Machine/Dispatch.lean ====
section
/-! DEFINITION. The dispatcher: phases 5 and 6 of a step, one meaning per opcode
(spec/40_step.md R166, R178). -/

namespace Sys2Proof.Machine

def exec (i : Instr) (s : State) : Host.Outcome State Fault Refusal :=
  match i with
  | .trap => Sys2Proof.Machine.execTrap s
  | .fallthrough => Sys2Proof.Machine.execFallthrough s
  | .ecalli immX => Sys2Proof.Machine.execEcalli immX s
  | .loadImm64 rA immX => Sys2Proof.Machine.execLoadImm64 rA immX s
  | .storeImmU8 immX immY => Sys2Proof.Machine.execStoreImmU8 immX immY s
  | .storeImmU16 immX immY => Sys2Proof.Machine.execStoreImmU16 immX immY s
  | .storeImmU32 immX immY => Sys2Proof.Machine.execStoreImmU32 immX immY s
  | .storeImmU64 immX immY => Sys2Proof.Machine.execStoreImmU64 immX immY s
  | .jump off => Sys2Proof.Machine.execJump off s
  | .jumpInd rA immX => Sys2Proof.Machine.execJumpInd rA immX s
  | .loadImm rA immX => Sys2Proof.Machine.execLoadImm rA immX s
  | .loadU8 rA immX => Sys2Proof.Machine.execLoadU8 rA immX s
  | .loadI8 rA immX => Sys2Proof.Machine.execLoadI8 rA immX s
  | .loadU16 rA immX => Sys2Proof.Machine.execLoadU16 rA immX s
  | .loadI16 rA immX => Sys2Proof.Machine.execLoadI16 rA immX s
  | .loadU32 rA immX => Sys2Proof.Machine.execLoadU32 rA immX s
  | .loadI32 rA immX => Sys2Proof.Machine.execLoadI32 rA immX s
  | .loadU64 rA immX => Sys2Proof.Machine.execLoadU64 rA immX s
  | .storeU8 rA immX => Sys2Proof.Machine.execStoreU8 rA immX s
  | .storeU16 rA immX => Sys2Proof.Machine.execStoreU16 rA immX s
  | .storeU32 rA immX => Sys2Proof.Machine.execStoreU32 rA immX s
  | .storeU64 rA immX => Sys2Proof.Machine.execStoreU64 rA immX s
  | .storeImmIndU8 rA immX immY => Sys2Proof.Machine.execStoreImmIndU8 rA immX immY s
  | .storeImmIndU16 rA immX immY => Sys2Proof.Machine.execStoreImmIndU16 rA immX immY s
  | .storeImmIndU32 rA immX immY => Sys2Proof.Machine.execStoreImmIndU32 rA immX immY s
  | .storeImmIndU64 rA immX immY => Sys2Proof.Machine.execStoreImmIndU64 rA immX immY s
  | .loadImmJump rA immX off => Sys2Proof.Machine.execLoadImmJump rA immX off s
  | .branchEqImm rA immX off => Sys2Proof.Machine.execBranchEqImm rA immX off s
  | .branchNeImm rA immX off => Sys2Proof.Machine.execBranchNeImm rA immX off s
  | .branchLtUImm rA immX off => Sys2Proof.Machine.execBranchLtUImm rA immX off s
  | .branchLeUImm rA immX off => Sys2Proof.Machine.execBranchLeUImm rA immX off s
  | .branchGeUImm rA immX off => Sys2Proof.Machine.execBranchGeUImm rA immX off s
  | .branchGtUImm rA immX off => Sys2Proof.Machine.execBranchGtUImm rA immX off s
  | .branchLtSImm rA immX off => Sys2Proof.Machine.execBranchLtSImm rA immX off s
  | .branchLeSImm rA immX off => Sys2Proof.Machine.execBranchLeSImm rA immX off s
  | .branchGeSImm rA immX off => Sys2Proof.Machine.execBranchGeSImm rA immX off s
  | .branchGtSImm rA immX off => Sys2Proof.Machine.execBranchGtSImm rA immX off s
  | .moveReg rA rD => Sys2Proof.Machine.execMoveReg rA rD s
  | .sbrk rA rD => Sys2Proof.Machine.execSbrk rA rD s
  | .countSetBits64 rA rD => Sys2Proof.Machine.execCountSetBits64 rA rD s
  | .countSetBits32 rA rD => Sys2Proof.Machine.execCountSetBits32 rA rD s
  | .leadingZeroBits64 rA rD => Sys2Proof.Machine.execLeadingZeroBits64 rA rD s
  | .leadingZeroBits32 rA rD => Sys2Proof.Machine.execLeadingZeroBits32 rA rD s
  | .trailingZeroBits64 rA rD => Sys2Proof.Machine.execTrailingZeroBits64 rA rD s
  | .trailingZeroBits32 rA rD => Sys2Proof.Machine.execTrailingZeroBits32 rA rD s
  | .signExtend8 rA rD => Sys2Proof.Machine.execSignExtend8 rA rD s
  | .signExtend16 rA rD => Sys2Proof.Machine.execSignExtend16 rA rD s
  | .zeroExtend16 rA rD => Sys2Proof.Machine.execZeroExtend16 rA rD s
  | .reverseBytes rA rD => Sys2Proof.Machine.execReverseBytes rA rD s
  | .storeIndU8 rA rB immX => Sys2Proof.Machine.execStoreIndU8 rA rB immX s
  | .storeIndU16 rA rB immX => Sys2Proof.Machine.execStoreIndU16 rA rB immX s
  | .storeIndU32 rA rB immX => Sys2Proof.Machine.execStoreIndU32 rA rB immX s
  | .storeIndU64 rA rB immX => Sys2Proof.Machine.execStoreIndU64 rA rB immX s
  | .loadIndU8 rA rB immX => Sys2Proof.Machine.execLoadIndU8 rA rB immX s
  | .loadIndI8 rA rB immX => Sys2Proof.Machine.execLoadIndI8 rA rB immX s
  | .loadIndU16 rA rB immX => Sys2Proof.Machine.execLoadIndU16 rA rB immX s
  | .loadIndI16 rA rB immX => Sys2Proof.Machine.execLoadIndI16 rA rB immX s
  | .loadIndU32 rA rB immX => Sys2Proof.Machine.execLoadIndU32 rA rB immX s
  | .loadIndI32 rA rB immX => Sys2Proof.Machine.execLoadIndI32 rA rB immX s
  | .loadIndU64 rA rB immX => Sys2Proof.Machine.execLoadIndU64 rA rB immX s
  | .addImm32 rA rB immX => Sys2Proof.Machine.execAddImm32 rA rB immX s
  | .andImm rA rB immX => Sys2Proof.Machine.execAndImm rA rB immX s
  | .xorImm rA rB immX => Sys2Proof.Machine.execXorImm rA rB immX s
  | .orImm rA rB immX => Sys2Proof.Machine.execOrImm rA rB immX s
  | .mulImm32 rA rB immX => Sys2Proof.Machine.execMulImm32 rA rB immX s
  | .setLtUImm rA rB immX => Sys2Proof.Machine.execSetLtUImm rA rB immX s
  | .setLtSImm rA rB immX => Sys2Proof.Machine.execSetLtSImm rA rB immX s
  | .shloLImm32 rA rB immX => Sys2Proof.Machine.execShloLImm32 rA rB immX s
  | .shloRImm32 rA rB immX => Sys2Proof.Machine.execShloRImm32 rA rB immX s
  | .sharRImm32 rA rB immX => Sys2Proof.Machine.execSharRImm32 rA rB immX s
  | .negAddImm32 rA rB immX => Sys2Proof.Machine.execNegAddImm32 rA rB immX s
  | .setGtUImm rA rB immX => Sys2Proof.Machine.execSetGtUImm rA rB immX s
  | .setGtSImm rA rB immX => Sys2Proof.Machine.execSetGtSImm rA rB immX s
  | .shloLImmAlt32 rA rB immX => Sys2Proof.Machine.execShloLImmAlt32 rA rB immX s
  | .shloRImmAlt32 rA rB immX => Sys2Proof.Machine.execShloRImmAlt32 rA rB immX s
  | .sharRImmAlt32 rA rB immX => Sys2Proof.Machine.execSharRImmAlt32 rA rB immX s
  | .cmovIzImm rA rB immX => Sys2Proof.Machine.execCmovIzImm rA rB immX s
  | .cmovNzImm rA rB immX => Sys2Proof.Machine.execCmovNzImm rA rB immX s
  | .addImm64 rA rB immX => Sys2Proof.Machine.execAddImm64 rA rB immX s
  | .mulImm64 rA rB immX => Sys2Proof.Machine.execMulImm64 rA rB immX s
  | .shloLImm64 rA rB immX => Sys2Proof.Machine.execShloLImm64 rA rB immX s
  | .shloRImm64 rA rB immX => Sys2Proof.Machine.execShloRImm64 rA rB immX s
  | .sharRImm64 rA rB immX => Sys2Proof.Machine.execSharRImm64 rA rB immX s
  | .negAddImm64 rA rB immX => Sys2Proof.Machine.execNegAddImm64 rA rB immX s
  | .shloLImmAlt64 rA rB immX => Sys2Proof.Machine.execShloLImmAlt64 rA rB immX s
  | .shloRImmAlt64 rA rB immX => Sys2Proof.Machine.execShloRImmAlt64 rA rB immX s
  | .sharRImmAlt64 rA rB immX => Sys2Proof.Machine.execSharRImmAlt64 rA rB immX s
  | .rotR64Imm rA rB immX => Sys2Proof.Machine.execRotR64Imm rA rB immX s
  | .rotR64ImmAlt rA rB immX => Sys2Proof.Machine.execRotR64ImmAlt rA rB immX s
  | .rotR32Imm rA rB immX => Sys2Proof.Machine.execRotR32Imm rA rB immX s
  | .rotR32ImmAlt rA rB immX => Sys2Proof.Machine.execRotR32ImmAlt rA rB immX s
  | .branchEq rA rB off => Sys2Proof.Machine.execBranchEq rA rB off s
  | .branchNe rA rB off => Sys2Proof.Machine.execBranchNe rA rB off s
  | .branchLtU rA rB off => Sys2Proof.Machine.execBranchLtU rA rB off s
  | .branchLtS rA rB off => Sys2Proof.Machine.execBranchLtS rA rB off s
  | .branchGeU rA rB off => Sys2Proof.Machine.execBranchGeU rA rB off s
  | .branchGeS rA rB off => Sys2Proof.Machine.execBranchGeS rA rB off s
  | .loadImmJumpInd rA rB immX immY => Sys2Proof.Machine.execLoadImmJumpInd rA rB immX immY s
  | .add32 rA rB rD => Sys2Proof.Machine.execAdd32 rA rB rD s
  | .sub32 rA rB rD => Sys2Proof.Machine.execSub32 rA rB rD s
  | .mul32 rA rB rD => Sys2Proof.Machine.execMul32 rA rB rD s
  | .divU32 rA rB rD => Sys2Proof.Machine.execDivU32 rA rB rD s
  | .divS32 rA rB rD => Sys2Proof.Machine.execDivS32 rA rB rD s
  | .remU32 rA rB rD => Sys2Proof.Machine.execRemU32 rA rB rD s
  | .remS32 rA rB rD => Sys2Proof.Machine.execRemS32 rA rB rD s
  | .shloL32 rA rB rD => Sys2Proof.Machine.execShloL32 rA rB rD s
  | .shloR32 rA rB rD => Sys2Proof.Machine.execShloR32 rA rB rD s
  | .sharR32 rA rB rD => Sys2Proof.Machine.execSharR32 rA rB rD s
  | .add64 rA rB rD => Sys2Proof.Machine.execAdd64 rA rB rD s
  | .sub64 rA rB rD => Sys2Proof.Machine.execSub64 rA rB rD s
  | .mul64 rA rB rD => Sys2Proof.Machine.execMul64 rA rB rD s
  | .divU64 rA rB rD => Sys2Proof.Machine.execDivU64 rA rB rD s
  | .divS64 rA rB rD => Sys2Proof.Machine.execDivS64 rA rB rD s
  | .remU64 rA rB rD => Sys2Proof.Machine.execRemU64 rA rB rD s
  | .remS64 rA rB rD => Sys2Proof.Machine.execRemS64 rA rB rD s
  | .shloL64 rA rB rD => Sys2Proof.Machine.execShloL64 rA rB rD s
  | .shloR64 rA rB rD => Sys2Proof.Machine.execShloR64 rA rB rD s
  | .sharR64 rA rB rD => Sys2Proof.Machine.execSharR64 rA rB rD s
  | .andReg rA rB rD => Sys2Proof.Machine.execAndReg rA rB rD s
  | .xorReg rA rB rD => Sys2Proof.Machine.execXorReg rA rB rD s
  | .orReg rA rB rD => Sys2Proof.Machine.execOrReg rA rB rD s
  | .mulUpperSS rA rB rD => Sys2Proof.Machine.execMulUpperSS rA rB rD s
  | .mulUpperUU rA rB rD => Sys2Proof.Machine.execMulUpperUU rA rB rD s
  | .mulUpperSU rA rB rD => Sys2Proof.Machine.execMulUpperSU rA rB rD s
  | .setLtU rA rB rD => Sys2Proof.Machine.execSetLtU rA rB rD s
  | .setLtS rA rB rD => Sys2Proof.Machine.execSetLtS rA rB rD s
  | .cmovIz rA rB rD => Sys2Proof.Machine.execCmovIz rA rB rD s
  | .cmovNz rA rB rD => Sys2Proof.Machine.execCmovNz rA rB rD s
  | .rotL64 rA rB rD => Sys2Proof.Machine.execRotL64 rA rB rD s
  | .rotL32 rA rB rD => Sys2Proof.Machine.execRotL32 rA rB rD s
  | .rotR64 rA rB rD => Sys2Proof.Machine.execRotR64 rA rB rD s
  | .rotR32 rA rB rD => Sys2Proof.Machine.execRotR32 rA rB rD s
  | .andInv rA rB rD => Sys2Proof.Machine.execAndInv rA rB rD s
  | .orInv rA rB rD => Sys2Proof.Machine.execOrInv rA rB rD s
  | .xnor rA rB rD => Sys2Proof.Machine.execXnor rA rB rD s
  | .maxS rA rB rD => Sys2Proof.Machine.execMaxS rA rB rD s
  | .maxU rA rB rD => Sys2Proof.Machine.execMaxU rA rB rD s
  | .minS rA rB rD => Sys2Proof.Machine.execMinS rA rB rD s
  | .minU rA rB rD => Sys2Proof.Machine.execMinU rA rB rD s

end Sys2Proof.Machine
end

