-- ==== Sys2Proof/Machine/Phases.lean ====
section
/-! DEFINITION. The phases of a step (spec/40_step.md R160–R168), and the placing of an instruction where the
step fetches. -/

namespace Sys2Proof.Machine

/-- The opcode byte at the pc (R163). -/
def State.opcode (s : State) : Nat := opcodeAt s.prog s.pc.toNat

/-- Phases 3 to 7, after the pc was found valid (R163–R168). -/
def chargeAndRun (s : State) : Out :=
  let charged := s.subGas (opGas s.params s.opcode)
  if charged.2 then .next (takeException .oog charged.1)
  else
    match s.prog.decodeAt s.params s.pc.toNat with
    | .error _ => .next (takeException .panic charged.1)
    | .ok i => exec i charged.1

/-- `nextStep()` (R160). The status it returns is that of the next state (R168). -/
def nextStep (s : State) : Out :=
  if !s.loaded then .refused .notLoaded
  else if s.status ≠ .ok then .next s
  else if !atBoundary s.prog s.pc.toNat then .next (takeException .panic s)
  else chargeAndRun s

/-- A program of one instruction of full length, with the jump table of `s` (notes/assumptions/12.md). -/
def wordProgram (P : Params) (p : Program) (nbits w : Nat) : Program :=
  { code := tableBytes P nbits w, mask := true :: List.replicate P.maxSkip false, jt := p.jt }

/-- `s` with the instruction of the bits `w` where the next step fetches, and what fetching and charging it needs:
a loaded program, status OK and enough gas (notes/assumptions/12.md). -/
def placeWord (s : State) (nbits w : Nat) : State :=
  { s with
    loaded := true
    prog := wordProgram s.params s.prog nbits w
    pc := 0
    status := .ok
    exitParam := none
    gas := max s.gas (opGas s.params (byteAt (tableBytes s.params nbits w) 0)) }

end Sys2Proof.Machine
end

