-- ==== Sys2Proof/Machine/Step.lean ====
section
/-! DEFINITION. The step of the machine (spec/40_step.md R160). -/

namespace Sys2Proof.Machine

/-- One step command. -/
def step (s : State) : Host.Outcome State Fault Refusal := nextStep s

/-- The state whose next step fetches and runs the instruction with bits `w` (notes/assumptions/12.md). -/
def State.withFetchWord (s : State) (nbits w : Nat) : State := placeWord s nbits w

end Sys2Proof.Machine
end

