-- ==== Sys2Proof/Machine/Canonical.lean ====
section
/-! DEFINITION. The canonical form of the memory unit and the relations between its heap registers
(spec/10_state.md R49; spec/20_memory.md R72, R86). -/

namespace Sys2Proof.Machine

/-- The page table is in canonical form, over the page numbers that exist. -/
def Memory.pagesWf (m : Memory) : Bool :=
  sparseWf .unmapped m.pages && m.pages.all fun e => e.1 < Config.numPages

/-- The page data is in canonical form, and only bytes of mapped pages are listed. -/
def Memory.cellsWf (m : Memory) : Bool :=
  sparseWf 0 m.cells && m.cells.all fun e => e.1 < Config.addrSpace && m.canRead e.1

/-- The canonical form holds: equal memories are equal data. -/
def Memory.wf (m : Memory) : Bool := m.pagesWf && m.cellsWf

/-- Every one of the `count` pages from `p` on is Writable. -/
def Memory.allWritable (m : Memory) (p : Nat) : Nat → Bool
  | 0 => true
  | count + 1 => m.pageState p == .writable && m.allWritable (p + 1) count

/-- What the heap registers satisfy (spec/10_state.md R49; spec/20_memory.md R86). -/
def Memory.heapWf (m : Memory) : Bool :=
  m.heapStart % Config.pageSize == 0 && m.heapEnd % Config.pageSize == 0 &&
    m.heapStart ≤ m.heapEnd && m.heapEnd ≤ Config.addrSpace &&
    m.heapStart ≤ m.heapPtr && m.heapPtr ≤ Config.addrSpace &&
    m.heapTop == alignUp m.heapPtr &&
    m.allWritable (m.heapStart / Config.pageSize)
      (m.heapTop / Config.pageSize - m.heapStart / Config.pageSize)

end Sys2Proof.Machine
end

