-- ==== Sys2Proof/Machine/Blob.lean ====
section
/-! DEFINITION. The program decoder: from a blob to `code`, `mask` and `jt`, and the serializer
(spec/30_encoding.md R110–R117). -/

namespace Sys2Proof.Machine

/-- Why a blob does not decode (R111, R112). It is returned by reset and is no status of the core. -/
inductive BlobError where
  /-- A field runs past the end of the blob. -/
  | truncated
  /-- Bytes remain after the mask. -/
  | trailing
  /-- A `varU32` above 2^32 − 1. -/
  | varTooLarge
  deriving DecidableEq, Repr

/-- The number of leading 1 bits of a byte, looking at bits `n − 1` down to 0. -/
def leadingOnes (b : Byte) : Nat → Nat
  | 0 => 0
  | n + 1 => if b.getLsbD n then leadingOnes b n + 1 else 0

/-- The value of a `varU32` with first byte `b0` and `l` leading ones, whose next bytes are `bs` (R111). -/
def varValue (b0 : Byte) (l : Nat) (bs : List Byte) : Nat :=
  if l = 8 then leNat (bs.take 8)
  else b0.toNat % 2 ^ (7 - l) * 2 ^ (8 * l) + leNat (bs.take l)

/-- Decodes a `varU32` and returns the bytes after it (R111). -/
def decodeVar : List Byte → Except BlobError (Nat × List Byte)
  | [] => .error .truncated
  | b0 :: bs =>
    let l := leadingOnes b0 8
    if bs.length < l then .error .truncated
    else if varValue b0 l bs > Config.maxU32 then .error .varTooLarge
    else .ok (varValue b0 l bs, bs.drop l)

/-- `jt[i]`: entry `i` of a jump-table field with entries of `z` bytes, clamped (R113). -/
def jumpEntry (z : Nat) (bs : List Byte) (i : Nat) : BitVec 32 :=
  BitVec.ofNat 32 (min (leNat ((bs.drop (i * z)).take z)) Config.jumpTableClamp)

/-- The jump table of `n` entries of `z` bytes; empty when `z = 0` (R113). -/
def jumpTable (n z : Nat) (bs : List Byte) : List (BitVec 32) :=
  if z = 0 then [] else (List.range n).map (jumpEntry z bs)

/-- Mask bit `i`, LSB first in each byte (R116). -/
def maskBit (bs : List Byte) (i : Nat) : Bool := (bs.getD (i / 8) 0).getLsbD (i % 8)

/-- The number of mask bytes for `n` code bytes (R110). -/
def maskBytes (n : Nat) : Nat := (n + 7) / 8

/-- Cuts the jump table, the code and the mask out of the bytes after the three lengths (R110, R112). -/
def decodeBody (jtLen z codeLen : Nat) (bs : List Byte) : Except BlobError Program :=
  let jtSize := jtLen * z
  let need := jtSize + codeLen + maskBytes codeLen
  if bs.length < need then .error .truncated
  else if need < bs.length then .error .trailing
  else
    .ok { code := (bs.drop jtSize).take codeLen,
          mask := (List.range codeLen).map (maskBit (bs.drop (jtSize + codeLen))),
          jt := jumpTable jtLen z bs }

/-- `ProgramDecoder`: decodes a program blob (R110–R116). -/
def decodeProgram (blob : List Byte) : Except BlobError Program :=
  match decodeVar blob with
  | .error e => .error e
  | .ok (_, []) => .error .truncated
  | .ok (jtLen, z :: bs) =>
    match decodeVar bs with
    | .error e => .error e
    | .ok (codeLen, rest) => decodeBody jtLen z.toNat codeLen rest

/-- The shortest `varU32` of a value below 2^32 (R111; notes/assumptions/9.md). -/
def encodeVar (v : Nat) : List Byte :=
  if v < 2 ^ 7 then [BitVec.ofNat 8 v]
  else if v < 2 ^ 14 then BitVec.ofNat 8 (0x80 + v / 2 ^ 8) :: leBytes 1 v
  else if v < 2 ^ 21 then BitVec.ofNat 8 (0xC0 + v / 2 ^ 16) :: leBytes 2 v
  else if v < 2 ^ 28 then BitVec.ofNat 8 (0xE0 + v / 2 ^ 24) :: leBytes 3 v
  else 0xF0 :: leBytes 4 v

/-- The value of up to 8 bits, LSB first. -/
def bitsNat : List Bool → Nat
  | [] => 0
  | b :: bs => b.toNat + 2 * bitsNat bs

/-- The mask as bytes, LSB first, its padding bits 0 (R116, R117). -/
def encodeMask (mask : List Bool) : List Byte :=
  (List.range (maskBytes mask.length)).map fun j => BitVec.ofNat 8 (bitsNat ((mask.drop (8 * j)).take 8))

/-- `serialize`: the blob of a program whose jump-table entries take `z` bytes (R110, R117). -/
def serialize (z : Byte) (p : Program) : List Byte :=
  encodeVar p.jt.length ++ z :: (encodeVar p.code.length ++
    (p.jt.flatMap (fun e => leBytes z.toNat e.toNat) ++ (p.code ++ encodeMask p.mask)))

/-- What `serialize` requires of the width `z` (R117): a program of some blob, and entries that fit. -/
def serializable (z : Byte) (p : Program) : Bool :=
  p.mask.length == p.code.length && p.code.length ≤ Config.maxU32 && p.jt.length ≤ Config.maxU32 &&
    (p.jt.isEmpty || z != 0) && p.jt.all (fun e => e.toNat < 2 ^ (8 * z.toNat))

end Sys2Proof.Machine
end

