-- ==== Sys2Proof/Machine/Builder.lean ====
section
/-! DEFINITION. The memory builder, by which the host makes the `mem` argument of reset
(spec/70_reset_and_hazards.md R443–R446). -/

namespace Sys2Proof.Machine

/-- A memory being built, and whether `finalize` has been called. -/
structure Builder where
  mem : Memory
  finalized : Bool
  deriving DecidableEq, Repr

/-- A builder with no page mapped. -/
def Builder.new : Builder := { mem := Memory.empty, finalized := false }

/-- The bytes of `data`, each with its address, from `start` on. -/
def dataCells (start : Nat) (data : List Byte) : List (Nat × Byte) :=
  ((List.range data.length).map (start + ·)).zip data

/-- What R446 requires of a range and its data. -/
def rangeOk (start stop : Nat) (data : List Byte) : Bool :=
  start % Config.pageSize == 0 && stop % Config.pageSize == 0 && start < stop &&
    stop ≤ Config.addrSpace && data.length ≤ stop - start

/-- Maps the pages of `[start, stop)` with state `st`, holding `data` and then zeros (R443, R444). A misuse is
refused (R446). -/
def Builder.setRange (st : PageState) (start stop : Nat) (data : List Byte) (b : Builder) :
    Except Refusal Builder :=
  let first := start / Config.pageSize
  let count := (stop - start) / Config.pageSize
  if b.finalized || !rangeOk start stop data || b.mem.anyMapped first count then .error .builderMisuse
  else .ok { b with mem := (b.mem.mapPages st first count).setBytes (dataCells start data) }

/-- `setReadablePages(start, end, data)` (R443). -/
def setReadablePages (start stop : Nat) (data : List Byte) (b : Builder) : Except Refusal Builder :=
  b.setRange .readable start stop data

/-- `setWriteablePages(start, end, data)` (R444). -/
def setWriteablePages (start stop : Nat) (data : List Byte) (b : Builder) : Except Refusal Builder :=
  b.setRange .writable start stop data

/-- What R445 and R446 require of the heap bounds. -/
def heapBoundsOk (heapStart heapEnd : Nat) : Bool :=
  heapStart % Config.pageSize == 0 && heapEnd % Config.pageSize == 0 && heapStart ≤ heapEnd &&
    heapEnd ≤ Config.addrSpace

/-- `finalize(heapStart, heapEnd)` (R445). -/
def finalize (heapStart heapEnd : Nat) (b : Builder) : Except Refusal Builder :=
  if b.finalized || !heapBoundsOk heapStart heapEnd ||
      b.mem.anyMapped (heapStart / Config.pageSize)
        (heapEnd / Config.pageSize - heapStart / Config.pageSize) then .error .builderMisuse
  else
    .ok { mem := { b.mem with heapStart := heapStart, heapEnd := heapEnd, heapPtr := heapStart,
                              heapTop := heapStart },
          finalized := true }

end Sys2Proof.Machine
end

