-- ==== Sys2Proof/Machine/HostCommands.lean ====
section
/-! DEFINITION. The host command interface (spec/60_exceptions.md R417): every command by which the host drives the
core between steps. Each is one atomic transaction. A command that only reads answers its value; one that changes
the core answers the new state (notes/assumptions/10.md). -/

namespace Sys2Proof.Machine

/-- What a command answers. -/
abbrev Reply (α : Type) := Except Refusal α

/-- Every command but `reset` needs `loaded = 1` (R417; spec/70_reset_and_hazards.md R442). -/
def whenLoaded {α : Type} (s : State) (r : Reply α) : Reply α :=
  if s.loaded then r else .error .notLoaded

/-! ## Reset (spec/70_reset_and_hazards.md R440–R442) -/

/-- What reset answers. -/
inductive ResetResult where
  /-- The core is loaded. -/
  | done (s : State)
  /-- The blob did not decode: the core is Unloaded, and the error goes to the host (R442). -/
  | decodeError (e : BlobError) (s : State)
  /-- The arguments are out of range (R440). -/
  | refused (r : Refusal)
  deriving DecidableEq, Repr

/-- What R440 requires of `pc0` and `gas0`. -/
def resetNumbersOk (P : Params) (pc0 gas0 : Int) : Bool :=
  decide (0 ≤ pc0) && decide (pc0 < (2 : Int) ^ 32) && decide (0 ≤ gas0) &&
    decide (gas0 ≤ (P.gasMax : Int))

/-- The register file that `regs` gives; all zero when it is omitted, none when it is out of range (R440, R441). -/
def resetRegs (regs : Option (List Int)) : Option (Vector Word 13) :=
  match regs with
  | none => some (Vector.replicate 13 0)
  | some l =>
    if l.length = 13 ∧ l.all (fun v => decide (0 ≤ v) && decide (v < (2 : Int) ^ 64)) then
      some (Vector.ofFn fun i => BitVec.ofInt 64 (l.getD i.val 0))
    else none

/-- The memory that `mem` gives: everything Unmapped when it is omitted, none without `finalize` (R441, R446). -/
def resetMem (mem : Option Builder) : Option Memory :=
  match mem with
  | none => some Memory.empty
  | some b => if b.finalized then some b.mem else none

/-- The core after a reset that succeeded (R441; spec/10_state.md R54). `faultIsWrite` is unspecified there
(notes/assumptions/3.md). -/
def loadedState (P : Params) (p : Program) (pc0 gas0 : Int) (x : Vector Word 13) (m : Memory) : State :=
  { params := P, loaded := true, prog := p, pc := BitVec.ofInt 32 pc0, x := x, status := .ok, exitParam := none,
    faultIsWrite := false, gas := gas0.toNat, initialGas := gas0.toNat, mem := m }

/-- The core after a reset whose blob failed to decode; what is unspecified keeps its value (R442;
notes/assumptions/5.md). -/
def unloadedFrom (s : State) : State :=
  { s with loaded := false, prog := emptyProgram, exitParam := none }

/-- `reset(blob, pc0, gas0, regs?, mem?)`. The arguments are checked before the blob (notes/assumptions/11.md). -/
def hostReset (blob : List Byte) (pc0 gas0 : Int) (regs : Option (List Int)) (mem : Option Builder)
    (s : State) : ResetResult :=
  match resetNumbersOk s.params pc0 gas0, resetRegs regs, resetMem mem with
  | true, some x, some m =>
    match decodeProgram blob with
    | .error e => .decodeError e (unloadedFrom s)
    | .ok p => .done (loadedState s.params p pc0 gas0 x m)
  | _, _, _ => .refused .resetArguments

/-! ## Stepping (spec/40_step.md R160, R169; spec/60_exceptions.md R412) -/

/-- Up to `n` steps, as long as the status stays OK. -/
def runSteps : Nat → State → Out
  | 0, s => .next s
  | n + 1, s =>
    match nextStep s with
    | .next t => if t.status = .ok then runSteps n t else .next t
    | .fault f => .fault f
    | .refused r => .refused r

/-- `runProgram()` (spec/40_step.md R169). When every gas cost is at least 1, `gas + 1` steps suffice; with a cost of
0 that number is the fuel, and a status OK says that it ran out (notes/assumptions/16.md). The status it returns is that of the last state. -/
def runProgram (s : State) : Out := runSteps (s.gas + 1) s

/-! ## The exit record (R406, R418, R419) -/

/-- `getStatus()`. -/
def getStatus (s : State) : Reply Byte := whenLoaded s (.ok s.status.code)

/-- `getExitParam()`; `none` when it is empty. -/
def getExitParam (s : State) : Reply (Option (BitVec 32)) := whenLoaded s (.ok s.exitParam)

/-- `getFaultIsWrite()`, refused unless the status is FAULT (R406; spec/10_state.md R43). -/
def getFaultIsWrite (s : State) : Reply Bool :=
  whenLoaded s (if s.status = .fault then .ok s.faultIsWrite else .error .faultIsWriteUnspecified)

/-- `getPC()` (R419). -/
def getPC (s : State) : Reply (BitVec 32) := whenLoaded s (.ok s.pc)

/-! ## Registers (spec/10_state.md R35, R36) -/

/-- `get(idx)`. -/
def getReg (idx : Nat) (s : State) : Reply Word :=
  whenLoaded s (if h : idx < 13 then .ok (s.reg ⟨idx, h⟩) else .error .registerIndex)

/-- `set(idx, v)`. -/
def setRegCommand (idx : Nat) (v : Word) (s : State) : Reply State :=
  whenLoaded s (if h : idx < 13 then .ok (s.setReg ⟨idx, h⟩ v) else .error .registerIndex)

/-- `getAllU64()`: the 13 values in index order. -/
def getAllU64 (s : State) : Reply (List Word) := whenLoaded s (.ok s.x.toList)

/-- `copyFrom(other)`: overwrites all 13 registers. -/
def copyFrom (other : Vector Word 13) (s : State) : Reply State := whenLoaded s (.ok { s with x := other })

/-- The number of bytes of the register buffer (spec/00_scope.md R8). -/
def regBufferSize : Nat := 104

/-- The register file as a little-endian buffer of 104 bytes (R35). -/
def regBuffer (x : Vector Word 13) : List Byte := x.toList.flatMap fun v => leBytes 8 v.toNat

/-- The register file that a buffer of 104 bytes holds (R35). -/
def bufferRegs (buf : List Byte) : Vector Word 13 :=
  Vector.ofFn fun i => BitVec.ofNat 64 (leNat ((buf.drop (8 * i.val)).take 8))

/-- Reads `n` bytes of the register buffer from offset `o` on (R35). -/
def readRegBuffer (o n : Nat) (s : State) : Reply (List Byte) :=
  whenLoaded s (if o + n ≤ regBufferSize then .ok (((regBuffer s.x).drop o).take n) else .error .registerIndex)

/-- Writes bytes into the register buffer from offset `o` on: a write of the registers they belong to (R35;
notes/assumptions/19.md). -/
def writeRegBuffer (o : Nat) (bs : List Byte) (s : State) : Reply State :=
  whenLoaded s
    (if o + bs.length ≤ regBufferSize then
      .ok { s with x := bufferRegs ((regBuffer s.x).take o ++ (bs ++ (regBuffer s.x).drop (o + bs.length))) }
    else .error .registerIndex)

/-! ## Gas (spec/10_state.md R45, R47) -/

/-- `gas.get()`. -/
def getGas (s : State) : Reply Nat := whenLoaded s (.ok s.gas)

/-- `gas.set(g)`, refused outside `[0, GAS_MAX]`; `initialGas` is unchanged (R45). -/
def setGas (g : Int) (s : State) : Reply State :=
  whenLoaded s (if 0 ≤ g ∧ g ≤ (s.params.gasMax : Int) then .ok { s with gas := g.toNat }
    else .error .gasOutOfRange)

/-- `gas.used()` (R47). -/
def getUsedGas (s : State) : Reply Nat := whenLoaded s (.ok s.usedGas)

/-! ## The memory port (spec/20_memory.md R90, R91) -/

/-- `storeFrom(addr, bytes)`: the new state, or the page fault that goes back to the host. -/
def storeFrom (addr : Addr) (bs : List Byte) (s : State) : Reply (Except Fault State) :=
  whenLoaded s
    (if bs.length ≤ Config.addrSpace then
      .ok (match s.mem.writeBytes addr bs with
        | .error f => .error f
        | .ok m => .ok { s with mem := m })
    else .error .accessTooLong)

/-- `loadInto(buf, addr)` for a buffer of `n` bytes: the bytes, or the page fault, on which the buffer stays as it
was. -/
def loadIntoBuffer (n : Nat) (addr : Addr) (s : State) : Reply (Except Fault (List Byte)) :=
  whenLoaded s (if n ≤ Config.addrSpace then .ok (s.mem.readBytes addr n) else .error .accessTooLong)

/-- The 4096 bytes of page `p`. -/
def Memory.pageBytes (m : Memory) (p : Nat) : List Byte :=
  (List.range Config.pageSize).map fun i => m.byte (p * Config.pageSize + i)

/-- `getPageDump(p)`: none for an Unmapped page or one that does not exist (R91). -/
def getPageDump (p : Nat) (s : State) : Reply (Option (List Byte)) :=
  whenLoaded s (.ok (if p < Config.numPages ∧ s.mem.pageState p ≠ .unmapped then some (s.mem.pageBytes p)
    else none))

/-! ## Introspection (spec/30_encoding.md R151; spec/40_step.md R172) -/

/-- `disassemble()`. -/
def disassemble (s : State) : Reply (List String) := whenLoaded s (.ok (disassembly s.params s.prog))

/-- `calculateBlockGasCost()`. -/
def calculateBlockGasCost (s : State) : Reply (List (Nat × Nat)) :=
  whenLoaded s (.ok (blockGasCosts s.params s.prog))

/-! ## The commands that can change a loaded core (R417) -/

/-- A command between resets that can change the core. Every other command but `reset` only reads. -/
inductive Command where
  | nextStep
  | runProgram
  | resumeHost
  | set (idx : Nat) (v : Word)
  | copyFrom (other : Vector Word 13)
  | writeRegBuffer (offset : Nat) (bytes : List Byte)
  | setGas (g : Int)
  | storeFrom (addr : Addr) (bytes : List Byte)
  deriving DecidableEq, Repr

/-- The answer of a step, a run or a resume as the reply to a command. None of them ends in a fault of the model; a
page fault is a status. -/
def stepReply (s : State) : Out → Reply State
  | .next t => .ok t
  | .fault _ => .ok s
  | .refused r => .error r

/-- The core after a command. A page fault of the memory port goes back to the host and changes nothing. -/
def Command.apply (c : Command) (s : State) : Reply State :=
  match c with
  | .nextStep => stepReply s (Sys2Proof.Machine.nextStep s)
  | .runProgram => stepReply s (Sys2Proof.Machine.runProgram s)
  | .resumeHost => stepReply s (Sys2Proof.Machine.resumeHost s)
  | .set idx v => setRegCommand idx v s
  | .copyFrom other => Sys2Proof.Machine.copyFrom other s
  | .writeRegBuffer o bs => Sys2Proof.Machine.writeRegBuffer o bs s
  | .setGas g => Sys2Proof.Machine.setGas g s
  | .storeFrom a bs =>
    match Sys2Proof.Machine.storeFrom a bs s with
    | .ok (.ok t) => .ok t
    | .ok (.error _) => .ok s
    | .error r => .error r

end Sys2Proof.Machine
end

