-- ==== Sys2Proof/Safety.lean ====
section
/-! DEFINITION. The terms in which claims about runs are stated: the invariant of a core, and the observation of a
finished run (spec/70_reset_and_hazards.md R454). -/

namespace Sys2Proof

/-- The program is one that a blob decodes to (spec/10_state.md R50; spec/30_encoding.md R110, R111). -/
def Program.wf (p : Program) : Bool :=
  p.mask.length == p.code.length && p.code.length ≤ Config.maxU32

namespace Machine

/-- Statuses that a step does not leave (spec/10_state.md R41). -/
def Status.sticky (st : Status) : Bool := st != .ok

/-- Statuses that only a reset leaves (spec/60_exceptions.md R411). -/
def Status.terminal : Status → Bool
  | .ok | .host => false
  | .halt | .panic | .fault | .oog => true

/-- The gas counter is in range (spec/10_state.md R44). -/
def State.gasWf (s : State) : Bool := s.gas ≤ s.params.gasMax && s.initialGas ≤ s.params.gasMax

/-- `exitParam` is held with HOST and FAULT, and is empty in every other status (spec/10_state.md R42). -/
def State.exitWf (s : State) : Bool :=
  s.exitParam.isSome == (s.status == .host || s.status == .fault)

/-- What every reachable state satisfies. -/
structure State.Inv (s : State) : Prop where
  params : s.params.wf = true
  program : s.prog.wf = true
  gas : s.gasWf = true
  exit : s.exitWf = true
  memory : s.mem.wf = true
  heap : s.mem.heapWf = true

/-- The observation of a finished run (spec/70_reset_and_hazards.md R454): `faultIsWrite` only with FAULT. -/
structure Observation where
  status : Status
  pc : BitVec 32
  exitParam : Option (BitVec 32)
  faultIsWrite : Option Bool
  x : Vector Word 13
  pages : List (Nat × PageState)
  cells : List Host.Cell
  heapPtr : Nat
  heapTop : Nat
  gas : Nat
  used : Nat
  deriving DecidableEq, Repr

/-- The observation of a state. -/
def State.observe (s : State) : Observation :=
  { status := s.status, pc := s.pc, exitParam := s.exitParam,
    faultIsWrite := if s.status = .fault then some s.faultIsWrite else none,
    x := s.x, pages := s.mem.pages, cells := s.mem.cells, heapPtr := s.mem.heapPtr,
    heapTop := s.mem.heapTop, gas := s.gas, used := s.usedGas }

/-! ## What an instruction leaves as it was -/

/-- Memory reads as before: every page state, every byte and every heap register. -/
structure Memory.Same (m m' : Memory) : Prop where
  page : ∀ p, m'.pageState p = m.pageState p
  byte : ∀ a, m'.byte a = m.byte a
  heapStart : m'.heapStart = m.heapStart
  heapEnd : m'.heapEnd = m.heapEnd
  heapPtr : m'.heapPtr = m.heapPtr
  heapTop : m'.heapTop = m.heapTop

/-- The page table and the heap registers are as before, and every byte outside the `n` bytes of an access at
`addr` reads as before. -/
structure Memory.SameOutside (addr : Addr) (n : Nat) (m m' : Memory) : Prop where
  page : ∀ p, m'.pageState p = m.pageState p
  byte : ∀ a, (∀ i, i < n → a ≠ accessAddr addr i) → m'.byte a = m.byte a
  heapStart : m'.heapStart = m.heapStart
  heapEnd : m'.heapEnd = m.heapEnd
  heapPtr : m'.heapPtr = m.heapPtr
  heapTop : m'.heapTop = m.heapTop

/-- What no instruction's execution changes: the parameters, the program and the gas counter (the step charges gas before it). -/
structure State.SameFixed (s t : State) : Prop where
  params : t.params = s.params
  loaded : t.loaded = s.loaded
  prog : t.prog = s.prog
  gas : t.gas = s.gas
  initialGas : t.initialGas = s.initialGas

/-- The commit of an instruction that raised nothing, with the next pc `npc` (spec/40_step.md R167). -/
structure State.Committed (npc : BitVec 32) (s t : State) : Prop where
  fixed : s.SameFixed t
  status : t.status = .ok
  exitParam : t.exitParam = none
  faultIsWrite : t.faultIsWrite = s.faultIsWrite
  pc : t.pc = npc

/-- `pc + 1 + ℓ`, for the instruction at the pc (spec/40_step.md R177). -/
def State.after (s : State) : BitVec 32 := BitVec.ofNat 32 (s.pc.toNat + 1 + skip s.params s.prog.mask s.pc.toNat)

/-- The instruction went on to the next one and wrote `v` to `rd`, and nothing else changed. -/
structure State.Wrote (rd : Reg) (v : Word) (s t : State) : Prop where
  commit : s.Committed s.after t
  dest : t.reg rd = v
  regs : ∀ r, r ≠ rd → t.reg r = s.reg r
  mem : s.mem.Same t.mem

/-- The instruction went on with the next pc `npc`, and nothing else changed. -/
structure State.WentTo (npc : BitVec 32) (s t : State) : Prop where
  commit : s.Committed npc t
  regs : ∀ r, t.reg r = s.reg r
  mem : s.mem.Same t.mem

/-- The instruction wrote `v` to `rd` and went on with the next pc `npc`, and nothing else changed. -/
structure State.WroteAndWentTo (rd : Reg) (v : Word) (npc : BitVec 32) (s t : State) : Prop where
  commit : s.Committed npc t
  dest : t.reg rd = v
  regs : ∀ r, r ≠ rd → t.reg r = s.reg r
  mem : s.mem.Same t.mem

/-- The instruction stored the `n` low bytes of `v` at `addr`, least significant first, and went on to the next one,
and nothing else changed. -/
structure State.Stored (n : Nat) (addr : Addr) (v : Word) (s t : State) : Prop where
  commit : s.Committed s.after t
  regs : ∀ r, t.reg r = s.reg r
  bytes : ∀ i, i < n → (t.mem.byte (accessAddr addr i)).toNat = v.toNat / 256 ^ i % 256
  outside : Memory.SameOutside addr n s.mem t.mem

/-- The instruction ended in an exception that records status `st`, exit parameter `e` and `faultIsWrite` `w`, with
the pc at `npc`, and nothing else changed (spec/60_exceptions.md R410). -/
structure State.Ended (st : Status) (e : Option (BitVec 32)) (w : Bool) (npc : BitVec 32) (s t : State) :
    Prop where
  fixed : s.SameFixed t
  status : t.status = st
  exitParam : t.exitParam = e
  faultIsWrite : t.faultIsWrite = w
  pc : t.pc = npc
  regs : ∀ r, t.reg r = s.reg r
  mem : s.mem.Same t.mem

/-- Executing `i` answers a next state that satisfies `P`. -/
def Yields (i : Instr) (s : State) (P : State → Prop) : Prop := ∃ t, exec i s = .next t ∧ P t

/-- Executing `i` writes `v` to `rd`, goes on to the next instruction and changes nothing else. -/
def Computes (i : Instr) (rd : Reg) (v : Word) (s : State) : Prop := Yields i s (s.Wrote rd v)

/-- A step of the core answers a next state that satisfies `P`. -/
def StepYields (s : State) (P : State → Prop) : Prop := ∃ t, step s = .next t ∧ P t

/-! ## The shapes of the instructions' results -/

/-- `x[r]` as an unsigned number (spec/00_scope.md R12). -/
def State.u (s : State) (r : Reg) : Nat := (s.reg r).toNat

/-- `s64(x[r])` (spec/00_scope.md R11). -/
def State.i (s : State) (r : Reg) : Int := s64 (s.reg r)

/-- The little-endian value of the `n` bytes of an access (spec/20_memory.md R80). -/
def Memory.valueAt (m : Memory) (addr : Addr) (n : Nat) : Nat :=
  ∑ i ∈ Finset.range n, (m.byte (accessAddr addr i)).toNat * 2 ^ (8 * i)

/-- When its `n` bytes at `addr` are readable, `i` writes their value, extended by `ext`, to `rd`. -/
def Loads (i : Instr) (n : Nat) (addr : Addr) (ext : Nat → Word) (rd : Reg) (s : State) : Prop :=
  (∀ k, k < n → s.mem.canRead (accessAddr addr k) = true) → Computes i rd (ext (s.mem.valueAt addr n)) s

/-- When its `n` bytes at `addr` are writable, `i` stores the low bytes of `v` there. -/
def Stores (i : Instr) (n : Nat) (addr : Addr) (v : Word) (s : State) : Prop :=
  s.mem.wf = true → (∀ k, k < n → s.mem.canWrite (accessAddr addr k) = true) → Yields i s (s.Stored n addr v)

/-- `i` branches to `pc + off` when `c` holds: to a block start only, with PANIC for any other target, and on to the
next instruction when `c` fails (spec/40_step.md R175). -/
def Branches (i : Instr) (c : Prop) (off : Int) (s : State) : Prop :=
  (c → isBB s.params s.prog (s.pc.toNat + off) = true →
    Yields i s (s.WentTo (BitVec.ofInt 32 (s.pc.toNat + off)))) ∧
  (c → isBB s.params s.prog (s.pc.toNat + off) = false →
    Yields i s (s.Ended .panic none s.faultIsWrite s.pc)) ∧
  (¬c → Yields i s (s.WentTo s.after))

/-- `rotrN(v, k)` (spec/48_shift_rotate.md R360). -/
def rotrSpec (n v k : Nat) : Nat := if k = 0 then v else (v / 2 ^ k + v * 2 ^ (n - k)) % 2 ^ n

/-- `rotlN(v, k)` (spec/48_shift_rotate.md R360). -/
def rotlSpec (n v k : Nat) : Nat := if k = 0 then v else (v * 2 ^ k + v / 2 ^ (n - k)) % 2 ^ n

/-- The terminating set `T`, by instruction number (spec/40_step.md R171). -/
def terminatingSet : List Nat :=
  [0, 1, 40, 50, 80, 81, 82, 83, 84, 85, 86, 87, 88, 89, 90, 170, 171, 172, 173, 174, 175, 180]

/-- The instruction of an opcode byte is in `T`; an unknown opcode is not (spec/40_step.md R170). -/
def EndsBlock (P : Params) (op : Nat) : Prop := ∃ r, P.row op = some r ∧ r.op ∈ terminatingSet

/-! ## Gas over a run (spec/40_step.md R179) -/

/-- The static cost that a step counts: that of the opcode at the pc, if the step passes phase 2. -/
def State.staticCost (s : State) : Nat :=
  if s.loaded ∧ s.status = .ok ∧ atBoundary s.prog s.pc.toNat then opGas s.params s.opcode else 0

/-- The sum of the static costs of `n` steps. -/
def costOver : Nat → State → Nat
  | 0, _ => 0
  | n + 1, s => s.staticCost + match step s with
    | .next t => costOver n t
    | _ => 0

/-! ## What an instruction accesses, and where it can jump -/

/-- A data access: its address, its width in bytes and whether it is a write. -/
structure Access where
  addr : Addr
  width : Nat
  isWrite : Bool
  deriving DecidableEq, Repr

/-- The one data access of a load or store (spec/43_load.md; spec/44_store.md; spec/20_memory.md R79); none for
every other instruction. -/
def accessOf (i : Instr) (s : State) : Option Access :=
  match i with
  | .loadU8 _ x | .loadI8 _ x => some ⟨absAddr x, 1, false⟩
  | .loadU16 _ x | .loadI16 _ x => some ⟨absAddr x, 2, false⟩
  | .loadU32 _ x | .loadI32 _ x => some ⟨absAddr x, 4, false⟩
  | .loadU64 _ x => some ⟨absAddr x, 8, false⟩
  | .loadIndU8 _ b x | .loadIndI8 _ b x => some ⟨s.indAddr b x, 1, false⟩
  | .loadIndU16 _ b x | .loadIndI16 _ b x => some ⟨s.indAddr b x, 2, false⟩
  | .loadIndU32 _ b x | .loadIndI32 _ b x => some ⟨s.indAddr b x, 4, false⟩
  | .loadIndU64 _ b x => some ⟨s.indAddr b x, 8, false⟩
  | .storeImmU8 x _ | .storeU8 _ x => some ⟨absAddr x, 1, true⟩
  | .storeImmU16 x _ | .storeU16 _ x => some ⟨absAddr x, 2, true⟩
  | .storeImmU32 x _ | .storeU32 _ x => some ⟨absAddr x, 4, true⟩
  | .storeImmU64 x _ | .storeU64 _ x => some ⟨absAddr x, 8, true⟩
  | .storeImmIndU8 b x _ | .storeIndU8 _ b x => some ⟨s.indAddr b x, 1, true⟩
  | .storeImmIndU16 b x _ | .storeIndU16 _ b x => some ⟨s.indAddr b x, 2, true⟩
  | .storeImmIndU32 b x _ | .storeIndU32 _ b x => some ⟨s.indAddr b x, 4, true⟩
  | .storeImmIndU64 b x _ | .storeIndU64 _ b x => some ⟨s.indAddr b x, 8, true⟩
  | _ => none

/-- The byte at `a` may be accessed so (spec/20_memory.md R73). -/
def Memory.permits (m : Memory) (isWrite : Bool) (a : Nat) : Bool :=
  if isWrite then m.canWrite a else m.canRead a

/-- Byte `k` of the access is the first that the page table does not permit (spec/20_memory.md R75, R76). -/
def Memory.FirstOffence (m : Memory) (c : Access) (k : Nat) : Prop :=
  k < c.width ∧ m.permits c.isWrite (accessAddr c.addr k) = false ∧
    ∀ j, j < k → m.permits c.isWrite (accessAddr c.addr j) = true

/-- A static jump that is taken, with its offset (spec/42_branch.md): the condition is that of the instruction's
rule. None for an instruction that makes no static jump in this state. -/
def takenOffset (i : Instr) (s : State) : Option Int :=
  let taken (c : Prop) [Decidable c] (off : Int) : Option Int := if c then some off else none
  match i with
  | .jump off | .loadImmJump _ _ off => some off
  | .branchEqImm a x off => taken (s.reg a = x) off
  | .branchNeImm a x off => taken (s.reg a ≠ x) off
  | .branchLtUImm a x off => taken ((s.reg a).toNat < x.toNat) off
  | .branchLeUImm a x off => taken ((s.reg a).toNat ≤ x.toNat) off
  | .branchGeUImm a x off => taken ((s.reg a).toNat ≥ x.toNat) off
  | .branchGtUImm a x off => taken ((s.reg a).toNat > x.toNat) off
  | .branchLtSImm a x off => taken (s64 (s.reg a) < s64 x) off
  | .branchLeSImm a x off => taken (s64 (s.reg a) ≤ s64 x) off
  | .branchGeSImm a x off => taken (s64 (s.reg a) ≥ s64 x) off
  | .branchGtSImm a x off => taken (s64 (s.reg a) > s64 x) off
  | .branchEq a b off => taken (s.reg a = s.reg b) off
  | .branchNe a b off => taken (s.reg a ≠ s.reg b) off
  | .branchLtU a b off => taken ((s.reg a).toNat < (s.reg b).toNat) off
  | .branchLtS a b off => taken (s64 (s.reg a) < s64 (s.reg b)) off
  | .branchGeU a b off => taken ((s.reg a).toNat ≥ (s.reg b).toNat) off
  | .branchGeS a b off => taken (s64 (s.reg a) ≥ s64 (s.reg b)) off
  | _ => none

/-- The address of a dynamic jump, from the registers before the instruction (spec/42_branch.md R211, R229); none
for an instruction that makes none. -/
def dynamicAddress (i : Instr) (s : State) : Option Addr :=
  match i with
  | .jumpInd a x => some (s.indAddr a x)
  | .loadImmJumpInd _ b _ y => some (s.indAddr b y)
  | _ => none

/-- The block start that a dynamic address selects through the jump table (spec/40_step.md R176); none when it
selects none. -/
def dynamicTarget (P : Params) (p : Program) (a : Addr) : Option (BitVec 32) :=
  if a ≠ 0 ∧ a.toNat % P.jumpAlign = 0 then
    (p.jt[a.toNat / P.jumpAlign - 1]?).filter fun t => isBB P p t.toNat
  else none

/-- The step passes the checks before the instruction: loaded, OK, at an instruction boundary, with the gas for it
(spec/40_step.md R161, R162, R164). -/
def State.Ready (s : State) : Prop :=
  s.loaded = true ∧ s.status = .ok ∧ atBoundary s.prog s.pc.toNat = true ∧ opGas s.params s.opcode ≤ s.gas

/-- The state in which the instruction executes: its gas is charged. -/
def State.charged (s : State) : State := { s with gas := s.gas - opGas s.params s.opcode }

end Machine

end Sys2Proof
end

