-- ==== Sys2Proof/Certificates/Slice0/Obligations.lean ====
section
/-! DEFINITION. The statements for the provers. OBLIGATIONS.json says of each what it formalises. -/

section

open Sys2Proof Sys2Proof.Machine

/-! ## Encoding -/

/-- Decoding the encoding of an instruction gives it back: with every opcode that the opcode table has for it, in the
shape that the table gives that opcode, and with every length that holds its operands (spec/30_encoding.md R118,
R131–R143; spec/00_scope.md R9). Three points are the model's choice: that an operand which the table's shape lacks is 0
(notes/assumptions/1.md), the sign extension from 40, 48 and 56 bits with `MAX_IMM` 5 to 7 (notes/assumptions/23.md), and
that `MAX_IMM` limits branch offsets too (notes/assumptions/24.md). -/
def Obligations.DecodeOfEncodeAs : Prop :=
  ∀ (P : Params) (op : Nat) (r : OpRow) (i : Instr) (lX lY : Nat) (rest : List Byte), P.wf = true → op < 256 →
    P.row op = some r → r.op = i.opcode → i.args.fits P r.shape lX lY = true →
    (encodeAs op r.shape lX lY i).length ≤ 25 ∧
    decodeBytes P (encodeAs op r.shape lX lY i ++ rest) ((encodeAs op r.shape lX lY i).length - 1) = .ok i

/-- Every instruction of which the encoder has an encoding is read back from it, and the encoding is the shortest one
(spec/30_encoding.md R149; that the encoder takes the shortest is notes/assumptions/8.md). The default table has every
instruction, at its own opcode and shape. In another table it is the model's choice which opcode the encoder takes, and
that an operand which the shape lacks is 0 (notes/assumptions/1.md); so are the sign extension from 40, 48 and 56 bits
with `MAX_IMM` 5 to 7 (notes/assumptions/23.md) and that `MAX_IMM` limits branch offsets too (notes/assumptions/24.md). -/
def Obligations.DecodeOfEncode : Prop :=
  (∀ (P : Params) (i : Instr) (rest : List Byte), P.wf = true → P.encodes i = true →
    decodeBytes P (encode P i ++ rest) ((encode P i).length - 1) = .ok i ∧
    ∀ lX lY, i.args.fits P (P.formOf i).2 lX lY = true →
      (encode P i).length ≤ (encodeAs (P.formOf i).1 (P.formOf i).2 lX lY i).length) ∧
  ∀ i : Instr, Params.default.formOf i = (i.opcode, i.shape) ∧ Params.default.encodes i = i.wf .default

/-- Whatever the decoder answers is what the opcode table has for the first byte, with operands in the range of the
shape that the table gives it; and in the default table it is well formed and has that byte as its opcode
(spec/30_encoding.md R119, R128). Three points are the model's choice: that an operand which the table's shape lacks is
0 (notes/assumptions/1.md), the sign extension from 40, 48 and 56 bits with `MAX_IMM` 5 to 7 (notes/assumptions/23.md),
and that `MAX_IMM` limits branch offsets too (notes/assumptions/24.md). -/
def Obligations.DecodedIsWellFormed : Prop :=
  (∀ (P : Params) (bs : List Byte) (l : Nat) (i : Instr), P.wf = true → decodeBytes P bs l = .ok i →
    ∃ r, P.row (byteAt bs 0) = some r ∧ r.op = i.opcode ∧ i.args.wf P r.shape = true ∧
      (P.opcodeOf i.opcode).isSome = true) ∧
  ∀ (bs : List Byte) (l : Nat) (i : Instr), decodeBytes .default bs l = .ok i →
    i.wf .default = true ∧ i.opcode = byteAt bs 0

/-- With the default opcode table, one word of each shape, written out from the spec's layouts, decodes to its instruction
(spec/30_encoding.md R131–R143). -/
def Obligations.SpecWordsDecode : Prop :=
  decodeBytes .default [0x01] 0 = .ok .fallthrough ∧
  decodeBytes .default [0x0A, 0x64] 1 = .ok (.ecalli 0x64) ∧
  decodeBytes .default [0x14, 0x01, 0x88, 0x77, 0x66, 0x55, 0x44, 0x33, 0x22, 0x11] 9 =
    .ok (.loadImm64 1 0x1122334455667788) ∧
  decodeBytes .default [0x1F, 0x03, 0x00, 0x00, 0x02, 0x34, 0x12] 6 = .ok (.storeImmU16 0x20000 0x1234) ∧
  decodeBytes .default [0x28, 0xFC] 1 = .ok (.jump (-4)) ∧
  decodeBytes .default [0x33, 0x01, 0xFE] 2 = .ok (.loadImm 1 0xFFFFFFFFFFFFFFFE) ∧
  decodeBytes .default [0x46, 0x11, 0x10, 0xAB] 3 = .ok (.storeImmIndU8 1 0x10 0xFFFFFFFFFFFFFFAB) ∧
  decodeBytes .default [0x53, 0x12, 0x05, 0x08] 3 = .ok (.branchLtUImm 2 5 8) ∧
  decodeBytes .default [0x64, 0x12] 1 = .ok (.moveReg 1 2) ∧
  decodeBytes .default [0x83, 0x21, 0x01] 2 = .ok (.addImm32 1 2 1) ∧
  decodeBytes .default [0xAC, 0x21, 0x06] 2 = .ok (.branchLtU 1 2 6) ∧
  decodeBytes .default [0xB4, 0x21, 0x01, 0x07, 0x02] 4 = .ok (.loadImmJumpInd 1 2 7 2) ∧
  decodeBytes .default [0xBE, 0x21, 0x03] 2 = .ok (.add32 1 2 3) ∧
  decodeBytes .default [0xBE, 0xFD, 0xFF] 2 = .ok (.add32 12 12 12)

/-- The 117 unknown opcodes, those without a row in the opcode table, behave as TRAP: they are charged its cost and end
the step with PANIC (spec/30_encoding.md R145; TRAP's opcode in another table is notes/assumptions/1.md). -/
def Obligations.UnknownOpcodesPanic : Prop :=
  ((List.range 256).filter fun op => (Params.default.row op).isNone).length = 117 ∧
  (∀ op, op < 256 → (Params.default.row op = none ↔
    (2 ≤ op ∧ op ≤ 9) ∨ (11 ≤ op ∧ op ≤ 19) ∨ (21 ≤ op ∧ op ≤ 29) ∨ (34 ≤ op ∧ op ≤ 39) ∨
    (41 ≤ op ∧ op ≤ 49) ∨ (63 ≤ op ∧ op ≤ 69) ∨ (74 ≤ op ∧ op ≤ 79) ∨ (91 ≤ op ∧ op ≤ 99) ∨
    (112 ≤ op ∧ op ≤ 119) ∨ (162 ≤ op ∧ op ≤ 169) ∨ (176 ≤ op ∧ op ≤ 179) ∨
    (181 ≤ op ∧ op ≤ 189) ∨ 231 ≤ op)) ∧
  Params.default.trapOpcode = 0 ∧
  ∀ s : State, s.loaded = true → s.status = .ok → atBoundary s.prog s.pc.toNat = true →
    s.params.row s.opcode = none →
    (s.params.gasCost s.params.trapOpcode ≤ s.gas →
      step s = .next { s with status := .panic, exitParam := none,
                              gas := s.gas - s.params.gasCost s.params.trapOpcode }) ∧
    (s.gas < s.params.gasCost s.params.trapOpcode → step s = .next { s with status := .oog, gas := 0 })

/-- The skip is the distance to the next instruction start, at most `MAX_SKIP`, by default 24, and gives the length and
the default next pc (spec/30_encoding.md R125). -/
def Obligations.SkipIsDistanceToNextStart : Prop :=
  (∀ (P : Params) (mask : List Bool) (pc : Nat), skip P mask pc ≤ P.maxSkip ∧
    (∀ j, j < skip P mask pc → maskStar mask (pc + 1 + j) = false) ∧
    (skip P mask pc < P.maxSkip → maskStar mask (pc + 1 + skip P mask pc) = true)) ∧
  Params.default.maxSkip = 24 ∧
  ∀ s : State, s.nextPC = BitVec.ofNat 32 (s.pc.toNat + (1 + skip s.params s.prog.mask s.pc.toNat))

/-- The fields of an instruction: register fields are clamped to 12, length fields to `MAX_IMM`, by default 4,
immediates and offsets are little-endian and sign-extended (spec/30_encoding.md R122, R123, R124, R126). The sign
extension of immediates of 5 to 7 bytes is the model's choice (notes/assumptions/23.md), and so is that `MAX_IMM` limits
branch offsets too (notes/assumptions/24.md). -/
def Obligations.OperandFields : Prop :=
  (∀ v, (regOf v).val = min 12 v) ∧
  (∀ (P : Params) (b : Nat), lenField P b = min P.maxImm (b % 8)) ∧
  (∀ (P : Params) (l used : Nat), lenRest P l used = min P.maxImm (l - used)) ∧
  Params.default.maxImm = 4 ∧
  ∀ (bs : List Byte) (o len : Nat), len ≤ 7 →
    fieldAt bs o len = ∑ i ∈ Finset.range len, byteAt bs (o + i) * 2 ^ (8 * i) ∧
    offAt bs o len =
      (if 2 * fieldAt bs o len < 2 ^ (8 * len) then (fieldAt bs o len : Int)
        else (fieldAt bs o len : Int) - 2 ^ (8 * len)) ∧
    immAt bs o len = u64 (offAt bs o len)

/-! ## The program blob -/

/-- `varU32` decodes by its number of leading ones, canonical or not, and fails above 2^32 − 1 or past the end; the
encoder's form is one of those (spec/30_encoding.md R111, R112). -/
def Obligations.VarU32Decodes : Prop :=
  (∀ (l high : Nat) (low rest : List Byte), l ≤ 7 → high < 2 ^ (7 - l) → low.length = l →
    decodeVar (BitVec.ofNat 8 (256 - 2 ^ (8 - l) + high) :: (low ++ rest)) =
      if 2 ^ 32 ≤ high * 2 ^ (8 * l) + leNat low then .error .varTooLarge
      else .ok (high * 2 ^ (8 * l) + leNat low, rest)) ∧
  (∀ low rest : List Byte, low.length = 8 →
    decodeVar (0xFF :: (low ++ rest)) =
      if 2 ^ 32 ≤ leNat low then .error .varTooLarge else .ok (leNat low, rest)) ∧
  (∀ (l high : Nat) (low : List Byte), l ≤ 7 → high < 2 ^ (7 - l) → low.length < l →
    decodeVar (BitVec.ofNat 8 (256 - 2 ^ (8 - l) + high) :: low) = .error .truncated) ∧
  (∀ low : List Byte, low.length < 8 → decodeVar (0xFF :: low) = .error .truncated) ∧
  decodeVar [] = .error .truncated ∧
  ∀ (v : Nat) (rest : List Byte), v < 2 ^ 32 → decodeVar (encodeVar v ++ rest) = .ok (v, rest)

/-- What the bytes after the three lengths decode to: the code verbatim, the mask bit by bit, the jump table entry by
entry and clamped (spec/30_encoding.md R113, R116). -/
def Obligations.BlobBodyDecodes : Prop :=
  ∀ (jtLen z codeLen : Nat) (jtBytes code maskB : List Byte),
    jtBytes.length = jtLen * z → code.length = codeLen → maskB.length = (codeLen + 7) / 8 →
    ∃ p, decodeBody jtLen z codeLen (jtBytes ++ (code ++ maskB)) = .ok p ∧
      p.code = code ∧ p.mask.length = codeLen ∧
      (∀ i, i < codeLen → p.mask.getD i false = (maskB.getD (i / 8) 0).getLsbD (i % 8)) ∧
      (z = 0 → p.jt = []) ∧
      (0 < z → p.jt.length = jtLen ∧
        ∀ i, i < jtLen →
          (p.jt.getD i 0).toNat = min (leNat ((jtBytes.drop (i * z)).take z)) 0xFFFFFFFF)

/-- Serializing a program and decoding the blob gives the program back; the blob has the layout of R110, with padding
bits 0 (spec/30_encoding.md R110, R117; the form of the two varU32 is notes/assumptions/9.md). -/
def Obligations.BlobRoundTrip : Prop :=
  ∀ (z : Byte) (p : Program), serializable z p = true →
    decodeProgram (serialize z p) = .ok p ∧
    ∃ jtBytes maskB : List Byte,
      serialize z p =
        encodeVar p.jt.length ++ z :: (encodeVar p.code.length ++ (jtBytes ++ (p.code ++ maskB))) ∧
      jtBytes.length = p.jt.length * z.toNat ∧ maskB.length = (p.code.length + 7) / 8 ∧
      ∀ i, p.code.length ≤ i → i < 8 * maskB.length → (maskB.getD (i / 8) 0).getLsbD (i % 8) = false

/-- A blob that decodes is neither truncated nor has trailing bytes: every longer blob is trailing, every shorter one
truncated (spec/30_encoding.md R112). -/
def Obligations.BlobLengthIsExact : Prop :=
  ∀ (blob : List Byte) (p : Program), decodeProgram blob = .ok p →
    p.wf = true ∧
    (∀ extra, extra ≠ [] → decodeProgram (blob ++ extra) = .error .trailing) ∧
    ∀ k, k < blob.length → decodeProgram (blob.take k) = .error .truncated

/-! ## Basic blocks -/

/-- The basic-block start set, with the 22 opcodes of `T` in the default table (spec/40_step.md R170, R171;
`T` in another table is notes/assumptions/1.md). -/
def Obligations.BlockStartSet : Prop :=
  (∀ (P : Params) (p : Program) (t : Int), isBB P p t = true ↔
    t = 0 ∨ ∃ q : Nat, t = q ∧ q < p.code.length ∧ p.mask.getD q false = true ∧
      ∃ n, n < q ∧ p.mask.getD n false = true ∧ n + 1 + skip P p.mask n = q ∧
        EndsBlock P (p.code.getD n 0).toNat) ∧
  terminatingSet.length = 22 ∧ ∀ op, EndsBlock .default op ↔ op ∈ terminatingSet

/-- The block gas costs: the block starts in `code`, in ascending order, each with the sum of the costs along its
instructions, up to the end of the block (spec/40_step.md R172). That an unknown opcode costs what TRAP costs is
notes/assumptions/21.md; `T` and TRAP's opcode in another table are notes/assumptions/1.md. -/
def Obligations.BlockGasCosts : Prop :=
  ∀ (P : Params) (p : Program), p.wf = true →
    (blockGasCosts P p).map Prod.fst = (List.range p.code.length).filter (fun b : Nat => isBB P p (b : Int)) ∧
    ∀ b c, (b, c) ∈ blockGasCosts P p → ∃ ns : List Nat, ns.head? = some b ∧
      c = (ns.map fun n => opGas P (opcodeAt p n)).sum ∧
      ns.IsChain (fun n n' => n' = n + 1 + skip P p.mask n ∧ n' < p.code.length ∧ isBB P p n' = false ∧
        ¬EndsBlock P (opcodeAt p n)) ∧
      ∀ n, ns.getLast? = some n →
        EndsBlock P (opcodeAt p n) ∨ p.code.length ≤ n + 1 + skip P p.mask n ∨
          isBB P p ((n + 1 + skip P p.mask n : Nat) : Int) = true

/-! ## The step -/

/-- A step that passes the checks before the instruction charges its gas and executes the decoded instruction
(spec/40_step.md R163, R164, R166). -/
def Obligations.StepRunsDecoded : Prop :=
  ∀ (s : State) (i : Instr), s.Ready →
    decodeBytes s.params (s.prog.code.drop s.pc.toNat) (skip s.params s.prog.mask s.pc.toNat) = .ok i →
    step s = exec i { s with gas := s.gas - opGas s.params s.opcode }

/-- The first two phases: an Unloaded core refuses the step, a status other than OK is sticky, and an invalid pc is a
PANIC that charges no gas (spec/40_step.md R161, R162). That this PANIC leaves no exit parameter is
notes/assumptions/13.md. -/
def Obligations.StepChecksStatusAndPc : Prop :=
  (∀ s : State, s.loaded = false → step s = .refused .notLoaded) ∧
  (∀ s : State, s.loaded = true → s.status ≠ .ok → step s = .next s) ∧
  ∀ s : State, s.loaded = true → s.status = .ok →
    s.prog.code.length ≤ s.pc.toNat ∨ s.prog.mask.getD s.pc.toNat false = false →
    step s = .next { s with status := .panic, exitParam := none }

/-- When a step ends with OOG, what it then changes, and that it is terminal (spec/60_exceptions.md R403; TRAP's opcode,
whose cost an unknown opcode is charged, is notes/assumptions/1.md for another table). -/
def Obligations.OogExactly : Prop :=
  ∀ s : State, s.loaded = true → s.status = .ok →
    ((∃ t, step s = .next t ∧ t.status = .oog) ↔
      atBoundary s.prog s.pc.toNat = true ∧ s.gas < opGas s.params s.opcode) ∧
    (atBoundary s.prog s.pc.toNat = true → s.gas < opGas s.params s.opcode →
      step s = .next { s with gas := 0, status := .oog }) ∧
    ∀ t, step s = .next t → t.status = .oog → step t = .next t

/-- When a step ends with HOST, and what it then changes (spec/60_exceptions.md R404). -/
def Obligations.HostExactly : Prop :=
  ∀ s : State, s.loaded = true → s.status = .ok →
    ((∃ t, step s = .next t ∧ t.status = .host) ↔
      s.Ready ∧ ∃ x, s.prog.decodeAt s.params s.pc.toNat = .ok (.ecalli x)) ∧
    ∀ x, s.Ready → s.prog.decodeAt s.params s.pc.toNat = .ok (.ecalli x) →
      step s = .next { s with gas := s.gas - opGas s.params s.opcode, status := .host, pc := s.after,
                              exitParam := some (BitVec.ofNat 32 (x.toNat % 2 ^ 32)) }

/-- When a step ends with HALT, what it then changes, and that it is terminal (spec/60_exceptions.md R405). -/
def Obligations.HaltExactly : Prop :=
  ∀ s : State, s.loaded = true → s.status = .ok →
    ((∃ t, step s = .next t ∧ t.status = .halt) ↔
      s.Ready ∧ ∃ i, s.prog.decodeAt s.params s.pc.toNat = .ok i ∧ dynamicAddress i s = some s.params.haltAddress) ∧
    (∀ r x, s.Ready → s.prog.decodeAt s.params s.pc.toNat = .ok (.jumpInd r x) →
      s.indAddr r x = s.params.haltAddress →
      step s = .next { s with gas := s.gas - opGas s.params s.opcode, status := .halt, exitParam := none }) ∧
    (∀ r b x y, s.Ready → s.prog.decodeAt s.params s.pc.toNat = .ok (.loadImmJumpInd r b x y) →
      s.indAddr b y = s.params.haltAddress →
      step s = .next { s.setReg r x with gas := s.gas - opGas s.params s.opcode, status := .halt, exitParam := none }) ∧
    ∀ t, step s = .next t → t.status = .halt → step t = .next t

/-- When a step ends with FAULT, what it then changes, and that it is terminal (spec/60_exceptions.md R402). -/
def Obligations.FaultExactly : Prop :=
  ∀ s : State, s.loaded = true → s.status = .ok →
    ((∃ t, step s = .next t ∧ t.status = .fault) ↔
      s.Ready ∧ ∃ i c k, s.prog.decodeAt s.params s.pc.toNat = .ok i ∧ accessOf i s = some c ∧
        s.mem.FirstOffence c k) ∧
    (∀ i c k, s.Ready → s.prog.decodeAt s.params s.pc.toNat = .ok i → accessOf i s = some c →
      s.mem.FirstOffence c k →
      step s = .next { s with gas := s.gas - opGas s.params s.opcode, status := .fault,
                              exitParam := some (BitVec.ofNat 32 (accessAddr c.addr k)),
                              faultIsWrite := c.isWrite }) ∧
    ∀ t, step s = .next t → t.status = .fault → step t = .next t

/-- When a step ends with PANIC: the five cases, whether the gas is charged first, the one write that it can keep, and
that it is terminal (spec/60_exceptions.md R401; JUMP_ALIGN = 0 is notes/assumptions/23.md). -/
def Obligations.PanicExactly : Prop :=
  ∀ s : State, s.loaded = true → s.status = .ok →
    ((∃ t, step s = .next t ∧ t.status = .panic) ↔
      atBoundary s.prog s.pc.toNat = false ∨
      (s.Ready ∧ (s.params.row s.opcode = none ∨
        ∃ i, s.prog.decodeAt s.params s.pc.toNat = .ok i ∧
          (i = .trap ∨
            (∃ off, takenOffset i s = some off ∧ isBB s.params s.prog (s.pc.toNat + off) = false) ∨
            ∃ a, dynamicAddress i s = some a ∧ a ≠ s.params.haltAddress ∧ dynamicTarget s.params s.prog a = none)))) ∧
    ∀ t, step s = .next t → t.status = .panic →
      t.exitParam = none ∧ t.pc = s.pc ∧
      (t.gas = if atBoundary s.prog s.pc.toNat then s.gas - opGas s.params s.opcode else s.gas) ∧
      t.mem = s.mem ∧
      (t.x = s.x ∨ ∃ r x, ((∃ off, s.prog.decodeAt s.params s.pc.toNat = .ok (.loadImmJump r x off)) ∨
        ∃ b y, s.prog.decodeAt s.params s.pc.toNat = .ok (.loadImmJumpInd r b x y)) ∧ t.x = (s.setReg r x).x) ∧
      step t = .next t

/-- A step has no partial effects: what a step that ends in an exception changes (spec/40_step.md R173). -/
def Obligations.NoPartialEffects : Prop :=
  ∀ s t : State, s.loaded = true → s.status = .ok → s.exitParam = none → step s = .next t →
    (t.status = .oog → t = { s with gas := 0, status := .oog }) ∧
    (t.status = .fault → ∃ a w,
      t = { s with gas := t.gas, status := .fault, exitParam := some a, faultIsWrite := w }) ∧
    (t.status = .panic →
      t = { s with gas := t.gas, status := .panic } ∨
      ∃ r x, ((∃ off, s.prog.decodeAt s.params s.pc.toNat = .ok (.loadImmJump r x off)) ∨
          ∃ b y, s.prog.decodeAt s.params s.pc.toNat = .ok (.loadImmJumpInd r b x y)) ∧
        t = { s.setReg r x with gas := t.gas, status := .panic }) ∧
    (t.status = .host → ∃ e,
      t = { s with gas := t.gas, status := .host, pc := t.pc, exitParam := some e })

/-- Over any number of steps, the used gas is the sum of the executed instructions' static costs, clamped to the
allotment (spec/40_step.md R179; TRAP's opcode, whose cost an unknown opcode is charged, is notes/assumptions/1.md for
another table). -/
def Obligations.GasAccounting : Prop :=
  ∀ (n : Nat) (s t : State), s.gas ≤ s.initialGas → core.run n s = .next t →
    t.usedGas = min s.initialGas (s.usedGas + costOver n s)

/-- When every gas cost is at least 1, a run is a sequence of at most `gas + 1` steps, and ends with a status other
than OK (spec/40_step.md R169; that `runProgram` loops with that many steps as fuel is notes/assumptions/16.md); only
the model's refusal of SBRK onto a mapped page (spec/20_memory.md R89) cuts it short. -/
def Obligations.RunEndsWithinGas : Prop :=
  ∀ s : State, s.loaded = true → (∀ op, 1 ≤ s.params.gasCost op) →
    (∃ n t, n ≤ s.gas + 1 ∧ core.run n s = .next t ∧ t.status ≠ .ok ∧ runProgram s = .next t ∧
      ∀ m, m < n → ∃ u, core.run m s = .next u ∧ u.status = .ok) ∨
    (∃ n, n ≤ s.gas + 1 ∧ core.run n s = .refused .sbrkOntoMappedPage ∧
      runProgram s = .refused .sbrkOntoMappedPage)

/-! ## Invariants -/

/-- Every step keeps the invariant: parameters that make sense, a program with a mask of its length, gas in range, an exit
parameter exactly with HOST and FAULT, canonical memory, Writable heap pages below a page-aligned `heapTop`
(spec/10_state.md R42, R44, R49, R50; spec/20_memory.md R72, R86). -/
def Obligations.StepKeepsInv : Prop :=
  ∀ s t : State, s.Inv → step s = .next t → t.Inv

/-- The invariant holds after reset, whatever the parameters, and reset leaves the values of the table: OK, all
registers 0, no exit parameter, every page Unmapped, heap registers 0 (spec/10_state.md R54). The machine's reset has
the defaults of spec/00_scope.md R9 (the opcode table's is in UnknownOpcodesPanic). The empty program, `pc0 = 0` and
`gas0 = 0` are the model's choice (notes/assumptions/2.md). -/
def Obligations.ResetState : Prop :=
  (∀ P : Params, let s := State.resetWith P
    (P.wf = true → s.Inv) ∧ s.params = P ∧ s.loaded = true ∧ s.status = .ok ∧
    s.exitParam = none ∧ (∀ r, s.reg r = 0) ∧
    (∀ p, s.mem.pageState p = .unmapped) ∧ s.mem.heapStart = 0 ∧
    s.mem.heapEnd = 0 ∧ s.mem.heapPtr = 0 ∧ s.mem.heapTop = 0 ∧ s.gas = s.initialGas) ∧
  State.reset = State.resetWith .default ∧ Params.default.wf = true ∧
  (∀ op, Params.default.gasCost op = 1) ∧ Params.default.gasMax = 2 ^ 64 - 1 ∧
  Params.default.maxSkip = 24 ∧ Params.default.maxImm = 4 ∧ Params.default.jumpAlign = 2 ∧
  Params.default.haltAddress.toNat = 2 ^ 32 - 2 ^ 16 ∧ Params.default.heapLimit = 2 ^ 32 ∧
  Params.default.sbrkFailResult = 0

/-- Every host command between resets keeps the invariant (spec/60_exceptions.md R417). -/
def Obligations.CommandsKeepInv : Prop :=
  ∀ (c : Command) (s t : State), s.Inv → c.apply s = .ok t → t.Inv

/-- The memory builder makes a canonical memory with consistent heap registers, and a reset from it a state with the
invariant (spec/70_reset_and_hazards.md R441, R443–R445). -/
def Obligations.BuilderAndResetMakeInv : Prop :=
  Builder.new.mem.wf = true ∧
  (∀ (st : PageState) (a e : Nat) (data : List Byte) (b b' : Builder), st ≠ .unmapped →
    b.mem.wf = true → b.setRange st a e data = .ok b' → b'.mem.wf = true) ∧
  (∀ (hs he : Nat) (b b' : Builder), b.mem.wf = true → finalize hs he b = .ok b' →
    b'.mem.wf = true ∧ b'.mem.heapWf = true) ∧
  ∀ (blob : List Byte) (pc0 gas0 : Int) (regs : Option (List Int)) (mem : Option Builder) (s t : State),
    s.params.wf = true → (∀ b, mem = some b → b.mem.wf = true ∧ b.mem.heapWf = true) →
    hostReset blob pc0 gas0 regs mem s = .done t → t.Inv

/-- No step and no host command between resets changes the program, and nothing changes the parameters
(spec/10_state.md R50, R31). -/
def Obligations.ProgramIsImmutable : Prop :=
  (∀ s t : State, step s = .next t → t.prog = s.prog ∧ t.loaded = s.loaded ∧ t.params = s.params) ∧
  (∀ (c : Command) (s t : State), c.apply s = .ok t →
    t.prog = s.prog ∧ t.loaded = s.loaded ∧ t.params = s.params) ∧
  ∀ (blob : List Byte) (pc0 gas0 : Int) (regs : Option (List Int)) (mem : Option Builder) (s t : State),
    hostReset blob pc0 gas0 regs mem s = .done t ∨
      (∃ e, hostReset blob pc0 gas0 regs mem s = .decodeError e t) → t.params = s.params

/-- No instruction makes a page Readable, changes a Readable page or a byte of it, or makes a Writable page less
permissive (spec/20_memory.md R73, R85). -/
def Obligations.PagePermissionsOnlyGrow : Prop :=
  ∀ s t : State, step s = .next t →
    (∀ p, t.mem.pageState p = .readable ↔ s.mem.pageState p = .readable) ∧
    (∀ p, s.mem.pageState p = .writable → t.mem.pageState p = .writable) ∧
    ∀ a, s.mem.pageState (a / 4096) = .readable → t.mem.byte a = s.mem.byte a

/-- The pc cannot wrap: after an instruction it stands at the end of that instruction, within the code, or at a block
start (spec/10_state.md R38; spec/40_step.md R167). -/
def Obligations.PcStaysInCode : Prop :=
  ∀ s t : State, s.Inv → s.loaded = true → s.status = .ok → step s = .next t →
    t.status = .ok ∨ t.status = .host →
    (t.pc.toNat = s.pc.toNat + 1 + skip s.params s.prog.mask s.pc.toNat ∧ t.pc.toNat ≤ s.prog.code.length) ∨
    isBB s.params s.prog t.pc.toNat = true

/-- No instruction observes the gas counter, the allotment or `faultIsWrite`: with other values the step does the same
(spec/60_exceptions.md R416, R427; spec/10_state.md R43). -/
def Obligations.GasIsUnobservable : Prop :=
  ∀ (s t : State) (g g0 : Nat) (w : Bool), s.Ready → opGas s.params s.opcode ≤ g → step s = .next t →
    step { s with gas := g, initialGas := g0, faultIsWrite := w } =
      .next { t with gas := g - opGas s.params s.opcode, initialGas := g0,
                     faultIsWrite := if t.status = .fault then t.faultIsWrite else w }

/-! ## Values and memory -/

/-- The signed readings, sign extension and the effective addresses (spec/00_scope.md R11; spec/20_memory.md R79). Sign
extension from other widths than 8, 16, 24, 32 and 64 is the model's choice (notes/assumptions/23.md). -/
def Obligations.SignedReadingsAndAddresses : Prop :=
  (∀ v : Word, s64 v = if v.toNat < 2 ^ 63 then (v.toNat : Int) else (v.toNat : Int) - 2 ^ 64) ∧
  (∀ v : Word, s32 v = if v.toNat % 2 ^ 32 < 2 ^ 31 then ((v.toNat % 2 ^ 32 : Nat) : Int)
    else ((v.toNat % 2 ^ 32 : Nat) : Int) - 2 ^ 32) ∧
  (∀ i : Int, ((u64 i).toNat : Int) = i % 2 ^ 64) ∧
  (∀ v, sext 0 v = 0) ∧
  (∀ n v, n ≤ 64 → sext n v = u64 (if 2 * (v % 2 ^ n) < 2 ^ n then ((v % 2 ^ n : Nat) : Int)
    else ((v % 2 ^ n : Nat) : Int) - 2 ^ n)) ∧
  (∀ x : Word, (absAddr x).toNat = x.toNat % 2 ^ 32) ∧
  ∀ (s : State) (r : Reg) (x : Word), (s.indAddr r x).toNat = (s.u r + x.toNat) % 2 ^ 32

/-- `MemRead`: the little-endian value when every byte is readable, and otherwise the fault of the first that is not
(spec/20_memory.md R73–R76, R80). -/
def Obligations.MemReadSpec : Prop :=
  ∀ (m : Memory) (addr : Addr) (n : Nat),
    (∀ a, m.canRead a = true ↔ m.pageState (a / 4096) = .readable ∨ m.pageState (a / 4096) = .writable) ∧
    ((∀ k, k < n → m.canRead ((addr.toNat + k) % 2 ^ 32) = true) →
      m.read addr n = .ok (∑ i ∈ Finset.range n, (m.byte ((addr.toNat + i) % 2 ^ 32)).toNat * 2 ^ (8 * i))) ∧
    ∀ k, k < n → m.canRead ((addr.toNat + k) % 2 ^ 32) = false →
      (∀ j, j < k → m.canRead ((addr.toNat + j) % 2 ^ 32) = true) →
      m.read addr n = .error (.pageFault (addr + BitVec.ofNat 32 k) false)

/-- `MemWrite`: all bytes when every byte is writable, and otherwise none and the fault of the first that is not
(spec/20_memory.md R73–R76, R81). -/
def Obligations.MemWriteSpec : Prop :=
  ∀ (m : Memory) (addr : Addr) (n v : Nat), m.wf = true →
    (∀ a, m.canWrite a = true ↔ m.pageState (a / 4096) = .writable) ∧
    (n ≤ 2 ^ 32 → (∀ k, k < n → m.canWrite ((addr.toNat + k) % 2 ^ 32) = true) →
      ∃ m', m.write addr n v = .ok m' ∧ m'.wf = true ∧ Memory.SameOutside addr n m m' ∧
        ∀ i, i < n → (m'.byte ((addr.toNat + i) % 2 ^ 32)).toNat = v / 2 ^ (8 * i) % 256) ∧
    ∀ k, k < n → m.canWrite ((addr.toNat + k) % 2 ^ 32) = false →
      (∀ j, j < k → m.canWrite ((addr.toNat + j) % 2 ^ 32) = true) →
      m.write addr n v = .error (.pageFault (addr + BitVec.ofNat 32 k) true)

/-- A narrower or equal read at the address of a store returns the low bytes of what was stored
(spec/20_memory.md R77, R92). -/
def Obligations.LoadAfterStore : Prop :=
  ∀ (m m' : Memory) (addr : Addr) (n k v : Nat), m.wf = true → n ≤ 2 ^ 32 → k ≤ n →
    m.write addr n v = .ok m' → m'.read addr k = .ok (v % 2 ^ (8 * k))

/-- Memories in canonical form that read the same are the same data (spec/20_memory.md R72, R96; the canonical form is
the model's own). -/
def Obligations.CanonicalMemoriesAreEqual : Prop :=
  ∀ m m' : Memory, m.wf = true → m'.wf = true → m.Same m' → m = m'

/-! ## Results of the instructions -/

/-- TRAP, FALLTHROUGH and ECALLI (spec/41_noargs_hostcall.md R200–R202). -/
def Obligations.NoArgumentResults : Prop :=
  ∀ (s : State) (x : Word),
    Yields .trap s (s.Ended .panic none s.faultIsWrite s.pc) ∧
    Yields .fallthrough s (s.WentTo s.after) ∧
    Yields (.ecalli x) s
      (s.Ended .host (some (BitVec.ofNat 32 (x.toNat % 2 ^ 32))) s.faultIsWrite s.after)

/-- Immediate loads, the register move and the conditional moves (spec/43_load.md R240, R241; spec/46_memory_move.md
R311–R315). -/
def Obligations.MoveResults : Prop :=
  ∀ (s : State) (a b d : Reg) (x : Word),
    Computes (.loadImm64 a x) a x s ∧
    Computes (.loadImm a x) a x s ∧
    Computes (.moveReg a d) d (s.reg a) s ∧
    Computes (.cmovIzImm a b x) a (if s.u b = 0 then x else s.reg a) s ∧
    Computes (.cmovNzImm a b x) a (if s.u b ≠ 0 then x else s.reg a) s ∧
    Computes (.cmovIz a b d) d (if s.u b = 0 then s.reg a else s.reg d) s ∧
    Computes (.cmovNz a b d) d (if s.u b ≠ 0 then s.reg a else s.reg d) s

/-- Additions and subtractions (spec/47_math.md R321, R325, R328, R330–R332, R338, R339). -/
def Obligations.AddSubResults : Prop :=
  ∀ (s : State) (a b d : Reg) (x : Word),
    Computes (.addImm32 a b x) a (sext 32 ((s.u b + x.toNat) % 2 ^ 32)) s ∧
    Computes (.negAddImm32 a b x) a (sext 32 ((x.toNat + 2 ^ 32 - s.u b % 2 ^ 32) % 2 ^ 32)) s ∧
    Computes (.addImm64 a b x) a (BitVec.ofNat 64 ((s.u b + x.toNat) % 2 ^ 64)) s ∧
    Computes (.negAddImm64 a b x) a (u64 ((x.toNat : Int) - s.u b)) s ∧
    Computes (.add32 a b d) d (sext 32 ((s.u a + s.u b) % 2 ^ 32)) s ∧
    Computes (.sub32 a b d) d (sext 32 ((s.u a + 2 ^ 32 - s.u b % 2 ^ 32) % 2 ^ 32)) s ∧
    Computes (.add64 a b d) d (BitVec.ofNat 64 ((s.u a + s.u b) % 2 ^ 64)) s ∧
    Computes (.sub64 a b d) d (BitVec.ofNat 64 ((s.u a + 2 ^ 64 - s.u b) % 2 ^ 64)) s

/-- Multiplications, and the upper halves of products (spec/47_math.md R322, R329, R333, R340, R345–R347). -/
def Obligations.MulResults : Prop :=
  ∀ (s : State) (a b d : Reg) (x : Word),
    Computes (.mulImm32 a b x) a (sext 32 (s.u b * x.toNat % 2 ^ 32)) s ∧
    Computes (.mulImm64 a b x) a (BitVec.ofNat 64 (s.u b * x.toNat % 2 ^ 64)) s ∧
    Computes (.mul32 a b d) d (sext 32 (s.u a * s.u b % 2 ^ 32)) s ∧
    Computes (.mul64 a b d) d (BitVec.ofNat 64 (s.u a * s.u b % 2 ^ 64)) s ∧
    Computes (.mulUpperSS a b d) d (u64 (s.i a * s.i b / 2 ^ 64)) s ∧
    Computes (.mulUpperUU a b d) d (BitVec.ofNat 64 (s.u a * s.u b / 2 ^ 64)) s ∧
    Computes (.mulUpperSU a b d) d (u64 (s.i a * s.u b / 2 ^ 64)) s

/-- Unsigned division and remainder, with their results for a divisor 0 (spec/47_math.md R334, R336, R341, R343). -/
def Obligations.UnsignedDivisionResults : Prop :=
  ∀ (s : State) (a b d : Reg),
    Computes (.divU32 a b d) d
      (if s.u b % 2 ^ 32 = 0 then BitVec.ofNat 64 (2 ^ 64 - 1)
        else sext 32 (s.u a % 2 ^ 32 / (s.u b % 2 ^ 32))) s ∧
    Computes (.remU32 a b d) d
      (if s.u b % 2 ^ 32 = 0 then sext 32 (s.u a % 2 ^ 32)
        else sext 32 (s.u a % 2 ^ 32 % (s.u b % 2 ^ 32))) s ∧
    Computes (.divU64 a b d) d
      (if s.u b = 0 then BitVec.ofNat 64 (2 ^ 64 - 1) else BitVec.ofNat 64 (s.u a / s.u b)) s ∧
    Computes (.remU64 a b d) d (if s.u b = 0 then s.reg a else BitVec.ofNat 64 (s.u a % s.u b)) s

/-- Signed division and remainder, with their results for a divisor 0 and for the overflow
(spec/47_math.md R320, R335, R337, R342, R344). -/
def Obligations.SignedDivisionResults : Prop :=
  ∀ (s : State) (a b d : Reg),
    Computes (.divS32 a b d) d
      (if s32 (s.reg b) = 0 then BitVec.ofNat 64 (2 ^ 64 - 1)
        else if s32 (s.reg a) = -2 ^ 31 ∧ s32 (s.reg b) = -1 then u64 (s32 (s.reg a))
        else u64 ((s32 (s.reg a)).tdiv (s32 (s.reg b)))) s ∧
    Computes (.remS32 a b d) d
      (if s32 (s.reg b) = 0 then u64 (s32 (s.reg a))
        else if s32 (s.reg a) = -2 ^ 31 ∧ s32 (s.reg b) = -1 then 0
        else u64 (s32 (s.reg a) - s32 (s.reg b) * (s32 (s.reg a)).tdiv (s32 (s.reg b)))) s ∧
    Computes (.divS64 a b d) d
      (if s.i b = 0 then BitVec.ofNat 64 (2 ^ 64 - 1)
        else if s.i a = -2 ^ 63 ∧ s.i b = -1 then s.reg a else u64 ((s.i a).tdiv (s.i b))) s ∧
    Computes (.remS64 a b d) d
      (if s.i b = 0 then s.reg a
        else if s.i a = -2 ^ 63 ∧ s.i b = -1 then 0
        else u64 (s.i a - s.i b * (s.i a).tdiv (s.i b))) s

/-- Comparisons into a register, minimum and maximum (spec/47_math.md R323, R324, R326, R327, R348–R353). -/
def Obligations.ComparisonResults : Prop :=
  ∀ (s : State) (a b d : Reg) (x : Word),
    Computes (.setLtUImm a b x) a (if s.u b < x.toNat then 1 else 0) s ∧
    Computes (.setLtSImm a b x) a (if s.i b < s64 x then 1 else 0) s ∧
    Computes (.setGtUImm a b x) a (if s.u b > x.toNat then 1 else 0) s ∧
    Computes (.setGtSImm a b x) a (if s.i b > s64 x then 1 else 0) s ∧
    Computes (.setLtU a b d) d (if s.u a < s.u b then 1 else 0) s ∧
    Computes (.setLtS a b d) d (if s.i a < s.i b then 1 else 0) s ∧
    Computes (.maxS a b d) d (u64 (max (s.i a) (s.i b))) s ∧
    Computes (.maxU a b d) d (BitVec.ofNat 64 (max (s.u a) (s.u b))) s ∧
    Computes (.minS a b d) d (u64 (min (s.i a) (s.i b))) s ∧
    Computes (.minU a b d) d (BitVec.ofNat 64 (min (s.u a) (s.u b))) s

/-- Logic, with `~v = 2^64 − 1 − v` (spec/45_bit.md R280, R291–R299). -/
def Obligations.LogicResults : Prop :=
  ∀ (s : State) (a b d : Reg) (x : Word),
    Computes (.andImm a b x) a (BitVec.ofNat 64 (s.u b &&& x.toNat)) s ∧
    Computes (.xorImm a b x) a (BitVec.ofNat 64 (s.u b ^^^ x.toNat)) s ∧
    Computes (.orImm a b x) a (BitVec.ofNat 64 (s.u b ||| x.toNat)) s ∧
    Computes (.andReg a b d) d (BitVec.ofNat 64 (s.u a &&& s.u b)) s ∧
    Computes (.xorReg a b d) d (BitVec.ofNat 64 (s.u a ^^^ s.u b)) s ∧
    Computes (.orReg a b d) d (BitVec.ofNat 64 (s.u a ||| s.u b)) s ∧
    Computes (.andInv a b d) d (BitVec.ofNat 64 (s.u a &&& (2 ^ 64 - 1 - s.u b))) s ∧
    Computes (.orInv a b d) d (BitVec.ofNat 64 (s.u a ||| (2 ^ 64 - 1 - s.u b))) s ∧
    Computes (.xnor a b d) d (BitVec.ofNat 64 (2 ^ 64 - 1 - (s.u a ^^^ s.u b))) s

/-- Bit counts: the 1 bits, the 0 bits from bit 63 or 31 down to the highest 1 bit, and the 0 bits from bit 0 up to
the lowest 1 bit (spec/45_bit.md R280–R286). -/
def Obligations.BitCountResults : Prop :=
  ∀ (s : State) (a d : Reg),
    Computes (.countSetBits64 a d) d
      (BitVec.ofNat 64 ((List.range 64).countP fun k => (s.u a).testBit k)) s ∧
    Computes (.countSetBits32 a d) d
      (BitVec.ofNat 64 ((List.range 32).countP fun k => (s.u a % 2 ^ 32).testBit k)) s ∧
    Computes (.leadingZeroBits64 a d) d
      (BitVec.ofNat 64 ((List.range 64).reverse.takeWhile fun k => !(s.u a).testBit k).length) s ∧
    Computes (.leadingZeroBits32 a d) d
      (BitVec.ofNat 64 ((List.range 32).reverse.takeWhile fun k => !(s.u a % 2 ^ 32).testBit k).length) s ∧
    Computes (.trailingZeroBits64 a d) d
      (BitVec.ofNat 64 ((List.range 64).takeWhile fun k => !(s.u a).testBit k).length) s ∧
    Computes (.trailingZeroBits32 a d) d
      (BitVec.ofNat 64 ((List.range 32).takeWhile fun k => !(s.u a % 2 ^ 32).testBit k).length) s

/-- Sign and zero extension, and the byte reversal (spec/45_bit.md R280, R287–R290). -/
def Obligations.ExtensionResults : Prop :=
  ∀ (s : State) (a d : Reg),
    Computes (.signExtend8 a d) d (sext 8 (s.u a % 2 ^ 8)) s ∧
    Computes (.signExtend16 a d) d (sext 16 (s.u a % 2 ^ 16)) s ∧
    Computes (.zeroExtend16 a d) d (BitVec.ofNat 64 (s.u a % 2 ^ 16)) s ∧
    Computes (.reverseBytes a d) d
      (BitVec.ofNat 64 (∑ i ∈ Finset.range 8, s.u a / 2 ^ (8 * i) % 256 * 2 ^ (8 * (7 - i)))) s

/-- Logical shifts, with the amount mod 32 or 64 (spec/48_shift_rotate.md R361, R362, R364, R365, R367, R368, R370,
R371, R377, R378, R380, R381). -/
def Obligations.LogicalShiftResults : Prop :=
  ∀ (s : State) (a b d : Reg) (x : Word),
    Computes (.shloLImm32 a b x) a (sext 32 (s.u b * 2 ^ (x.toNat % 32) % 2 ^ 32)) s ∧
    Computes (.shloRImm32 a b x) a (sext 32 (s.u b % 2 ^ 32 / 2 ^ (x.toNat % 32))) s ∧
    Computes (.shloLImmAlt32 a b x) a (sext 32 (x.toNat * 2 ^ (s.u b % 32) % 2 ^ 32)) s ∧
    Computes (.shloRImmAlt32 a b x) a (sext 32 (x.toNat % 2 ^ 32 / 2 ^ (s.u b % 32))) s ∧
    Computes (.shloLImm64 a b x) a (BitVec.ofNat 64 (s.u b * 2 ^ (x.toNat % 64) % 2 ^ 64)) s ∧
    Computes (.shloRImm64 a b x) a (BitVec.ofNat 64 (s.u b / 2 ^ (x.toNat % 64))) s ∧
    Computes (.shloLImmAlt64 a b x) a (BitVec.ofNat 64 (x.toNat * 2 ^ (s.u b % 64) % 2 ^ 64)) s ∧
    Computes (.shloRImmAlt64 a b x) a (BitVec.ofNat 64 (x.toNat / 2 ^ (s.u b % 64))) s ∧
    Computes (.shloL32 a b d) d (sext 32 (s.u a * 2 ^ (s.u b % 32) % 2 ^ 32)) s ∧
    Computes (.shloR32 a b d) d (sext 32 (s.u a % 2 ^ 32 / 2 ^ (s.u b % 32))) s ∧
    Computes (.shloL64 a b d) d (BitVec.ofNat 64 (s.u a * 2 ^ (s.u b % 64) % 2 ^ 64)) s ∧
    Computes (.shloR64 a b d) d (BitVec.ofNat 64 (s.u a / 2 ^ (s.u b % 64))) s

/-- Arithmetic right shifts: the signed value divided by a power of 2, rounding down, with the amount mod 32 or 64
(spec/48_shift_rotate.md R360, R363, R366, R369, R372, R379, R382). -/
def Obligations.ArithmeticShiftResults : Prop :=
  ∀ (s : State) (a b d : Reg) (x : Word),
    Computes (.sharRImm32 a b x) a (u64 (s32 (s.reg b) / 2 ^ (x.toNat % 32))) s ∧
    Computes (.sharRImmAlt32 a b x) a (u64 (s32 x / 2 ^ (s.u b % 32))) s ∧
    Computes (.sharRImm64 a b x) a (u64 (s.i b / 2 ^ (x.toNat % 64))) s ∧
    Computes (.sharRImmAlt64 a b x) a (u64 (s64 x / 2 ^ (s.u b % 64))) s ∧
    Computes (.sharR32 a b d) d (u64 (s32 (s.reg a) / 2 ^ (s.u b % 32))) s ∧
    Computes (.sharR64 a b d) d (u64 (s.i a / 2 ^ (s.u b % 64))) s

/-- Rotates, with the amount mod 32 or 64 (spec/48_shift_rotate.md R360, R373–R376, R383–R386). -/
def Obligations.RotateResults : Prop :=
  ∀ (s : State) (a b d : Reg) (x : Word),
    Computes (.rotR64Imm a b x) a (BitVec.ofNat 64 (rotrSpec 64 (s.u b) (x.toNat % 64))) s ∧
    Computes (.rotR64ImmAlt a b x) a (BitVec.ofNat 64 (rotrSpec 64 x.toNat (s.u b % 64))) s ∧
    Computes (.rotR32Imm a b x) a (sext 32 (rotrSpec 32 (s.u b % 2 ^ 32) (x.toNat % 32))) s ∧
    Computes (.rotR32ImmAlt a b x) a (sext 32 (rotrSpec 32 (x.toNat % 2 ^ 32) (s.u b % 32))) s ∧
    Computes (.rotL64 a b d) d (BitVec.ofNat 64 (rotlSpec 64 (s.u a) (s.u b % 64))) s ∧
    Computes (.rotL32 a b d) d (sext 32 (rotlSpec 32 (s.u a % 2 ^ 32) (s.u b % 32))) s ∧
    Computes (.rotR64 a b d) d (BitVec.ofNat 64 (rotrSpec 64 (s.u a) (s.u b % 64))) s ∧
    Computes (.rotR32 a b d) d (sext 32 (rotrSpec 32 (s.u a % 2 ^ 32) (s.u b % 32))) s

/-- SBRK: what it grows, when it fails, and when the model refuses it (spec/46_memory_move.md R310;
spec/20_memory.md R87–R89). Growth past 2^32 with `HEAP_LIMIT` above 2^32 is the model's choice
(notes/assumptions/23.md). -/
def Obligations.SbrkResults : Prop :=
  ∀ (s : State) (a d : Reg),
    let new := s.mem.heapPtr + s.u a
    let newTop := (new + 4095) / 4096 * 4096
    let inGrowth := fun p => s.mem.heapTop / 4096 ≤ p ∧ p < newTop / 4096
    (new > s.params.heapLimit → Computes (.sbrk a d) d s.params.sbrkFailResult s) ∧
    (new ≤ s.params.heapLimit → (∀ p, inGrowth p → s.mem.pageState p = .unmapped) →
      Yields (.sbrk a d) s fun t =>
        s.Committed s.after t ∧ t.reg d = BitVec.ofNat 64 s.mem.heapPtr ∧
        (∀ r, r ≠ d → t.reg r = s.reg r) ∧
        t.mem.heapPtr = new ∧ t.mem.heapTop = max s.mem.heapTop newTop ∧
        t.mem.heapStart = s.mem.heapStart ∧ t.mem.heapEnd = s.mem.heapEnd ∧
        (∀ p, inGrowth p → t.mem.pageState p = .writable) ∧
        (∀ p, ¬inGrowth p → t.mem.pageState p = s.mem.pageState p) ∧
        (∀ b, inGrowth (b / 4096) → t.mem.byte b = 0) ∧
        ∀ b, ¬inGrowth (b / 4096) → t.mem.byte b = s.mem.byte b) ∧
    (new ≤ s.params.heapLimit → (∃ p, inGrowth p ∧ s.mem.pageState p ≠ .unmapped) →
      exec (.sbrk a d) s = .refused .sbrkOntoMappedPage)

/-- Loads from readable bytes: the little-endian value, zero- or sign-extended (spec/43_load.md R242–R255). -/
def Obligations.LoadResults : Prop :=
  ∀ (s : State) (a b : Reg) (x : Word),
    Loads (.loadU8 a x) 1 (absAddr x) (BitVec.ofNat 64) a s ∧
    Loads (.loadI8 a x) 1 (absAddr x) (sext 8) a s ∧
    Loads (.loadU16 a x) 2 (absAddr x) (BitVec.ofNat 64) a s ∧
    Loads (.loadI16 a x) 2 (absAddr x) (sext 16) a s ∧
    Loads (.loadU32 a x) 4 (absAddr x) (BitVec.ofNat 64) a s ∧
    Loads (.loadI32 a x) 4 (absAddr x) (sext 32) a s ∧
    Loads (.loadU64 a x) 8 (absAddr x) (BitVec.ofNat 64) a s ∧
    Loads (.loadIndU8 a b x) 1 (s.indAddr b x) (BitVec.ofNat 64) a s ∧
    Loads (.loadIndI8 a b x) 1 (s.indAddr b x) (sext 8) a s ∧
    Loads (.loadIndU16 a b x) 2 (s.indAddr b x) (BitVec.ofNat 64) a s ∧
    Loads (.loadIndI16 a b x) 2 (s.indAddr b x) (sext 16) a s ∧
    Loads (.loadIndU32 a b x) 4 (s.indAddr b x) (BitVec.ofNat 64) a s ∧
    Loads (.loadIndI32 a b x) 4 (s.indAddr b x) (sext 32) a s ∧
    Loads (.loadIndU64 a b x) 8 (s.indAddr b x) (BitVec.ofNat 64) a s

/-- Stores to writable bytes: the low bytes of the value, little-endian, and no other byte
(spec/44_store.md R260–R275). -/
def Obligations.StoreResults : Prop :=
  ∀ (s : State) (a b : Reg) (x y : Word),
    Stores (.storeImmU8 x y) 1 (absAddr x) y s ∧
    Stores (.storeImmU16 x y) 2 (absAddr x) y s ∧
    Stores (.storeImmU32 x y) 4 (absAddr x) y s ∧
    Stores (.storeImmU64 x y) 8 (absAddr x) y s ∧
    Stores (.storeU8 a x) 1 (absAddr x) (s.reg a) s ∧
    Stores (.storeU16 a x) 2 (absAddr x) (s.reg a) s ∧
    Stores (.storeU32 a x) 4 (absAddr x) (s.reg a) s ∧
    Stores (.storeU64 a x) 8 (absAddr x) (s.reg a) s ∧
    Stores (.storeImmIndU8 a x y) 1 (s.indAddr a x) y s ∧
    Stores (.storeImmIndU16 a x y) 2 (s.indAddr a x) y s ∧
    Stores (.storeImmIndU32 a x y) 4 (s.indAddr a x) y s ∧
    Stores (.storeImmIndU64 a x y) 8 (s.indAddr a x) y s ∧
    Stores (.storeIndU8 a b x) 1 (s.indAddr b x) (s.reg a) s ∧
    Stores (.storeIndU16 a b x) 2 (s.indAddr b x) (s.reg a) s ∧
    Stores (.storeIndU32 a b x) 4 (s.indAddr b x) (s.reg a) s ∧
    Stores (.storeIndU64 a b x) 8 (s.indAddr b x) (s.reg a) s

/-- A load or store takes the FAULT of the first byte it may not access, and changes nothing else
(spec/20_memory.md R76; spec/60_exceptions.md R402). -/
def Obligations.AccessFaults : Prop :=
  ∀ (i : Instr) (s : State) (c : Access) (k : Nat), accessOf i s = some c → s.mem.FirstOffence c k →
    Yields i s (s.Ended .fault (some (c.addr + BitVec.ofNat 32 k)) c.isWrite s.pc)

/-- The branches that compare a register with an immediate (spec/42_branch.md R213–R222). -/
def Obligations.BranchImmResults : Prop :=
  ∀ (s : State) (a : Reg) (x : Word) (off : Int),
    Branches (.branchEqImm a x off) (s.u a = x.toNat) off s ∧
    Branches (.branchNeImm a x off) (s.u a ≠ x.toNat) off s ∧
    Branches (.branchLtUImm a x off) (s.u a < x.toNat) off s ∧
    Branches (.branchLeUImm a x off) (s.u a ≤ x.toNat) off s ∧
    Branches (.branchGeUImm a x off) (s.u a ≥ x.toNat) off s ∧
    Branches (.branchGtUImm a x off) (s.u a > x.toNat) off s ∧
    Branches (.branchLtSImm a x off) (s.i a < s64 x) off s ∧
    Branches (.branchLeSImm a x off) (s.i a ≤ s64 x) off s ∧
    Branches (.branchGeSImm a x off) (s.i a ≥ s64 x) off s ∧
    Branches (.branchGtSImm a x off) (s.i a > s64 x) off s

/-- The branches that compare two registers, and the unconditional jumps (spec/42_branch.md R210, R212,
R223–R228). -/
def Obligations.BranchRegAndJumpResults : Prop :=
  ∀ (s : State) (a b : Reg) (x : Word) (off : Int),
    Branches (.branchEq a b off) (s.u a = s.u b) off s ∧
    Branches (.branchNe a b off) (s.u a ≠ s.u b) off s ∧
    Branches (.branchLtU a b off) (s.u a < s.u b) off s ∧
    Branches (.branchLtS a b off) (s.i a < s.i b) off s ∧
    Branches (.branchGeU a b off) (s.u a ≥ s.u b) off s ∧
    Branches (.branchGeS a b off) (s.i a ≥ s.i b) off s ∧
    Branches (.jump off) True off s ∧
    (isBB s.params s.prog (s.pc.toNat + off) = true →
      Yields (.loadImmJump a x off) s
        (s.WroteAndWentTo a x (BitVec.ofInt 32 (s.pc.toNat + off)))) ∧
    (isBB s.params s.prog (s.pc.toNat + off) = false →
      Yields (.loadImmJump a x off) s ((s.setReg a x).Ended .panic none s.faultIsWrite s.pc))

/-- The dynamic jumps: HALT at the halt address, the selected block start, PANIC for every other address
(spec/42_branch.md R211, R229; spec/40_step.md R176; JUMP_ALIGN = 0 is notes/assumptions/23.md). -/
def Obligations.DynamicJumpResults : Prop :=
  ∀ (s : State) (a b : Reg) (x y : Word),
    (s.indAddr a x = s.params.haltAddress →
      Yields (.jumpInd a x) s (s.Ended .halt none s.faultIsWrite s.pc)) ∧
    (s.indAddr a x ≠ s.params.haltAddress → ∀ t, dynamicTarget s.params s.prog (s.indAddr a x) = some t →
      Yields (.jumpInd a x) s (s.WentTo t)) ∧
    (s.indAddr a x ≠ s.params.haltAddress → dynamicTarget s.params s.prog (s.indAddr a x) = none →
      Yields (.jumpInd a x) s (s.Ended .panic none s.faultIsWrite s.pc)) ∧
    (s.indAddr b y = s.params.haltAddress →
      Yields (.loadImmJumpInd a b x y) s ((s.setReg a x).Ended .halt none s.faultIsWrite s.pc)) ∧
    (s.indAddr b y ≠ s.params.haltAddress → ∀ t, dynamicTarget s.params s.prog (s.indAddr b y) = some t →
      Yields (.loadImmJumpInd a b x y) s (s.WroteAndWentTo a x t)) ∧
    (s.indAddr b y ≠ s.params.haltAddress → dynamicTarget s.params s.prog (s.indAddr b y) = none →
      Yields (.loadImmJumpInd a b x y) s ((s.setReg a x).Ended .panic none s.faultIsWrite s.pc))

/-! ## The host's commands -/

/-- The return from an exception: `resumeHost` leaves HOST for OK and is refused otherwise, and no other command
between resets leaves a status other than OK (spec/60_exceptions.md R411, R412; spec/10_state.md R41). -/
def Obligations.OnlyResumeLeavesHost : Prop :=
  (∀ s : State, s.loaded = true → s.status = .host →
    resumeHost s = .next { s with status := .ok, exitParam := none }) ∧
  (∀ s : State, s.loaded = false ∨ s.status ≠ .host → ∃ r, resumeHost s = .refused r) ∧
  ∀ (c : Command) (s t : State), s.status ≠ .ok → c.apply s = .ok t →
    t.status = s.status ∨ (c = .resumeHost ∧ s.status = .host ∧ t.status = .ok)

/-- The reset sequence: what it writes, that nothing from before it survives, and what a blob that does not decode
leaves (spec/70_reset_and_hazards.md R440–R442, R447). -/
def Obligations.ResetSequence : Prop :=
  ∀ (blob : List Byte) (pc0 gas0 : Int) (regs : Option (List Int)) (mem : Option Builder) (s : State),
    0 ≤ pc0 → pc0 < 2 ^ 32 → 0 ≤ gas0 → gas0 ≤ s.params.gasMax →
    (∀ l, regs = some l → l.length = 13 ∧ ∀ v ∈ l, 0 ≤ v ∧ v < 2 ^ 64) →
    (∀ b, mem = some b → b.finalized = true) →
    (∀ p, decodeProgram blob = .ok p → ∃ t,
      (∀ s', s'.params = s.params → hostReset blob pc0 gas0 regs mem s' = .done t) ∧
      t.params = s.params ∧ t.loaded = true ∧ t.prog = p ∧ (t.pc.toNat : Int) = pc0 ∧ (t.gas : Int) = gas0 ∧
      (t.initialGas : Int) = gas0 ∧ t.status = .ok ∧ t.exitParam = none ∧
      (regs = none → ∀ r, t.reg r = 0) ∧
      (∀ l, regs = some l → ∀ r : Reg, ((t.reg r).toNat : Int) = l.getD r.val 0) ∧
      (mem = none → t.mem = Memory.empty) ∧ ∀ b, mem = some b → t.mem = b.mem) ∧
    ∀ e, decodeProgram blob = .error e → ∃ t, hostReset blob pc0 gas0 regs mem s = .decodeError e t ∧
      t.loaded = false ∧ t.prog = { code := [], mask := [], jt := [] } ∧ t.exitParam = none

/-- The host's register access: one register, all of them, and the byte buffer
(spec/10_state.md R35, R36). -/
def Obligations.HostRegisterAccess : Prop :=
  ∀ s : State, s.loaded = true →
    (∀ r : Reg, getReg r.val s = .ok (s.reg r)) ∧
    (∀ (r : Reg) (v : Word), ∃ t, setRegCommand r.val v s = .ok t ∧ t = { s with x := t.x } ∧
      t.reg r = v ∧ ∀ q, q ≠ r → t.reg q = s.reg q) ∧
    (∀ (i : Nat) (v : Word), 12 < i →
      getReg i s = .error .registerIndex ∧ setRegCommand i v s = .error .registerIndex) ∧
    (∀ other, Sys2Proof.Machine.copyFrom other s = .ok { s with x := other }) ∧
    (∃ l, getAllU64 s = .ok l ∧ l.length = 13 ∧ ∀ r : Reg, l.getD r.val 0 = s.reg r) ∧
    (regBuffer s.x).length = 104 ∧
    (∀ (r : Reg) (k : Nat), k < 8 →
      ((regBuffer s.x).getD (8 * r.val + k) 0).toNat = (s.reg r).toNat / 2 ^ (8 * k) % 256) ∧
    ∀ (o : Nat) (bs : List Byte), o + bs.length ≤ 104 →
      ∃ t, writeRegBuffer o bs s = .ok t ∧ t = { s with x := t.x } ∧
        ∀ j, j < 104 → (regBuffer t.x).getD j 0 =
          if o ≤ j ∧ j < o + bs.length then bs.getD (j - o) 0 else (regBuffer s.x).getD j 0

/-- The host's memory port and the page dump: the program's checks, and a fault that goes back to the host and changes
nothing (spec/20_memory.md R90, R91). -/
def Obligations.HostMemoryAccess : Prop :=
  ∀ s : State, s.loaded = true → s.mem.wf = true →
    (∀ (addr : Addr) (bs : List Byte), bs.length ≤ 2 ^ 32 →
      (∀ k, k < bs.length → s.mem.canWrite (accessAddr addr k) = true) →
      ∃ m', storeFrom addr bs s = .ok (.ok { s with mem := m' }) ∧
        Memory.SameOutside addr bs.length s.mem m' ∧
        ∀ k, k < bs.length → m'.byte (accessAddr addr k) = bs.getD k 0) ∧
    (∀ (addr : Addr) (bs : List Byte) (k : Nat), bs.length ≤ 2 ^ 32 →
      s.mem.FirstOffence ⟨addr, bs.length, true⟩ k →
      storeFrom addr bs s = .ok (.error (.pageFault (addr + BitVec.ofNat 32 k) true)) ∧
      Command.apply (.storeFrom addr bs) s = .ok s) ∧
    (∀ (addr : Addr) (n : Nat), n ≤ 2 ^ 32 →
      (∀ k, k < n → s.mem.canRead (accessAddr addr k) = true) →
      ∃ bs, loadIntoBuffer n addr s = .ok (.ok bs) ∧ bs.length = n ∧
        ∀ k, k < n → bs.getD k 0 = s.mem.byte (accessAddr addr k)) ∧
    (∀ (addr : Addr) (n k : Nat), n ≤ 2 ^ 32 → s.mem.FirstOffence ⟨addr, n, false⟩ k →
      loadIntoBuffer n addr s = .ok (.error (.pageFault (addr + BitVec.ofNat 32 k) false))) ∧
    (∀ (addr : Addr) (bs : List Byte), 2 ^ 32 < bs.length →
      storeFrom addr bs s = .error .accessTooLong) ∧
    (∀ (addr : Addr) (n : Nat), 2 ^ 32 < n → loadIntoBuffer n addr s = .error .accessTooLong) ∧
    (∀ p, 2 ^ 20 ≤ p → getPageDump p s = .ok none) ∧
    (∀ p, s.mem.pageState p = .unmapped → getPageDump p s = .ok none) ∧
    ∀ p, p < 2 ^ 20 → s.mem.pageState p ≠ .unmapped →
      ∃ bs, getPageDump p s = .ok (some bs) ∧ bs.length = 4096 ∧
        ∀ k, k < 4096 → bs.getD k 0 = s.mem.byte (4096 * p + k)

end
end

