-- ==== Sys2Proof/Laws/PerInstr.lean ====
section
/-! SUPPORT. For every instruction: its opcode has a row in the opcode map, the row has the instruction's shape, and
the row rebuilds the instruction from its arguments (spec/30_encoding.md R129, R144). -/

namespace Sys2Proof.Laws.TableRow

/-- The row of the instruction's opcode gives its shape, and builds it from its own arguments. -/
def Statement (i : Instr) : Prop :=
  (findRow i.opcode).map (fun r => (r.shape, r.build i.args)) = some (i.shape, i)

theorem trap  : Statement (.trap) := by rfl
theorem fallthrough  : Statement (.fallthrough) := by rfl
theorem ecalli (immX : Word) : Statement (.ecalli immX) := by rfl
theorem loadImm64 (rA : Reg) (immX : Word) : Statement (.loadImm64 rA immX) := by rfl
theorem storeImmU8 (immX immY : Word) : Statement (.storeImmU8 immX immY) := by rfl
theorem storeImmU16 (immX immY : Word) : Statement (.storeImmU16 immX immY) := by rfl
theorem storeImmU32 (immX immY : Word) : Statement (.storeImmU32 immX immY) := by rfl
theorem storeImmU64 (immX immY : Word) : Statement (.storeImmU64 immX immY) := by rfl
theorem jump (off : Int) : Statement (.jump off) := by rfl
theorem jumpInd (rA : Reg) (immX : Word) : Statement (.jumpInd rA immX) := by rfl
theorem loadImm (rA : Reg) (immX : Word) : Statement (.loadImm rA immX) := by rfl
theorem loadU8 (rA : Reg) (immX : Word) : Statement (.loadU8 rA immX) := by rfl
theorem loadI8 (rA : Reg) (immX : Word) : Statement (.loadI8 rA immX) := by rfl
theorem loadU16 (rA : Reg) (immX : Word) : Statement (.loadU16 rA immX) := by rfl
theorem loadI16 (rA : Reg) (immX : Word) : Statement (.loadI16 rA immX) := by rfl
theorem loadU32 (rA : Reg) (immX : Word) : Statement (.loadU32 rA immX) := by rfl
theorem loadI32 (rA : Reg) (immX : Word) : Statement (.loadI32 rA immX) := by rfl
theorem loadU64 (rA : Reg) (immX : Word) : Statement (.loadU64 rA immX) := by rfl
theorem storeU8 (rA : Reg) (immX : Word) : Statement (.storeU8 rA immX) := by rfl
theorem storeU16 (rA : Reg) (immX : Word) : Statement (.storeU16 rA immX) := by rfl
theorem storeU32 (rA : Reg) (immX : Word) : Statement (.storeU32 rA immX) := by rfl
theorem storeU64 (rA : Reg) (immX : Word) : Statement (.storeU64 rA immX) := by rfl
theorem storeImmIndU8 (rA : Reg) (immX immY : Word) : Statement (.storeImmIndU8 rA immX immY) := by rfl
theorem storeImmIndU16 (rA : Reg) (immX immY : Word) : Statement (.storeImmIndU16 rA immX immY) := by rfl
theorem storeImmIndU32 (rA : Reg) (immX immY : Word) : Statement (.storeImmIndU32 rA immX immY) := by rfl
theorem storeImmIndU64 (rA : Reg) (immX immY : Word) : Statement (.storeImmIndU64 rA immX immY) := by rfl
theorem loadImmJump (rA : Reg) (immX : Word) (off : Int) : Statement (.loadImmJump rA immX off) := by rfl
theorem branchEqImm (rA : Reg) (immX : Word) (off : Int) : Statement (.branchEqImm rA immX off) := by rfl
theorem branchNeImm (rA : Reg) (immX : Word) (off : Int) : Statement (.branchNeImm rA immX off) := by rfl
theorem branchLtUImm (rA : Reg) (immX : Word) (off : Int) : Statement (.branchLtUImm rA immX off) := by rfl
theorem branchLeUImm (rA : Reg) (immX : Word) (off : Int) : Statement (.branchLeUImm rA immX off) := by rfl
theorem branchGeUImm (rA : Reg) (immX : Word) (off : Int) : Statement (.branchGeUImm rA immX off) := by rfl
theorem branchGtUImm (rA : Reg) (immX : Word) (off : Int) : Statement (.branchGtUImm rA immX off) := by rfl
theorem branchLtSImm (rA : Reg) (immX : Word) (off : Int) : Statement (.branchLtSImm rA immX off) := by rfl
theorem branchLeSImm (rA : Reg) (immX : Word) (off : Int) : Statement (.branchLeSImm rA immX off) := by rfl
theorem branchGeSImm (rA : Reg) (immX : Word) (off : Int) : Statement (.branchGeSImm rA immX off) := by rfl
theorem branchGtSImm (rA : Reg) (immX : Word) (off : Int) : Statement (.branchGtSImm rA immX off) := by rfl
theorem moveReg (rA rD : Reg) : Statement (.moveReg rA rD) := by rfl
theorem sbrk (rA rD : Reg) : Statement (.sbrk rA rD) := by rfl
theorem countSetBits64 (rA rD : Reg) : Statement (.countSetBits64 rA rD) := by rfl
theorem countSetBits32 (rA rD : Reg) : Statement (.countSetBits32 rA rD) := by rfl
theorem leadingZeroBits64 (rA rD : Reg) : Statement (.leadingZeroBits64 rA rD) := by rfl
theorem leadingZeroBits32 (rA rD : Reg) : Statement (.leadingZeroBits32 rA rD) := by rfl
theorem trailingZeroBits64 (rA rD : Reg) : Statement (.trailingZeroBits64 rA rD) := by rfl
theorem trailingZeroBits32 (rA rD : Reg) : Statement (.trailingZeroBits32 rA rD) := by rfl
theorem signExtend8 (rA rD : Reg) : Statement (.signExtend8 rA rD) := by rfl
theorem signExtend16 (rA rD : Reg) : Statement (.signExtend16 rA rD) := by rfl
theorem zeroExtend16 (rA rD : Reg) : Statement (.zeroExtend16 rA rD) := by rfl
theorem reverseBytes (rA rD : Reg) : Statement (.reverseBytes rA rD) := by rfl
theorem storeIndU8 (rA rB : Reg) (immX : Word) : Statement (.storeIndU8 rA rB immX) := by rfl
theorem storeIndU16 (rA rB : Reg) (immX : Word) : Statement (.storeIndU16 rA rB immX) := by rfl
theorem storeIndU32 (rA rB : Reg) (immX : Word) : Statement (.storeIndU32 rA rB immX) := by rfl
theorem storeIndU64 (rA rB : Reg) (immX : Word) : Statement (.storeIndU64 rA rB immX) := by rfl
theorem loadIndU8 (rA rB : Reg) (immX : Word) : Statement (.loadIndU8 rA rB immX) := by rfl
theorem loadIndI8 (rA rB : Reg) (immX : Word) : Statement (.loadIndI8 rA rB immX) := by rfl
theorem loadIndU16 (rA rB : Reg) (immX : Word) : Statement (.loadIndU16 rA rB immX) := by rfl
theorem loadIndI16 (rA rB : Reg) (immX : Word) : Statement (.loadIndI16 rA rB immX) := by rfl
theorem loadIndU32 (rA rB : Reg) (immX : Word) : Statement (.loadIndU32 rA rB immX) := by rfl
theorem loadIndI32 (rA rB : Reg) (immX : Word) : Statement (.loadIndI32 rA rB immX) := by rfl
theorem loadIndU64 (rA rB : Reg) (immX : Word) : Statement (.loadIndU64 rA rB immX) := by rfl
theorem addImm32 (rA rB : Reg) (immX : Word) : Statement (.addImm32 rA rB immX) := by rfl
theorem andImm (rA rB : Reg) (immX : Word) : Statement (.andImm rA rB immX) := by rfl
theorem xorImm (rA rB : Reg) (immX : Word) : Statement (.xorImm rA rB immX) := by rfl
theorem orImm (rA rB : Reg) (immX : Word) : Statement (.orImm rA rB immX) := by rfl
theorem mulImm32 (rA rB : Reg) (immX : Word) : Statement (.mulImm32 rA rB immX) := by rfl
theorem setLtUImm (rA rB : Reg) (immX : Word) : Statement (.setLtUImm rA rB immX) := by rfl
theorem setLtSImm (rA rB : Reg) (immX : Word) : Statement (.setLtSImm rA rB immX) := by rfl
theorem shloLImm32 (rA rB : Reg) (immX : Word) : Statement (.shloLImm32 rA rB immX) := by rfl
theorem shloRImm32 (rA rB : Reg) (immX : Word) : Statement (.shloRImm32 rA rB immX) := by rfl
theorem sharRImm32 (rA rB : Reg) (immX : Word) : Statement (.sharRImm32 rA rB immX) := by rfl
theorem negAddImm32 (rA rB : Reg) (immX : Word) : Statement (.negAddImm32 rA rB immX) := by rfl
theorem setGtUImm (rA rB : Reg) (immX : Word) : Statement (.setGtUImm rA rB immX) := by rfl
theorem setGtSImm (rA rB : Reg) (immX : Word) : Statement (.setGtSImm rA rB immX) := by rfl
theorem shloLImmAlt32 (rA rB : Reg) (immX : Word) : Statement (.shloLImmAlt32 rA rB immX) := by rfl
theorem shloRImmAlt32 (rA rB : Reg) (immX : Word) : Statement (.shloRImmAlt32 rA rB immX) := by rfl
theorem sharRImmAlt32 (rA rB : Reg) (immX : Word) : Statement (.sharRImmAlt32 rA rB immX) := by rfl
theorem cmovIzImm (rA rB : Reg) (immX : Word) : Statement (.cmovIzImm rA rB immX) := by rfl
theorem cmovNzImm (rA rB : Reg) (immX : Word) : Statement (.cmovNzImm rA rB immX) := by rfl
theorem addImm64 (rA rB : Reg) (immX : Word) : Statement (.addImm64 rA rB immX) := by rfl
theorem mulImm64 (rA rB : Reg) (immX : Word) : Statement (.mulImm64 rA rB immX) := by rfl
theorem shloLImm64 (rA rB : Reg) (immX : Word) : Statement (.shloLImm64 rA rB immX) := by rfl
theorem shloRImm64 (rA rB : Reg) (immX : Word) : Statement (.shloRImm64 rA rB immX) := by rfl
theorem sharRImm64 (rA rB : Reg) (immX : Word) : Statement (.sharRImm64 rA rB immX) := by rfl
theorem negAddImm64 (rA rB : Reg) (immX : Word) : Statement (.negAddImm64 rA rB immX) := by rfl
theorem shloLImmAlt64 (rA rB : Reg) (immX : Word) : Statement (.shloLImmAlt64 rA rB immX) := by rfl
theorem shloRImmAlt64 (rA rB : Reg) (immX : Word) : Statement (.shloRImmAlt64 rA rB immX) := by rfl
theorem sharRImmAlt64 (rA rB : Reg) (immX : Word) : Statement (.sharRImmAlt64 rA rB immX) := by rfl
theorem rotR64Imm (rA rB : Reg) (immX : Word) : Statement (.rotR64Imm rA rB immX) := by rfl
theorem rotR64ImmAlt (rA rB : Reg) (immX : Word) : Statement (.rotR64ImmAlt rA rB immX) := by rfl
theorem rotR32Imm (rA rB : Reg) (immX : Word) : Statement (.rotR32Imm rA rB immX) := by rfl
theorem rotR32ImmAlt (rA rB : Reg) (immX : Word) : Statement (.rotR32ImmAlt rA rB immX) := by rfl
theorem branchEq (rA rB : Reg) (off : Int) : Statement (.branchEq rA rB off) := by rfl
theorem branchNe (rA rB : Reg) (off : Int) : Statement (.branchNe rA rB off) := by rfl
theorem branchLtU (rA rB : Reg) (off : Int) : Statement (.branchLtU rA rB off) := by rfl
theorem branchLtS (rA rB : Reg) (off : Int) : Statement (.branchLtS rA rB off) := by rfl
theorem branchGeU (rA rB : Reg) (off : Int) : Statement (.branchGeU rA rB off) := by rfl
theorem branchGeS (rA rB : Reg) (off : Int) : Statement (.branchGeS rA rB off) := by rfl
theorem loadImmJumpInd (rA rB : Reg) (immX immY : Word) : Statement (.loadImmJumpInd rA rB immX immY) := by rfl
theorem add32 (rA rB rD : Reg) : Statement (.add32 rA rB rD) := by rfl
theorem sub32 (rA rB rD : Reg) : Statement (.sub32 rA rB rD) := by rfl
theorem mul32 (rA rB rD : Reg) : Statement (.mul32 rA rB rD) := by rfl
theorem divU32 (rA rB rD : Reg) : Statement (.divU32 rA rB rD) := by rfl
theorem divS32 (rA rB rD : Reg) : Statement (.divS32 rA rB rD) := by rfl
theorem remU32 (rA rB rD : Reg) : Statement (.remU32 rA rB rD) := by rfl
theorem remS32 (rA rB rD : Reg) : Statement (.remS32 rA rB rD) := by rfl
theorem shloL32 (rA rB rD : Reg) : Statement (.shloL32 rA rB rD) := by rfl
theorem shloR32 (rA rB rD : Reg) : Statement (.shloR32 rA rB rD) := by rfl
theorem sharR32 (rA rB rD : Reg) : Statement (.sharR32 rA rB rD) := by rfl
theorem add64 (rA rB rD : Reg) : Statement (.add64 rA rB rD) := by rfl
theorem sub64 (rA rB rD : Reg) : Statement (.sub64 rA rB rD) := by rfl
theorem mul64 (rA rB rD : Reg) : Statement (.mul64 rA rB rD) := by rfl
theorem divU64 (rA rB rD : Reg) : Statement (.divU64 rA rB rD) := by rfl
theorem divS64 (rA rB rD : Reg) : Statement (.divS64 rA rB rD) := by rfl
theorem remU64 (rA rB rD : Reg) : Statement (.remU64 rA rB rD) := by rfl
theorem remS64 (rA rB rD : Reg) : Statement (.remS64 rA rB rD) := by rfl
theorem shloL64 (rA rB rD : Reg) : Statement (.shloL64 rA rB rD) := by rfl
theorem shloR64 (rA rB rD : Reg) : Statement (.shloR64 rA rB rD) := by rfl
theorem sharR64 (rA rB rD : Reg) : Statement (.sharR64 rA rB rD) := by rfl
theorem andReg (rA rB rD : Reg) : Statement (.andReg rA rB rD) := by rfl
theorem xorReg (rA rB rD : Reg) : Statement (.xorReg rA rB rD) := by rfl
theorem orReg (rA rB rD : Reg) : Statement (.orReg rA rB rD) := by rfl
theorem mulUpperSS (rA rB rD : Reg) : Statement (.mulUpperSS rA rB rD) := by rfl
theorem mulUpperUU (rA rB rD : Reg) : Statement (.mulUpperUU rA rB rD) := by rfl
theorem mulUpperSU (rA rB rD : Reg) : Statement (.mulUpperSU rA rB rD) := by rfl
theorem setLtU (rA rB rD : Reg) : Statement (.setLtU rA rB rD) := by rfl
theorem setLtS (rA rB rD : Reg) : Statement (.setLtS rA rB rD) := by rfl
theorem cmovIz (rA rB rD : Reg) : Statement (.cmovIz rA rB rD) := by rfl
theorem cmovNz (rA rB rD : Reg) : Statement (.cmovNz rA rB rD) := by rfl
theorem rotL64 (rA rB rD : Reg) : Statement (.rotL64 rA rB rD) := by rfl
theorem rotL32 (rA rB rD : Reg) : Statement (.rotL32 rA rB rD) := by rfl
theorem rotR64 (rA rB rD : Reg) : Statement (.rotR64 rA rB rD) := by rfl
theorem rotR32 (rA rB rD : Reg) : Statement (.rotR32 rA rB rD) := by rfl
theorem andInv (rA rB rD : Reg) : Statement (.andInv rA rB rD) := by rfl
theorem orInv (rA rB rD : Reg) : Statement (.orInv rA rB rD) := by rfl
theorem xnor (rA rB rD : Reg) : Statement (.xnor rA rB rD) := by rfl
theorem maxS (rA rB rD : Reg) : Statement (.maxS rA rB rD) := by rfl
theorem maxU (rA rB rD : Reg) : Statement (.maxU rA rB rD) := by rfl
theorem minS (rA rB rD : Reg) : Statement (.minS rA rB rD) := by rfl
theorem minU (rA rB rD : Reg) : Statement (.minU rA rB rD) := by rfl

end Sys2Proof.Laws.TableRow
end

