-- ==== Sys2Proof/Laws/Decode.lean ====
section
/-! SUPPORT. The fields that the decoder reads from bytes that the encoder wrote, and the lengths of encoded
operands. -/

namespace Sys2Proof

/-! ## Reading fields -/

theorem byteAt_append_left {a b : List Byte} {i : Nat} (h : i < a.length) : byteAt (a ++ b) i = byteAt a i := by
  simp [byteAt, List.getElem?_append_left h]

theorem byteAt_append_right (a b : List Byte) (i : Nat) : byteAt (a ++ b) (a.length + i) = byteAt b i := by
  simp only [byteAt, List.getD_eq_getElem?_getD]
  rw [List.getElem?_append_right (Nat.le_add_right _ _), Nat.add_sub_cancel_left]

@[simp] theorem byteAt_cons_zero (b : Byte) (bs : List Byte) : byteAt (b :: bs) 0 = b.toNat := by simp [byteAt]

@[simp] theorem byteAt_cons_succ (b : Byte) (bs : List Byte) (i : Nat) : byteAt (b :: bs) (i + 1) = byteAt bs i := by
  simp [byteAt]

/-- A field reads the same in the bytes from a later offset on. -/
theorem fieldAt_append_right (a b : List Byte) (o n : Nat) : fieldAt (a ++ b) (a.length + o) n = fieldAt b o n := by
  induction n generalizing o with
  | zero => rfl
  | succ n ih =>
    simp only [fieldAt, byteAt_append_right]
    rw [show a.length + o + 1 = a.length + (o + 1) by omega, ih]

theorem fieldAt_cons_succ (b : Byte) (bs : List Byte) (o n : Nat) :
    fieldAt (b :: bs) (o + 1) n = fieldAt bs o n := by
  have := fieldAt_append_right [b] bs o n
  rw [List.length_singleton, Nat.add_comm] at this
  exact this

/-- A field at the head of written bytes. -/
theorem fieldAt_leBytes (n v : Nat) (rest : List Byte) : fieldAt (leBytes n v ++ rest) 0 n = v % 256 ^ n := by
  induction n generalizing v with
  | zero => simp [fieldAt, Nat.mod_one]
  | succ n ih =>
    simp only [leBytes, List.cons_append, fieldAt, byteAt_cons_zero, BitVec.toNat_ofNat, Nat.zero_add]
    rw [show (1 : Nat) = 0 + 1 from rfl, fieldAt_cons_succ, ih, show 256 ^ (n + 1) = 256 * 256 ^ n by ring,
      Nat.mod_mul]

theorem fieldAt_lt (bs : List Byte) (o n : Nat) : fieldAt bs o n < 256 ^ n := by
  induction n generalizing o with
  | zero => simp [fieldAt]
  | succ n ih =>
    have h1 := ih (o + 1)
    have h2 : byteAt bs o < 256 := (bs.getD o 0).isLt
    rw [fieldAt, show 256 ^ (n + 1) = 256 * 256 ^ n by ring]
    omega

/-! ## Sign extension -/

theorem sext_mod (n v : Nat) : sext (8 * n) (v % 256 ^ n) = sext (8 * n) v := by
  have h : BitVec.ofNat (8 * n) (v % 256 ^ n) = BitVec.ofNat (8 * n) v := by
    apply BitVec.eq_of_toNat_eq
    simp only [BitVec.toNat_ofNat]
    rw [show (2 : Nat) ^ (8 * n) = 256 ^ n by rw [Nat.pow_mul], Nat.mod_mod]
  rw [sext, h, sext]

theorem signedOf_mod (n v : Nat) : signedOf (8 * n) (v % 256 ^ n) = signedOf (8 * n) v := by
  have h : BitVec.ofNat (8 * n) (v % 256 ^ n) = BitVec.ofNat (8 * n) v := by
    apply BitVec.eq_of_toNat_eq
    simp only [BitVec.toNat_ofNat]
    rw [show (2 : Nat) ^ (8 * n) = 256 ^ n by rw [Nat.pow_mul], Nat.mod_mod]
  rw [signedOf, h, signedOf]

/-- The decoder reads back an immediate that its bytes hold. -/
theorem immAt_leBytes {P : Params} {n : Nat} {v : Word} (h : immFits P n v = true) (rest : List Byte) :
    immAt (leBytes n v.toNat ++ rest) 0 n = v := by
  simp only [immFits, Bool.and_eq_true, beq_iff_eq] at h
  rw [immAt, fieldAt_leBytes, sext_mod, h.2]

/-- The decoder reads back an offset that its bytes hold. -/
theorem offAt_leBytes {P : Params} {n : Nat} {o : Int} (h : offFits P n o = true) (rest : List Byte) :
    offAt (leBytes n (u64 o).toNat ++ rest) 0 n = o := by
  simp only [offFits, Bool.and_eq_true, beq_iff_eq] at h
  rw [offAt, fieldAt_leBytes, signedOf_mod, h.2]

theorem immAt_append_right (a b : List Byte) (o n : Nat) : immAt (a ++ b) (a.length + o) n = immAt b o n := by
  rw [immAt, fieldAt_append_right, immAt]

theorem offAt_append_right (a b : List Byte) (o n : Nat) : offAt (a ++ b) (a.length + o) n = offAt b o n := by
  rw [offAt, fieldAt_append_right, offAt]

theorem immAt_cons_succ (b : Byte) (bs : List Byte) (o n : Nat) :
    immAt (b :: bs) (o + 1) n = immAt bs o n := by rw [immAt, fieldAt_cons_succ, immAt]

theorem offAt_cons_succ (b : Byte) (bs : List Byte) (o n : Nat) :
    offAt (b :: bs) (o + 1) n = offAt bs o n := by rw [offAt, fieldAt_cons_succ, offAt]

theorem immFits_le {P : Params} {n : Nat} {v : Word} (h : immFits P n v = true) : n ≤ P.maxImm := by
  simp only [immFits, Bool.and_eq_true, decide_eq_true_eq] at h; exact h.1

theorem offFits_le {P : Params} {n : Nat} {o : Int} (h : offFits P n o = true) : n ≤ P.maxImm := by
  simp only [offFits, Bool.and_eq_true, decide_eq_true_eq] at h; exact h.1

/-! ## Nibbles and lengths -/

theorem lo_nibbles {l h : Nat} (hl : l < 16) : lo (nibbles l h).toNat = l := by
  simp only [lo, nibbles, BitVec.toNat_ofNat]; omega

theorem hi_nibbles {l h : Nat} (hl : l < 16) (hh : h < 16) : hi (nibbles l h).toNat = h := by
  simp only [hi, nibbles, BitVec.toNat_ofNat]; omega

theorem nibbles_mod {l h : Nat} (hl : l < 8) : (nibbles l h).toNat % 8 = l := by
  simp only [nibbles, BitVec.toNat_ofNat]; omega

theorem nibbles_zero {l : Nat} (hl : l < 16) : (nibbles l 0).toNat = l := by
  simp only [nibbles, BitVec.toNat_ofNat]; omega

@[simp] theorem regOf_val (r : Reg) : regOf r.val = r := by
  have := r.isLt
  apply Fin.ext
  simp only [regOf]; omega

theorem lenField_of_le {P : Params} {n : Nat} (hP : P.wf = true) (h : n ≤ P.maxImm) : lenField P n = n := by
  simp only [Params.wf, Bool.and_eq_true, decide_eq_true_eq] at hP
  simp only [lenField]; omega

theorem reg_lt (r : Reg) : r.val < 16 := by have := r.isLt; omega

/-! ## The table -/

/-- Every instruction's number has a row, with its shape, that rebuilds it. -/
theorem findRow_opcode (i : Instr) :
    ∃ r, findRow i.opcode = some r ∧ r.shape = i.shape ∧ r.build i.args = i := by
  have h : Laws.TableRow.Statement i := by
    cases i
    case trap => exact Laws.TableRow.trap
    case fallthrough => exact Laws.TableRow.fallthrough
    case ecalli => exact Laws.TableRow.ecalli _
    case loadImm64 => exact Laws.TableRow.loadImm64 _ _
    case storeImmU8 => exact Laws.TableRow.storeImmU8 _ _
    case storeImmU16 => exact Laws.TableRow.storeImmU16 _ _
    case storeImmU32 => exact Laws.TableRow.storeImmU32 _ _
    case storeImmU64 => exact Laws.TableRow.storeImmU64 _ _
    case jump => exact Laws.TableRow.jump _
    case jumpInd => exact Laws.TableRow.jumpInd _ _
    case loadImm => exact Laws.TableRow.loadImm _ _
    case loadU8 => exact Laws.TableRow.loadU8 _ _
    case loadI8 => exact Laws.TableRow.loadI8 _ _
    case loadU16 => exact Laws.TableRow.loadU16 _ _
    case loadI16 => exact Laws.TableRow.loadI16 _ _
    case loadU32 => exact Laws.TableRow.loadU32 _ _
    case loadI32 => exact Laws.TableRow.loadI32 _ _
    case loadU64 => exact Laws.TableRow.loadU64 _ _
    case storeU8 => exact Laws.TableRow.storeU8 _ _
    case storeU16 => exact Laws.TableRow.storeU16 _ _
    case storeU32 => exact Laws.TableRow.storeU32 _ _
    case storeU64 => exact Laws.TableRow.storeU64 _ _
    case storeImmIndU8 => exact Laws.TableRow.storeImmIndU8 _ _ _
    case storeImmIndU16 => exact Laws.TableRow.storeImmIndU16 _ _ _
    case storeImmIndU32 => exact Laws.TableRow.storeImmIndU32 _ _ _
    case storeImmIndU64 => exact Laws.TableRow.storeImmIndU64 _ _ _
    case loadImmJump => exact Laws.TableRow.loadImmJump _ _ _
    case branchEqImm => exact Laws.TableRow.branchEqImm _ _ _
    case branchNeImm => exact Laws.TableRow.branchNeImm _ _ _
    case branchLtUImm => exact Laws.TableRow.branchLtUImm _ _ _
    case branchLeUImm => exact Laws.TableRow.branchLeUImm _ _ _
    case branchGeUImm => exact Laws.TableRow.branchGeUImm _ _ _
    case branchGtUImm => exact Laws.TableRow.branchGtUImm _ _ _
    case branchLtSImm => exact Laws.TableRow.branchLtSImm _ _ _
    case branchLeSImm => exact Laws.TableRow.branchLeSImm _ _ _
    case branchGeSImm => exact Laws.TableRow.branchGeSImm _ _ _
    case branchGtSImm => exact Laws.TableRow.branchGtSImm _ _ _
    case moveReg => exact Laws.TableRow.moveReg _ _
    case sbrk => exact Laws.TableRow.sbrk _ _
    case countSetBits64 => exact Laws.TableRow.countSetBits64 _ _
    case countSetBits32 => exact Laws.TableRow.countSetBits32 _ _
    case leadingZeroBits64 => exact Laws.TableRow.leadingZeroBits64 _ _
    case leadingZeroBits32 => exact Laws.TableRow.leadingZeroBits32 _ _
    case trailingZeroBits64 => exact Laws.TableRow.trailingZeroBits64 _ _
    case trailingZeroBits32 => exact Laws.TableRow.trailingZeroBits32 _ _
    case signExtend8 => exact Laws.TableRow.signExtend8 _ _
    case signExtend16 => exact Laws.TableRow.signExtend16 _ _
    case zeroExtend16 => exact Laws.TableRow.zeroExtend16 _ _
    case reverseBytes => exact Laws.TableRow.reverseBytes _ _
    case storeIndU8 => exact Laws.TableRow.storeIndU8 _ _ _
    case storeIndU16 => exact Laws.TableRow.storeIndU16 _ _ _
    case storeIndU32 => exact Laws.TableRow.storeIndU32 _ _ _
    case storeIndU64 => exact Laws.TableRow.storeIndU64 _ _ _
    case loadIndU8 => exact Laws.TableRow.loadIndU8 _ _ _
    case loadIndI8 => exact Laws.TableRow.loadIndI8 _ _ _
    case loadIndU16 => exact Laws.TableRow.loadIndU16 _ _ _
    case loadIndI16 => exact Laws.TableRow.loadIndI16 _ _ _
    case loadIndU32 => exact Laws.TableRow.loadIndU32 _ _ _
    case loadIndI32 => exact Laws.TableRow.loadIndI32 _ _ _
    case loadIndU64 => exact Laws.TableRow.loadIndU64 _ _ _
    case addImm32 => exact Laws.TableRow.addImm32 _ _ _
    case andImm => exact Laws.TableRow.andImm _ _ _
    case xorImm => exact Laws.TableRow.xorImm _ _ _
    case orImm => exact Laws.TableRow.orImm _ _ _
    case mulImm32 => exact Laws.TableRow.mulImm32 _ _ _
    case setLtUImm => exact Laws.TableRow.setLtUImm _ _ _
    case setLtSImm => exact Laws.TableRow.setLtSImm _ _ _
    case shloLImm32 => exact Laws.TableRow.shloLImm32 _ _ _
    case shloRImm32 => exact Laws.TableRow.shloRImm32 _ _ _
    case sharRImm32 => exact Laws.TableRow.sharRImm32 _ _ _
    case negAddImm32 => exact Laws.TableRow.negAddImm32 _ _ _
    case setGtUImm => exact Laws.TableRow.setGtUImm _ _ _
    case setGtSImm => exact Laws.TableRow.setGtSImm _ _ _
    case shloLImmAlt32 => exact Laws.TableRow.shloLImmAlt32 _ _ _
    case shloRImmAlt32 => exact Laws.TableRow.shloRImmAlt32 _ _ _
    case sharRImmAlt32 => exact Laws.TableRow.sharRImmAlt32 _ _ _
    case cmovIzImm => exact Laws.TableRow.cmovIzImm _ _ _
    case cmovNzImm => exact Laws.TableRow.cmovNzImm _ _ _
    case addImm64 => exact Laws.TableRow.addImm64 _ _ _
    case mulImm64 => exact Laws.TableRow.mulImm64 _ _ _
    case shloLImm64 => exact Laws.TableRow.shloLImm64 _ _ _
    case shloRImm64 => exact Laws.TableRow.shloRImm64 _ _ _
    case sharRImm64 => exact Laws.TableRow.sharRImm64 _ _ _
    case negAddImm64 => exact Laws.TableRow.negAddImm64 _ _ _
    case shloLImmAlt64 => exact Laws.TableRow.shloLImmAlt64 _ _ _
    case shloRImmAlt64 => exact Laws.TableRow.shloRImmAlt64 _ _ _
    case sharRImmAlt64 => exact Laws.TableRow.sharRImmAlt64 _ _ _
    case rotR64Imm => exact Laws.TableRow.rotR64Imm _ _ _
    case rotR64ImmAlt => exact Laws.TableRow.rotR64ImmAlt _ _ _
    case rotR32Imm => exact Laws.TableRow.rotR32Imm _ _ _
    case rotR32ImmAlt => exact Laws.TableRow.rotR32ImmAlt _ _ _
    case branchEq => exact Laws.TableRow.branchEq _ _ _
    case branchNe => exact Laws.TableRow.branchNe _ _ _
    case branchLtU => exact Laws.TableRow.branchLtU _ _ _
    case branchLtS => exact Laws.TableRow.branchLtS _ _ _
    case branchGeU => exact Laws.TableRow.branchGeU _ _ _
    case branchGeS => exact Laws.TableRow.branchGeS _ _ _
    case loadImmJumpInd => exact Laws.TableRow.loadImmJumpInd _ _ _ _
    case add32 => exact Laws.TableRow.add32 _ _ _
    case sub32 => exact Laws.TableRow.sub32 _ _ _
    case mul32 => exact Laws.TableRow.mul32 _ _ _
    case divU32 => exact Laws.TableRow.divU32 _ _ _
    case divS32 => exact Laws.TableRow.divS32 _ _ _
    case remU32 => exact Laws.TableRow.remU32 _ _ _
    case remS32 => exact Laws.TableRow.remS32 _ _ _
    case shloL32 => exact Laws.TableRow.shloL32 _ _ _
    case shloR32 => exact Laws.TableRow.shloR32 _ _ _
    case sharR32 => exact Laws.TableRow.sharR32 _ _ _
    case add64 => exact Laws.TableRow.add64 _ _ _
    case sub64 => exact Laws.TableRow.sub64 _ _ _
    case mul64 => exact Laws.TableRow.mul64 _ _ _
    case divU64 => exact Laws.TableRow.divU64 _ _ _
    case divS64 => exact Laws.TableRow.divS64 _ _ _
    case remU64 => exact Laws.TableRow.remU64 _ _ _
    case remS64 => exact Laws.TableRow.remS64 _ _ _
    case shloL64 => exact Laws.TableRow.shloL64 _ _ _
    case shloR64 => exact Laws.TableRow.shloR64 _ _ _
    case sharR64 => exact Laws.TableRow.sharR64 _ _ _
    case andReg => exact Laws.TableRow.andReg _ _ _
    case xorReg => exact Laws.TableRow.xorReg _ _ _
    case orReg => exact Laws.TableRow.orReg _ _ _
    case mulUpperSS => exact Laws.TableRow.mulUpperSS _ _ _
    case mulUpperUU => exact Laws.TableRow.mulUpperUU _ _ _
    case mulUpperSU => exact Laws.TableRow.mulUpperSU _ _ _
    case setLtU => exact Laws.TableRow.setLtU _ _ _
    case setLtS => exact Laws.TableRow.setLtS _ _ _
    case cmovIz => exact Laws.TableRow.cmovIz _ _ _
    case cmovNz => exact Laws.TableRow.cmovNz _ _ _
    case rotL64 => exact Laws.TableRow.rotL64 _ _ _
    case rotL32 => exact Laws.TableRow.rotL32 _ _ _
    case rotR64 => exact Laws.TableRow.rotR64 _ _ _
    case rotR32 => exact Laws.TableRow.rotR32 _ _ _
    case andInv => exact Laws.TableRow.andInv _ _ _
    case orInv => exact Laws.TableRow.orInv _ _ _
    case xnor => exact Laws.TableRow.xnor _ _ _
    case maxS => exact Laws.TableRow.maxS _ _ _
    case maxU => exact Laws.TableRow.maxU _ _ _
    case minS => exact Laws.TableRow.minS _ _ _
    case minU => exact Laws.TableRow.minU _ _ _
  simp only [Laws.TableRow.Statement, Option.map_eq_some_iff, Prod.mk.injEq] at h
  obtain ⟨r, hr, hs, hb⟩ := h
  exact ⟨r, hr, hs, hb⟩

/-- Every row of the opcode map builds the instruction of its number. -/
theorem findRow_op {n : Nat} {r : OpRow} (h : findRow n = some r) : r.op = n ∧ ∀ a, (r.build a).opcode = n := by
  have hn : r.op = n := by simpa using List.find?_some h
  have hb : ∀ r ∈ opTable, ∀ a, (r.build a).opcode = r.op := by
    intro r hr a
    simp only [opTable, opRows1, opRows2, opRows3, opRows4, List.mem_append, List.mem_cons, List.not_mem_nil,
      or_false] at hr
    rcases hr with ((h | h) | h) | h
    all_goals (repeat' (rcases h with rfl | h)) <;> rfl
  exact ⟨hn, fun a => by rw [hb r (List.mem_of_find?_eq_some h), hn]⟩

/-- What the opcode table has for an opcode: a semantic rule of R144, in the shape that the table gives
(spec/00_scope.md R9). -/
theorem Params.row_eq_some {P : Params} {op : Nat} {r : OpRow} (h : P.row op = some r) :
    ∃ r', findRow r.op = some r' ∧ r = { r' with shape := r.shape } := by
  unfold Params.row at h
  split at h
  · exact ⟨r, by rw [(findRow_op h).1]; exact h, rfl⟩
  · cases h
  · obtain ⟨r', hr, rfl⟩ := Option.map_eq_some_iff.mp h
    exact ⟨r', by rw [← (findRow_op hr).1] at hr; exact hr, rfl⟩

/-- The opcode that the encoder takes for an instruction stands for it. -/
theorem Params.standsFor_of_opcodeOf {P : Params} {n op : Nat} (h : P.opcodeOf n = some op) :
    P.standsFor op n = true := by
  unfold Params.opcodeOf at h
  split at h
  · cases h
    assumption
  · simpa using List.find?_some h

/-- The default opcode table is that of R144. -/
@[simp] theorem row_default (op : Nat) : Params.default.row op = findRow op := rfl

/-- The fields that an instruction has are those of its shape. -/
@[simp] theorem restrict_args (i : Instr) : i.args.restrict i.shape = i.args := by cases i <;> rfl

theorem opcode_lt (i : Instr) : i.opcode < 256 := by cases i <;> simp [Instr.opcode]

end Sys2Proof
end

