-- ==== Sys2Proof/Laws/Sparse.lean ====
section
/-! SUPPORT. The laws of sparse maps: a write changes one key, keeps the canonical form, and two canonical maps
that read alike are equal. -/

namespace Sys2Proof.Machine

variable {α : Type} [DecidableEq α] {d : α}

/-- The keys rise strictly. -/
def sparseSorted {α : Type} (m : List (Nat × α)) : Prop := m.Pairwise (fun a b => a.1 < b.1)

theorem sparseWf_iff (m : List (Nat × α)) :
    sparseWf d m = true ↔ sparseSorted m ∧ ∀ e ∈ m, e.2 ≠ d := by
  simp [sparseWf, sparseSorted]

omit [DecidableEq α] in
/-- A key below all listed keys reads the default. -/
theorem sparseGet_of_lt {m : List (Nat × α)} {k : Nat} (h : ∀ e ∈ m, k < e.1) : sparseGet d m k = d := by
  induction m with
  | nil => rfl
  | cons e t ih =>
    obtain ⟨k', v'⟩ := e
    have hk : k < k' := h (k', v') (by simp)
    simp [sparseGet, Nat.ne_of_lt hk]
    exact ih fun e he => h e (by simp [he])

omit [DecidableEq α] in
/-- What a map with no such key reads. -/
theorem sparseGet_of_not_mem {m : List (Nat × α)} {k : Nat} (h : ∀ e ∈ m, e.1 ≠ k) :
    sparseGet d m k = d := by
  induction m with
  | nil => rfl
  | cons e t ih =>
    obtain ⟨k', v'⟩ := e
    have hk : k' ≠ k := h (k', v') (by simp)
    simp [sparseGet, Ne.symm hk]
    exact ih fun e he => h e (by simp [he])

omit [DecidableEq α] in
/-- In a sorted map, a listed entry is what its key reads. -/
theorem sparseGet_of_mem {m : List (Nat × α)} (hs : sparseSorted m) {k : Nat} {v : α} (h : (k, v) ∈ m) :
    sparseGet d m k = v := by
  induction m with
  | nil => simp at h
  | cons e t ih =>
    obtain ⟨k', v'⟩ := e
    simp only [sparseSorted, List.pairwise_cons] at hs
    rcases List.mem_cons.mp h with he | he
    · cases he; simp [sparseGet]
    · have : k' < k := hs.1 _ he
      simp [sparseGet, Nat.ne_of_gt this]
      exact ih hs.2 he

/-- A write leaves every other key as it was. -/
theorem sparseGet_set_ne (m : List (Nat × α)) {k k' : Nat} (v : α) (h : k' ≠ k) :
    sparseGet d (sparseSet d k v m) k' = sparseGet d m k' := by
  induction m with
  | nil => by_cases hv : v = d <;> simp [sparseSet, sparseEntry, sparseGet, hv, h]
  | cons e t ih =>
    obtain ⟨k₁, v₁⟩ := e
    by_cases h1 : k < k₁
    · by_cases hv : v = d <;> simp [sparseSet, sparseEntry, sparseGet, hv, h, h1]
    · by_cases h2 : k = k₁
      · subst h2
        by_cases hv : v = d <;> simp [sparseSet, sparseEntry, sparseGet, hv, h]
      · simp only [sparseSet, h1, h2, if_false, sparseGet]
        split
        · rfl
        · exact ih

/-- A key reads what was written to it. -/
theorem sparseGet_set_self {m : List (Nat × α)} (hs : sparseSorted m) (k : Nat) (v : α) :
    sparseGet d (sparseSet d k v m) k = v := by
  induction m with
  | nil => by_cases hv : v = d <;> simp [sparseSet, sparseEntry, sparseGet, hv]
  | cons e t ih =>
    obtain ⟨k₁, v₁⟩ := e
    simp only [sparseSorted, List.pairwise_cons] at hs
    by_cases h1 : k < k₁
    · by_cases hv : v = d
      · simp only [sparseSet, h1, if_true, sparseEntry, hv, List.nil_append]
        apply sparseGet_of_lt
        intro e he
        rcases List.mem_cons.mp he with rfl | he
        · exact h1
        · exact Nat.lt_trans h1 (hs.1 e he)
      · simp [sparseSet, sparseEntry, sparseGet, hv, h1]
    · by_cases h2 : k = k₁
      · subst h2
        by_cases hv : v = d
        · simp only [sparseSet, Nat.lt_irrefl, if_false, if_true, sparseEntry, hv, List.nil_append]
          exact sparseGet_of_lt fun e he => hs.1 e he
        · simp [sparseSet, sparseEntry, sparseGet, hv]
      · simp only [sparseSet, h1, h2, if_false, sparseGet]
        exact ih hs.2

/-- A key reads the value written to it, in any map, if the value is not the default. -/
theorem sparseGet_set_self_of_ne (m : List (Nat × α)) (k : Nat) {v : α} (hv : v ≠ d) :
    sparseGet d (sparseSet d k v m) k = v := by
  induction m with
  | nil => simp [sparseSet, sparseEntry, sparseGet, hv]
  | cons e t ih =>
    obtain ⟨k₁, v₁⟩ := e
    simp only [sparseSet]
    split
    · simp [sparseEntry, sparseGet, hv]
    · split
      · simp [sparseEntry, sparseGet, hv]
      · rename_i h
        simp [sparseGet, h, ih]

omit [DecidableEq α] in
/-- A map cut down to the keys that satisfy `p`. -/
theorem sparseGet_filter (m : List (Nat × α)) (p : Nat → Bool) (k : Nat) :
    sparseGet d (m.filter fun e => p e.1) k = if p k then sparseGet d m k else d := by
  induction m with
  | nil => simp [sparseGet]
  | cons e t ih =>
    obtain ⟨k₁, v₁⟩ := e
    by_cases hp : p k₁
    · by_cases hk : k = k₁
      · subst hk; simp [hp, sparseGet]
      · simp [hp, sparseGet, hk, ih]
    · by_cases hk : k = k₁
      · subst hk; simp [hp, ih]
      · simp [hp, sparseGet, hk, ih]

/-- A cut keeps the canonical form. -/
theorem sparseWf_filter {m : List (Nat × α)} (h : sparseWf d m = true) (p : Nat × α → Bool) :
    sparseWf d (m.filter p) = true := by
  rw [sparseWf_iff] at h ⊢
  exact ⟨h.1.filter p, fun e he => h.2 e (List.mem_filter.mp he).1⟩

/-- The entries after a write: those of other keys, and the written one unless it is the default. -/
theorem mem_sparseSet {m : List (Nat × α)} {k : Nat} {v : α} {e : Nat × α}
    (h : e ∈ sparseSet d k v m) : e ∈ m ∨ (e = (k, v) ∧ v ≠ d) := by
  induction m with
  | nil =>
    by_cases hv : v = d <;> simp [sparseSet, sparseEntry, hv] at h
    exact .inr ⟨h, hv⟩
  | cons e₁ t ih =>
    obtain ⟨k₁, v₁⟩ := e₁
    simp only [sparseSet] at h
    split at h
    · by_cases hv : v = d <;> simp [sparseEntry, hv] at h
      · exact .inl (by simpa using h)
      · rcases h with h | h
        · exact .inr ⟨h, hv⟩
        · exact .inl (by simpa using h)
    · split at h
      · by_cases hv : v = d <;> simp [sparseEntry, hv] at h
        · exact .inl (by simp [h])
        · rcases h with h | h
          · exact .inr ⟨h, hv⟩
          · exact .inl (by simp [h])
      · rcases List.mem_cons.mp h with h | h
        · exact .inl (by simp [h])
        · rcases ih h with h | h
          · exact .inl (by simp [h])
          · exact .inr h

/-- A write keeps the keys rising. -/
theorem sparseSorted_set {m : List (Nat × α)} (hs : sparseSorted m) (k : Nat) (v : α) :
    sparseSorted (sparseSet d k v m) := by
  induction m with
  | nil => by_cases hv : v = d <;> simp [sparseSet, sparseEntry, sparseSorted, hv]
  | cons e₁ t ih =>
    obtain ⟨k₁, v₁⟩ := e₁
    have hs' := hs
    simp only [sparseSorted, List.pairwise_cons] at hs
    simp only [sparseSet]
    split
    · rename_i hlt
      by_cases hv : v = d
      · simpa [sparseEntry, hv] using hs'
      · simp only [sparseEntry, hv, if_false, List.singleton_append, sparseSorted, List.pairwise_cons]
        refine ⟨?_, hs.1, hs.2⟩
        intro e he
        rcases List.mem_cons.mp he with rfl | he
        · exact hlt
        · exact Nat.lt_trans hlt (hs.1 e he)
    · split
      · rename_i _ heq
        subst heq
        by_cases hv : v = d
        · simpa [sparseEntry, hv, sparseSorted] using hs.2
        · simp only [sparseEntry, hv, if_false, List.singleton_append, sparseSorted, List.pairwise_cons]
          exact ⟨fun e he => hs.1 e he, hs.2⟩
      · rename_i hnl hne
        simp only [sparseSorted, List.pairwise_cons]
        refine ⟨?_, ih hs.2⟩
        intro e he
        rcases mem_sparseSet he with he | ⟨rfl, -⟩
        · exact hs.1 e he
        · show k₁ < k
          omega

/-- A write keeps the canonical form. -/
theorem sparseWf_set {m : List (Nat × α)} (h : sparseWf d m = true) (k : Nat) (v : α) :
    sparseWf d (sparseSet d k v m) = true := by
  rw [sparseWf_iff] at h ⊢
  refine ⟨sparseSorted_set h.1 k v, fun e he => ?_⟩
  rcases mem_sparseSet he with he | ⟨rfl, hv⟩
  · exact h.2 e he
  · exact hv

/-- Two canonical maps that read alike are equal. -/
theorem sparse_ext {m n : List (Nat × α)} (hm : sparseWf d m = true) (hn : sparseWf d n = true)
    (h : ∀ k, sparseGet d m k = sparseGet d n k) : m = n := by
  rw [sparseWf_iff] at hm hn
  induction m generalizing n with
  | nil =>
    cases n with
    | nil => rfl
    | cons e t =>
      have := h e.1
      rw [sparseGet_of_mem (v := e.2) hn.1 (by simp)] at this
      exact absurd this.symm (hn.2 e (by simp))
  | cons e t ih =>
    obtain ⟨k, v⟩ := e
    cases n with
    | nil =>
      have := h k
      rw [sparseGet_of_mem (v := v) hm.1 (by simp)] at this
      exact absurd this (hm.2 (k, v) (by simp))
    | cons e' t' =>
      obtain ⟨k', v'⟩ := e'
      have hm1 := hm.1
      have hn1 := hn.1
      simp only [sparseSorted, List.pairwise_cons] at hm1 hn1
      have key : k = k' := by
        rcases Nat.lt_trichotomy k k' with hlt | heq | hgt
        · have := h k
          rw [sparseGet_of_mem (v := v) hm.1 (by simp), sparseGet_of_lt] at this
          · exact absurd this (hm.2 (k, v) (by simp))
          · intro e he
            rcases List.mem_cons.mp he with rfl | he
            · exact hlt
            · exact Nat.lt_trans hlt (hn1.1 e he)
        · exact heq
        · have := h k'
          rw [sparseGet_of_mem (v := v') hn.1 (by simp), sparseGet_of_lt] at this
          · exact absurd this.symm (hn.2 (k', v') (by simp))
          · intro e he
            rcases List.mem_cons.mp he with rfl | he
            · exact hgt
            · exact Nat.lt_trans hgt (hm1.1 e he)
      subst key
      have hv := h k
      rw [sparseGet_of_mem (v := v) hm.1 (by simp), sparseGet_of_mem (v := v') hn.1 (by simp)] at hv
      subst hv
      congr 1
      apply ih ⟨hm1.2, fun e he => hm.2 e (by simp [he])⟩ ⟨hn1.2, fun e he => hn.2 e (by simp [he])⟩
      intro j
      by_cases hj : j = k
      · subst hj
        rw [sparseGet_of_lt fun e he => hm1.1 e he, sparseGet_of_lt fun e he => hn1.1 e he]
      · have := h j
        simpa [sparseGet, hj] using this

end Sys2Proof.Machine
end

