-- ==== Sys2Proof/Laws/State.lean ====
section
/-! SUPPORT. One lemma per field per update of the state, each true by `rfl`, so that no proof unfolds a record
update. -/

namespace Sys2Proof.Machine

@[simp] theorem State.setReg_params (s : State) (r : Reg) (v : Word) : (s.setReg r v).params = s.params := rfl
@[simp] theorem State.setReg_loaded (s : State) (r : Reg) (v : Word) : (s.setReg r v).loaded = s.loaded := rfl
@[simp] theorem State.setReg_prog (s : State) (r : Reg) (v : Word) : (s.setReg r v).prog = s.prog := rfl
@[simp] theorem State.setReg_pc (s : State) (r : Reg) (v : Word) : (s.setReg r v).pc = s.pc := rfl
@[simp] theorem State.setReg_status (s : State) (r : Reg) (v : Word) : (s.setReg r v).status = s.status := rfl
@[simp] theorem State.setReg_exitParam (s : State) (r : Reg) (v : Word) : (s.setReg r v).exitParam = s.exitParam := rfl
@[simp] theorem State.setReg_faultIsWrite (s : State) (r : Reg) (v : Word) : (s.setReg r v).faultIsWrite = s.faultIsWrite := rfl
@[simp] theorem State.setReg_gas (s : State) (r : Reg) (v : Word) : (s.setReg r v).gas = s.gas := rfl
@[simp] theorem State.setReg_initialGas (s : State) (r : Reg) (v : Word) : (s.setReg r v).initialGas = s.initialGas := rfl
@[simp] theorem State.setReg_mem (s : State) (r : Reg) (v : Word) : (s.setReg r v).mem = s.mem := rfl
@[simp] theorem State.setReg_x (s : State) (r : Reg) (v : Word) : (s.setReg r v).x = s.x.set r.val v := rfl

@[simp] theorem State.commit_params (s : State) (npc : BitVec 32) : (s.commit npc).params = s.params := rfl
@[simp] theorem State.commit_loaded (s : State) (npc : BitVec 32) : (s.commit npc).loaded = s.loaded := rfl
@[simp] theorem State.commit_prog (s : State) (npc : BitVec 32) : (s.commit npc).prog = s.prog := rfl
@[simp] theorem State.commit_pc (s : State) (npc : BitVec 32) : (s.commit npc).pc = npc := rfl
@[simp] theorem State.commit_x (s : State) (npc : BitVec 32) : (s.commit npc).x = s.x := rfl
@[simp] theorem State.commit_status (s : State) (npc : BitVec 32) : (s.commit npc).status = .ok := rfl
@[simp] theorem State.commit_exitParam (s : State) (npc : BitVec 32) : (s.commit npc).exitParam = none := rfl
@[simp] theorem State.commit_faultIsWrite (s : State) (npc : BitVec 32) : (s.commit npc).faultIsWrite = s.faultIsWrite := rfl
@[simp] theorem State.commit_gas (s : State) (npc : BitVec 32) : (s.commit npc).gas = s.gas := rfl
@[simp] theorem State.commit_initialGas (s : State) (npc : BitVec 32) : (s.commit npc).initialGas = s.initialGas := rfl
@[simp] theorem State.commit_mem (s : State) (npc : BitVec 32) : (s.commit npc).mem = s.mem := rfl
@[simp] theorem State.commit_reg (s : State) (npc : BitVec 32) (r : Reg) : (s.commit npc).reg r = s.reg r := rfl

@[simp] theorem State.advance_params (s : State) : s.advance.params = s.params := rfl
@[simp] theorem State.advance_loaded (s : State) : s.advance.loaded = s.loaded := rfl
@[simp] theorem State.advance_prog (s : State) : s.advance.prog = s.prog := rfl
@[simp] theorem State.advance_pc (s : State) : s.advance.pc = s.nextPC := rfl
@[simp] theorem State.advance_x (s : State) : s.advance.x = s.x := rfl
@[simp] theorem State.advance_status (s : State) : s.advance.status = .ok := rfl
@[simp] theorem State.advance_exitParam (s : State) : s.advance.exitParam = none := rfl
@[simp] theorem State.advance_faultIsWrite (s : State) : s.advance.faultIsWrite = s.faultIsWrite := rfl
@[simp] theorem State.advance_gas (s : State) : s.advance.gas = s.gas := rfl
@[simp] theorem State.advance_initialGas (s : State) : s.advance.initialGas = s.initialGas := rfl
@[simp] theorem State.advance_mem (s : State) : s.advance.mem = s.mem := rfl
@[simp] theorem State.advance_reg (s : State) (r : Reg) : s.advance.reg r = s.reg r := rfl

@[simp] theorem takeException_params (c : Cause) (s : State) : (takeException c s).params = s.params := by cases c <;> rfl
@[simp] theorem takeException_loaded (c : Cause) (s : State) : (takeException c s).loaded = s.loaded := by cases c <;> rfl
@[simp] theorem takeException_prog (c : Cause) (s : State) : (takeException c s).prog = s.prog := by cases c <;> rfl
@[simp] theorem takeException_x (c : Cause) (s : State) : (takeException c s).x = s.x := by cases c <;> rfl
@[simp] theorem takeException_gas (c : Cause) (s : State) : (takeException c s).gas = s.gas := by cases c <;> rfl
@[simp] theorem takeException_initialGas (c : Cause) (s : State) : (takeException c s).initialGas = s.initialGas := by cases c <;> rfl
@[simp] theorem takeException_mem (c : Cause) (s : State) : (takeException c s).mem = s.mem := by cases c <;> rfl
@[simp] theorem takeException_reg (c : Cause) (s : State) (r : Reg) : (takeException c s).reg r = s.reg r := by cases c <;> rfl
@[simp] theorem takeException_halt_status (s : State) : (takeException .halt s).status = .halt := rfl
@[simp] theorem takeException_halt_pc (s : State) : (takeException .halt s).pc = s.pc := rfl
@[simp] theorem takeException_halt_exitParam (s : State) : (takeException .halt s).exitParam = none := rfl
@[simp] theorem takeException_halt_faultIsWrite (s : State) : (takeException .halt s).faultIsWrite = s.faultIsWrite := rfl
@[simp] theorem takeException_panic_status (s : State) : (takeException .panic s).status = .panic := rfl
@[simp] theorem takeException_panic_pc (s : State) : (takeException .panic s).pc = s.pc := rfl
@[simp] theorem takeException_panic_exitParam (s : State) : (takeException .panic s).exitParam = none := rfl
@[simp] theorem takeException_panic_faultIsWrite (s : State) : (takeException .panic s).faultIsWrite = s.faultIsWrite := rfl
@[simp] theorem takeException_fault_status (s : State) (a : Addr) (w : Bool) : (takeException (.fault a w) s).status = .fault := rfl
@[simp] theorem takeException_fault_pc (s : State) (a : Addr) (w : Bool) : (takeException (.fault a w) s).pc = s.pc := rfl
@[simp] theorem takeException_fault_exitParam (s : State) (a : Addr) (w : Bool) : (takeException (.fault a w) s).exitParam = some a := rfl
@[simp] theorem takeException_fault_faultIsWrite (s : State) (a : Addr) (w : Bool) : (takeException (.fault a w) s).faultIsWrite = w := rfl
@[simp] theorem takeException_host_status (s : State) (i : BitVec 32) : (takeException (.host i) s).status = .host := rfl
@[simp] theorem takeException_host_pc (s : State) (i : BitVec 32) : (takeException (.host i) s).pc = s.nextPC := rfl
@[simp] theorem takeException_host_exitParam (s : State) (i : BitVec 32) : (takeException (.host i) s).exitParam = some i := rfl
@[simp] theorem takeException_host_faultIsWrite (s : State) (i : BitVec 32) : (takeException (.host i) s).faultIsWrite = s.faultIsWrite := rfl
@[simp] theorem takeException_oog_status (s : State) : (takeException .oog s).status = .oog := rfl
@[simp] theorem takeException_oog_pc (s : State) : (takeException .oog s).pc = s.pc := rfl
@[simp] theorem takeException_oog_exitParam (s : State) : (takeException .oog s).exitParam = s.exitParam := rfl
@[simp] theorem takeException_oog_faultIsWrite (s : State) : (takeException .oog s).faultIsWrite = s.faultIsWrite := rfl

@[simp] theorem takePageFault_pageFault (s : State) (a : Addr) (w : Bool) : takePageFault (.pageFault a w) s = takeException (.fault a w) s := rfl

/-! ## Memory -/

@[simp] theorem Memory.setByte_pages (m : Memory) (a : Nat) (b : Byte) : (m.setByte a b).pages = m.pages := rfl
@[simp] theorem Memory.zeroPages_pages (m : Memory) (p n : Nat) : (m.zeroPages p n).pages = m.pages := rfl
@[simp] theorem Memory.setByte_heapStart (m : Memory) (a : Nat) (b : Byte) : (m.setByte a b).heapStart = m.heapStart := rfl
@[simp] theorem Memory.zeroPages_heapStart (m : Memory) (p n : Nat) : (m.zeroPages p n).heapStart = m.heapStart := rfl
@[simp] theorem Memory.setByte_heapEnd (m : Memory) (a : Nat) (b : Byte) : (m.setByte a b).heapEnd = m.heapEnd := rfl
@[simp] theorem Memory.zeroPages_heapEnd (m : Memory) (p n : Nat) : (m.zeroPages p n).heapEnd = m.heapEnd := rfl
@[simp] theorem Memory.setByte_heapPtr (m : Memory) (a : Nat) (b : Byte) : (m.setByte a b).heapPtr = m.heapPtr := rfl
@[simp] theorem Memory.zeroPages_heapPtr (m : Memory) (p n : Nat) : (m.zeroPages p n).heapPtr = m.heapPtr := rfl
@[simp] theorem Memory.setByte_heapTop (m : Memory) (a : Nat) (b : Byte) : (m.setByte a b).heapTop = m.heapTop := rfl
@[simp] theorem Memory.zeroPages_heapTop (m : Memory) (p n : Nat) : (m.zeroPages p n).heapTop = m.heapTop := rfl
@[simp] theorem Memory.setByte_cells (m : Memory) (a : Nat) (b : Byte) : (m.setByte a b).cells = sparseSet 0 a b m.cells := rfl
@[simp] theorem Memory.setByte_pageState (m : Memory) (a : Nat) (b : Byte) (p : Nat) : (m.setByte a b).pageState p = m.pageState p := rfl
@[simp] theorem Memory.zeroPages_pageState (m : Memory) (p n q : Nat) : (m.zeroPages p n).pageState q = m.pageState q := rfl

/-! ## Registers -/

/-- A register reads what was written to it, and every other one is unchanged. -/
theorem State.reg_setReg (s : State) (r q : Reg) (v : Word) :
    (s.setReg r v).reg q = if q = r then v else s.reg q := by
  unfold State.reg State.setReg
  by_cases h : q = r
  · subst h; simp
  · have hne : r.val ≠ q.val := fun e => h (Fin.ext e.symm)
    simp [h, hne]

@[simp] theorem State.reg_setReg_self (s : State) (r : Reg) (v : Word) : (s.setReg r v).reg r = v := by
  simp [State.reg_setReg]

theorem State.reg_setReg_ne (s : State) {r q : Reg} (v : Word) (h : q ≠ r) :
    (s.setReg r v).reg q = s.reg q := by
  simp [State.reg_setReg, h]

/-- States with the same registers are equal in their register files. -/
theorem State.x_ext {s t : State} (h : ∀ r, t.reg r = s.reg r) : t.x = s.x := by
  apply Vector.ext
  intro i hi
  exact h ⟨i, hi⟩

/-! ## Gas -/

/-- The charge of a step that has the gas for it. -/
theorem State.subGas_of_le (s : State) {c : Nat} (h : c ≤ s.gas) :
    s.subGas c = ({ s with gas := s.gas - c }, false) := by
  simp [State.subGas, Nat.not_lt.mpr h]

/-- The charge of a step that has not. -/
theorem State.subGas_of_lt (s : State) {c : Nat} (h : s.gas < c) :
    s.subGas c = ({ s with gas := 0 }, true) := by
  simp [State.subGas, h]

end Sys2Proof.Machine
end

