-- ==== Sys2Proof/Laws/Memory.lean ====
section
/-! SUPPORT. The laws of the memory unit: what each operation reads and changes, and that every operation keeps
the canonical form. -/

namespace Sys2Proof.Machine

/-! ## The addresses of an access -/

theorem accessAddr_lt (addr : Addr) (i : Nat) : accessAddr addr i < Config.addrSpace :=
  Nat.mod_lt _ (by decide)

/-- The addresses of an access of at most 2^32 bytes differ. -/
theorem accessAddr_inj (addr : Addr) {i j : Nat} (hi : i < Config.addrSpace) (hj : j < Config.addrSpace)
    (h : accessAddr addr i = accessAddr addr j) : i = j := by
  have := addr.isLt
  simp only [accessAddr, Config.addrSpace] at *
  omega

@[simp] theorem accessAddrs_length (addr : Addr) (n : Nat) : (accessAddrs addr n).length = n := by
  simp [accessAddrs]

@[simp] theorem accessAddrs_getElem (addr : Addr) (n i : Nat) (h : i < (accessAddrs addr n).length) :
    (accessAddrs addr n)[i] = accessAddr addr i := by
  simp [accessAddrs]

theorem mem_accessAddrs {addr : Addr} {n a : Nat} :
    a ∈ accessAddrs addr n ↔ ∃ i, i < n ∧ a = accessAddr addr i := by
  simp [accessAddrs, eq_comm]

/-! ## The page check -/

/-- No byte of the access fails its check. -/
theorem firstFailing_eq_none {ok : Nat → Bool} {addr : Addr} {n : Nat} :
    firstFailing ok addr n = none ↔ ∀ i, i < n → ok (accessAddr addr i) = true := by
  simp only [firstFailing, List.find?_eq_none, mem_accessAddrs]
  constructor
  · intro h i hi
    simpa using h _ ⟨i, hi, rfl⟩
  · rintro h _ ⟨i, hi, rfl⟩
    simp [h i hi]

/-- The byte that is reported is the first that fails its check. -/
theorem firstFailing_eq_some {ok : Nat → Bool} {addr : Addr} {n a : Nat} :
    firstFailing ok addr n = some a ↔
      ∃ k, k < n ∧ a = accessAddr addr k ∧ ok a = false ∧
        ∀ j, j < k → ok (accessAddr addr j) = true := by
  constructor
  · intro h
    simp only [firstFailing] at h
    rw [List.find?_eq_some_iff_getElem] at h
    obtain ⟨ha, k, hk, hak, hj⟩ := h
    simp only [accessAddrs_length] at hk
    refine ⟨k, hk, by simpa using hak.symm, by simpa using ha, fun j hjk => ?_⟩
    have := hj j hjk
    simpa using this
  · rintro ⟨k, hk, rfl, ha, hj⟩
    simp only [firstFailing]
    rw [List.find?_eq_some_iff_getElem]
    refine ⟨by simp [ha], k, by simpa using hk, by simp, fun j hjk => ?_⟩
    simpa using hj j hjk

/-! ## Bytes -/

@[simp] theorem Memory.byte_setByte_ne (m : Memory) {a a' : Nat} (b : Byte) (h : a' ≠ a) :
    (m.setByte a b).byte a' = m.byte a' := sparseGet_set_ne _ _ h

theorem Memory.byte_setByte_self {m : Memory} (h : m.cellsWf = true) (a : Nat) (b : Byte) :
    (m.setByte a b).byte a = b := by
  simp only [Memory.cellsWf, Bool.and_eq_true, sparseWf_iff] at h
  exact sparseGet_set_self h.1.1 a b

theorem Memory.setByte_canRead (m : Memory) (a : Nat) (b : Byte) (c : Nat) :
    (m.setByte a b).canRead c = m.canRead c := rfl

/-- Storing a byte of a mapped page keeps the canonical form. -/
theorem Memory.cellsWf_setByte {m : Memory} (h : m.cellsWf = true) {a : Nat} (b : Byte)
    (ha : a < Config.addrSpace) (hr : m.canRead a = true) : (m.setByte a b).cellsWf = true := by
  simp only [Memory.cellsWf, Bool.and_eq_true, List.all_eq_true, decide_eq_true_eq] at h ⊢
  refine ⟨sparseWf_set h.1 a b, fun e he => ?_⟩
  rcases mem_sparseSet he with he | ⟨rfl, -⟩
  · exact h.2 e he
  · exact ⟨ha, hr⟩

@[simp] theorem Memory.setBytes_pages (m : Memory) (l : List (Nat × Byte)) : (m.setBytes l).pages = m.pages := by
  induction l generalizing m with
  | nil => rfl
  | cons e l ih => simp [Memory.setBytes, ih]

@[simp] theorem Memory.setBytes_heapStart (m : Memory) (l : List (Nat × Byte)) :
    (m.setBytes l).heapStart = m.heapStart := by
  induction l generalizing m with
  | nil => rfl
  | cons e l ih => simp [Memory.setBytes, ih]

@[simp] theorem Memory.setBytes_heapEnd (m : Memory) (l : List (Nat × Byte)) :
    (m.setBytes l).heapEnd = m.heapEnd := by
  induction l generalizing m with
  | nil => rfl
  | cons e l ih => simp [Memory.setBytes, ih]

@[simp] theorem Memory.setBytes_heapPtr (m : Memory) (l : List (Nat × Byte)) :
    (m.setBytes l).heapPtr = m.heapPtr := by
  induction l generalizing m with
  | nil => rfl
  | cons e l ih => simp [Memory.setBytes, ih]

@[simp] theorem Memory.setBytes_heapTop (m : Memory) (l : List (Nat × Byte)) :
    (m.setBytes l).heapTop = m.heapTop := by
  induction l generalizing m with
  | nil => rfl
  | cons e l ih => simp [Memory.setBytes, ih]

@[simp] theorem Memory.setBytes_pageState (m : Memory) (l : List (Nat × Byte)) (p : Nat) :
    (m.setBytes l).pageState p = m.pageState p := by
  simp [Memory.pageState]

/-- A byte that is not among the stored ones is unchanged. -/
theorem Memory.byte_setBytes_of_not_mem (m : Memory) (l : List (Nat × Byte)) {a : Nat}
    (h : ∀ e ∈ l, e.1 ≠ a) : (m.setBytes l).byte a = m.byte a := by
  induction l generalizing m with
  | nil => rfl
  | cons e l ih =>
    rw [Memory.setBytes, ih _ fun e he => h e (by simp [he])]
    exact Memory.byte_setByte_ne m e.2 (Ne.symm (h e (by simp)))

/-- Storing bytes of mapped pages keeps the canonical form. -/
theorem Memory.cellsWf_setBytes {m : Memory} (h : m.cellsWf = true) (l : List (Nat × Byte))
    (hl : ∀ e ∈ l, e.1 < Config.addrSpace ∧ m.canRead e.1 = true) : (m.setBytes l).cellsWf = true := by
  induction l generalizing m with
  | nil => exact h
  | cons e l ih =>
    have he := hl e (by simp)
    exact ih (Memory.cellsWf_setByte h e.2 he.1 he.2) fun e' he' => hl e' (by simp [he'])

/-- A stored byte reads back, where each address is stored once. -/
theorem Memory.byte_setBytes_of_mem {m : Memory} (h : m.cellsWf = true) (l : List (Nat × Byte))
    (hl : ∀ e ∈ l, e.1 < Config.addrSpace ∧ m.canRead e.1 = true)
    (hd : l.Pairwise fun e e' => e.1 ≠ e'.1) {e : Nat × Byte} (he : e ∈ l) :
    (m.setBytes l).byte e.1 = e.2 := by
  induction l generalizing m with
  | nil => simp at he
  | cons e₁ l ih =>
    rw [List.pairwise_cons] at hd
    have h1 := hl e₁ (by simp)
    rcases List.mem_cons.mp he with rfl | he
    · rw [Memory.setBytes, Memory.byte_setBytes_of_not_mem _ _ fun e' he' => Ne.symm (hd.1 e' he'),
        Memory.byte_setByte_self h]
    · exact ih (Memory.cellsWf_setByte h e₁.2 h1.1 h1.2) (fun e' he' => hl e' (by simp [he'])) hd.2 he

/-! ## Reads -/

/-- A read of bytes answers exactly when every byte is readable, with the bytes as they are. -/
theorem Memory.readBytes_eq_ok {m : Memory} {addr : Addr} {n : Nat} {bs : List Byte} :
    m.readBytes addr n = .ok bs ↔
      (∀ i, i < n → m.canRead (accessAddr addr i) = true) ∧ bs = (accessAddrs addr n).map m.byte := by
  rw [← firstFailing_eq_none]
  unfold Memory.readBytes
  rcases firstFailing m.canRead addr n with _ | a <;> simp [eq_comm]

/-- A read of bytes faults exactly when some byte is not readable, at the first such byte. -/
theorem Memory.readBytes_eq_error {m : Memory} {addr : Addr} {n : Nat} {f : Fault} :
    m.readBytes addr n = .error f ↔
      ∃ k, k < n ∧ m.canRead (accessAddr addr k) = false ∧
        (∀ j, j < k → m.canRead (accessAddr addr j) = true) ∧
        f = .pageFault (BitVec.ofNat 32 (accessAddr addr k)) false := by
  unfold Memory.readBytes
  split
  · rename_i a ha
    obtain ⟨k, hk, rfl, hf, hj⟩ := firstFailing_eq_some.mp ha
    constructor
    · intro h; cases h; exact ⟨k, hk, hf, hj, rfl⟩
    · rintro ⟨k', hk', hf', hj', rfl⟩
      have : k = k' := by
        rcases Nat.lt_trichotomy k k' with h | h | h
        · rw [hj' k h] at hf; cases hf
        · exact h
        · rw [hj k' h] at hf'; cases hf'
      rw [this]
  · rename_i hn
    rw [firstFailing_eq_none] at hn
    constructor
    · intro h; cases h
    · rintro ⟨k, hk, hf, -⟩
      rw [hn k hk] at hf; cases hf

/-- `MemRead` answers exactly when every byte is readable. -/
theorem Memory.read_eq_ok {m : Memory} {addr : Addr} {n v : Nat} :
    m.read addr n = .ok v ↔
      (∀ i, i < n → m.canRead (accessAddr addr i) = true) ∧
        v = leNat ((accessAddrs addr n).map m.byte) := by
  unfold Memory.read
  split
  · rename_i f hf
    constructor
    · intro h; cases h
    · rintro ⟨h, -⟩
      have := Memory.readBytes_eq_ok.mpr ⟨h, rfl⟩
      rw [hf] at this; cases this
  · rename_i bs hb
    rw [Memory.readBytes_eq_ok] at hb
    obtain ⟨h, rfl⟩ := hb
    constructor
    · intro e; cases e; exact ⟨h, rfl⟩
    · rintro ⟨-, rfl⟩; rfl

/-- `MemRead` faults exactly when some byte is not readable, at the first such byte. -/
theorem Memory.read_eq_error {m : Memory} {addr : Addr} {n : Nat} {f : Fault} :
    m.read addr n = .error f ↔ m.readBytes addr n = .error f := by
  unfold Memory.read
  split <;> simp_all

/-! ## Writes -/

theorem Memory.canRead_of_canWrite {m : Memory} {a : Nat} (h : m.canWrite a = true) : m.canRead a = true := by
  simp only [Memory.canWrite, Memory.canRead, beq_iff_eq, bne_iff_ne] at *
  rw [h]; decide

/-- A write of bytes answers exactly when every byte is writable. -/
theorem Memory.writeBytes_eq_ok {m m' : Memory} {addr : Addr} {bs : List Byte} :
    m.writeBytes addr bs = .ok m' ↔
      (∀ i, i < bs.length → m.canWrite (accessAddr addr i) = true) ∧
        m' = m.setBytes ((accessAddrs addr bs.length).zip bs) := by
  rw [← firstFailing_eq_none]
  unfold Memory.writeBytes
  rcases firstFailing m.canWrite addr bs.length with _ | a <;> simp [eq_comm]

/-- A write of bytes faults exactly when some byte is not writable, at the first such byte. -/
theorem Memory.writeBytes_eq_error {m : Memory} {addr : Addr} {bs : List Byte} {f : Fault} :
    m.writeBytes addr bs = .error f ↔
      ∃ k, k < bs.length ∧ m.canWrite (accessAddr addr k) = false ∧
        (∀ j, j < k → m.canWrite (accessAddr addr j) = true) ∧
        f = .pageFault (BitVec.ofNat 32 (accessAddr addr k)) true := by
  unfold Memory.writeBytes
  split
  · rename_i a ha
    obtain ⟨k, hk, rfl, hf, hj⟩ := firstFailing_eq_some.mp ha
    constructor
    · intro h; cases h; exact ⟨k, hk, hf, hj, rfl⟩
    · rintro ⟨k', hk', hf', hj', rfl⟩
      have : k = k' := by
        rcases Nat.lt_trichotomy k k' with h | h | h
        · rw [hj' k h] at hf; cases hf
        · exact h
        · rw [hj k' h] at hf'; cases hf'
      rw [this]
  · rename_i hn
    rw [firstFailing_eq_none] at hn
    constructor
    · intro h; cases h
    · rintro ⟨k, hk, hf, -⟩
      rw [hn k hk] at hf; cases hf

theorem mem_zip_accessAddrs {addr : Addr} {bs : List Byte} {e : Nat × Byte}
    (h : e ∈ (accessAddrs addr bs.length).zip bs) :
    ∃ i, ∃ hi : i < bs.length, e = (accessAddr addr i, bs[i]) := by
  obtain ⟨i, hi, rfl⟩ := List.getElem_of_mem h
  simp only [List.length_zip, accessAddrs_length, Nat.min_self] at hi
  exact ⟨i, hi, by simp⟩

theorem pairwise_zip_accessAddrs (addr : Addr) (bs : List Byte) (h : bs.length ≤ Config.addrSpace) :
    ((accessAddrs addr bs.length).zip bs).Pairwise fun e e' => e.1 ≠ e'.1 := by
  rw [List.pairwise_iff_getElem]
  intro i j hi hj hij
  simp only [List.length_zip, accessAddrs_length, Nat.min_self] at hi hj
  simp only [List.getElem_zip, accessAddrs_getElem]
  intro he
  have := accessAddr_inj addr (by omega) (by omega) he
  omega

/-- What a write of bytes changes: the stored bytes, and nothing else. -/
theorem Memory.writeBytes_outside {m m' : Memory} {addr : Addr} {bs : List Byte}
    (h : m.writeBytes addr bs = .ok m') :
    (∀ p, m'.pageState p = m.pageState p) ∧
    (∀ a, (∀ i, i < bs.length → a ≠ accessAddr addr i) → m'.byte a = m.byte a) ∧
    m'.heapStart = m.heapStart ∧ m'.heapEnd = m.heapEnd ∧ m'.heapPtr = m.heapPtr ∧
    m'.heapTop = m.heapTop := by
  obtain ⟨-, rfl⟩ := Memory.writeBytes_eq_ok.mp h
  refine ⟨by simp, fun a ha => ?_, by simp, by simp, by simp, by simp⟩
  apply Memory.byte_setBytes_of_not_mem
  intro e he
  obtain ⟨i, hi, rfl⟩ := mem_zip_accessAddrs he
  exact Ne.symm (ha i hi)

theorem Memory.zip_inRange {m : Memory} {addr : Addr} {bs : List Byte}
    (hw : ∀ i, i < bs.length → m.canWrite (accessAddr addr i) = true) :
    ∀ e ∈ (accessAddrs addr bs.length).zip bs, e.1 < Config.addrSpace ∧ m.canRead e.1 = true := by
  intro e he
  obtain ⟨i, hi, rfl⟩ := mem_zip_accessAddrs he
  exact ⟨accessAddr_lt addr i, Memory.canRead_of_canWrite (hw i hi)⟩

/-- The stored bytes read back. -/
theorem Memory.writeBytes_stored {m m' : Memory} {addr : Addr} {bs : List Byte}
    (h : m.writeBytes addr bs = .ok m') (hwf : m.cellsWf = true) (hlen : bs.length ≤ Config.addrSpace)
    {i : Nat} (hi : i < bs.length) : m'.byte (accessAddr addr i) = bs[i] := by
  obtain ⟨hw, rfl⟩ := Memory.writeBytes_eq_ok.mp h
  have hmem : (accessAddr addr i, bs[i]) ∈ (accessAddrs addr bs.length).zip bs := by
    rw [List.mem_iff_getElem]
    exact ⟨i, by simpa using hi, by simp⟩
  exact Memory.byte_setBytes_of_mem hwf _ (Memory.zip_inRange hw) (pairwise_zip_accessAddrs addr bs hlen) hmem

/-- A write keeps the canonical form. -/
theorem Memory.wf_writeBytes {m m' : Memory} {addr : Addr} {bs : List Byte}
    (h : m.writeBytes addr bs = .ok m') (hwf : m.wf = true) : m'.wf = true := by
  obtain ⟨hw, rfl⟩ := Memory.writeBytes_eq_ok.mp h
  simp only [Memory.wf, Bool.and_eq_true] at hwf ⊢
  exact ⟨by simpa [Memory.pagesWf] using hwf.1, Memory.cellsWf_setBytes hwf.2 _ (Memory.zip_inRange hw)⟩

/-! ## Pages -/

theorem Memory.anyMapped_eq_false {m : Memory} {p n : Nat} :
    m.anyMapped p n = false ↔ ∀ q, p ≤ q → q < p + n → m.pageState q = .unmapped := by
  induction n generalizing p with
  | zero => simp [Memory.anyMapped]; intros; omega
  | succ n ih =>
    simp only [Memory.anyMapped, Bool.or_eq_false_iff, bne_eq_false_iff_eq, ih]
    constructor
    · rintro ⟨h0, h1⟩ q hq hlt
      by_cases hqp : q = p
      · rw [hqp]; exact h0
      · exact h1 q (by omega) (by omega)
    · intro h
      exact ⟨h p (by omega) (by omega), fun q hq hlt => h q (by omega) (by omega)⟩

theorem Memory.allWritable_iff {m : Memory} {p n : Nat} :
    m.allWritable p n = true ↔ ∀ q, p ≤ q → q < p + n → m.pageState q = .writable := by
  induction n generalizing p with
  | zero => simp [Memory.allWritable]; intros; omega
  | succ n ih =>
    simp only [Memory.allWritable, Bool.and_eq_true, beq_iff_eq, ih]
    constructor
    · rintro ⟨h0, h1⟩ q hq hlt
      by_cases hqp : q = p
      · rw [hqp]; exact h0
      · exact h1 q (by omega) (by omega)
    · intro h
      exact ⟨h p (by omega) (by omega), fun q hq hlt => h q (by omega) (by omega)⟩

@[simp] theorem Memory.setPages_cells (m : Memory) (st : PageState) (p n : Nat) :
    (m.setPages st p n).cells = m.cells := by
  induction n generalizing m p with
  | zero => rfl
  | succ n ih => simp [Memory.setPages, ih]

@[simp] theorem Memory.setPages_heapStart (m : Memory) (st : PageState) (p n : Nat) :
    (m.setPages st p n).heapStart = m.heapStart := by
  induction n generalizing m p with
  | zero => rfl
  | succ n ih => simp [Memory.setPages, ih]

@[simp] theorem Memory.setPages_heapEnd (m : Memory) (st : PageState) (p n : Nat) :
    (m.setPages st p n).heapEnd = m.heapEnd := by
  induction n generalizing m p with
  | zero => rfl
  | succ n ih => simp [Memory.setPages, ih]

@[simp] theorem Memory.setPages_heapPtr (m : Memory) (st : PageState) (p n : Nat) :
    (m.setPages st p n).heapPtr = m.heapPtr := by
  induction n generalizing m p with
  | zero => rfl
  | succ n ih => simp [Memory.setPages, ih]

@[simp] theorem Memory.setPages_heapTop (m : Memory) (st : PageState) (p n : Nat) :
    (m.setPages st p n).heapTop = m.heapTop := by
  induction n generalizing m p with
  | zero => rfl
  | succ n ih => simp [Memory.setPages, ih]

/-- The page states after a mapping. -/
theorem Memory.setPages_pageState (m : Memory) {st : PageState} (hst : st ≠ .unmapped) (p n q : Nat) :
    (m.setPages st p n).pageState q = if p ≤ q ∧ q < p + n then st else m.pageState q := by
  induction n generalizing m p with
  | zero => rw [if_neg (by omega)]; rfl
  | succ n ih =>
    rw [Memory.setPages, ih]
    by_cases hqp : q = p
    · subst hqp
      have : ¬ (q + 1 ≤ q ∧ q < q + 1 + n) := by omega
      rw [if_neg this, if_pos (by omega)]
      exact sparseGet_set_self_of_ne _ _ hst
    · have h1 : Memory.pageState { m with pages := sparseSet .unmapped p st m.pages } q = m.pageState q :=
        sparseGet_set_ne _ _ hqp
      rw [h1]
      by_cases h : p ≤ q ∧ q < p + (n + 1)
      · rw [if_pos h, if_pos (by omega)]
      · rw [if_neg h, if_neg (by omega)]

theorem Memory.pagesWf_setPages {m : Memory} (h : m.pagesWf = true) (st : PageState) (p n : Nat)
    (hn : p + n ≤ Config.numPages) : (m.setPages st p n).pagesWf = true := by
  induction n generalizing m p with
  | zero => exact h
  | succ n ih =>
    apply ih _ (p + 1) (by omega)
    simp only [Memory.pagesWf, Bool.and_eq_true, List.all_eq_true, decide_eq_true_eq] at h ⊢
    refine ⟨sparseWf_set h.1 _ _, fun e he => ?_⟩
    rcases mem_sparseSet he with he | ⟨rfl, -⟩
    · exact h.2 e he
    · show p < Config.numPages; omega

/-- The bytes after a zeroing. -/
theorem Memory.zeroPages_byte (m : Memory) (p n a : Nat) :
    (m.zeroPages p n).byte a =
      if p ≤ a / Config.pageSize ∧ a / Config.pageSize < p + n then 0 else m.byte a := by
  unfold Memory.zeroPages Memory.byte
  rw [sparseGet_filter m.cells
    (fun k => decide (k / Config.pageSize < p) || decide (p + n ≤ k / Config.pageSize)) a]
  by_cases h : p ≤ a / Config.pageSize ∧ a / Config.pageSize < p + n
  · rw [if_pos h, if_neg]; simp; omega
  · rw [if_neg h, if_pos]; simp; omega

@[simp] theorem Memory.mapPages_heapStart (m : Memory) (st : PageState) (p n : Nat) :
    (m.mapPages st p n).heapStart = m.heapStart := by simp [Memory.mapPages]
@[simp] theorem Memory.mapPages_heapEnd (m : Memory) (st : PageState) (p n : Nat) :
    (m.mapPages st p n).heapEnd = m.heapEnd := by simp [Memory.mapPages]
@[simp] theorem Memory.mapPages_heapPtr (m : Memory) (st : PageState) (p n : Nat) :
    (m.mapPages st p n).heapPtr = m.heapPtr := by simp [Memory.mapPages]
@[simp] theorem Memory.mapPages_heapTop (m : Memory) (st : PageState) (p n : Nat) :
    (m.mapPages st p n).heapTop = m.heapTop := by simp [Memory.mapPages]

/-- Mapping sets the page states it is given. -/
theorem Memory.mapPages_pageState (m : Memory) {st : PageState} (hst : st ≠ .unmapped) (p n q : Nat) :
    (m.mapPages st p n).pageState q = if p ≤ q ∧ q < p + n then st else m.pageState q := by
  simp [Memory.mapPages, Memory.setPages_pageState m hst]

/-- Mapping makes the bytes of its pages zero and changes no other byte. -/
theorem Memory.mapPages_byte (m : Memory) (st : PageState) (p n a : Nat) :
    (m.mapPages st p n).byte a =
      if p ≤ a / Config.pageSize ∧ a / Config.pageSize < p + n then 0 else m.byte a := by
  rw [Memory.mapPages, Memory.zeroPages_byte]
  simp [Memory.byte]

/-- Mapping pages that exist keeps the canonical form. -/
theorem Memory.wf_mapPages {m : Memory} (h : m.wf = true) {st : PageState} (hst : st ≠ .unmapped) (p n : Nat)
    (hn : p + n ≤ Config.numPages) : (m.mapPages st p n).wf = true := by
  simp only [Memory.wf, Bool.and_eq_true] at h ⊢
  constructor
  · exact Memory.pagesWf_setPages h.1 st p n hn
  · have h2 := h.2
    simp only [Memory.cellsWf, Bool.and_eq_true, List.all_eq_true, decide_eq_true_eq] at h2 ⊢
    constructor
    · simp only [Memory.mapPages, Memory.zeroPages, Memory.setPages_cells]
      exact sparseWf_filter h2.1 _
    · intro e he
      simp only [Memory.mapPages, Memory.zeroPages, Memory.setPages_cells, List.mem_filter] at he
      refine ⟨(h2.2 e he.1).1, ?_⟩
      have hr := (h2.2 e he.1).2
      simp only [Memory.canRead, bne_iff_ne] at hr ⊢
      rw [Memory.mapPages_pageState m hst]
      split
      · exact hst
      · exact hr

/-! ## Heap growth -/

theorem le_alignUp (a : Nat) : a ≤ alignUp a := by simp only [alignUp, Config.pageSize]; omega
theorem alignUp_mono {a b : Nat} (h : a ≤ b) : alignUp a ≤ alignUp b := by
  simp only [alignUp, Config.pageSize]; omega
theorem alignUp_mod (a : Nat) : alignUp a % Config.pageSize = 0 := by simp [alignUp, Config.pageSize]
theorem alignUp_of_mod {a : Nat} (h : a % Config.pageSize = 0) : alignUp a = a := by
  simp only [alignUp, Config.pageSize] at *; omega
theorem alignUp_le_addrSpace {a : Nat} (h : a ≤ Config.addrSpace) : alignUp a ≤ 4294967296 := by
  simp only [alignUp, Config.pageSize, Config.addrSpace] at *; omega

/-- What `Sbrk` answers when it grows the heap (R87). -/
theorem Memory.sbrk_eq_grown {m m' : Memory} {limit n old : Nat} (h : m.sbrk limit n = .grown old m') :
    m.heapPtr + n ≤ limit ∧ old = m.heapPtr ∧
    (∀ q, m.heapTop / Config.pageSize ≤ q → q < alignUp (m.heapPtr + n) / Config.pageSize →
      m.pageState q = .unmapped) ∧
    m' = { m.mapPages .writable (m.heapTop / Config.pageSize)
              (alignUp (m.heapPtr + n) / Config.pageSize - m.heapTop / Config.pageSize) with
            heapPtr := m.heapPtr + n, heapTop := max m.heapTop (alignUp (m.heapPtr + n)) } := by
  simp only [Memory.sbrk] at h
  split at h
  · cases h
  · rename_i hl
    split at h
    · cases h
    · rename_i hm
      cases h
      refine ⟨by omega, rfl, ?_, rfl⟩
      intro q hq hlt
      exact Memory.anyMapped_eq_false.mp (by simpa using hm) q hq (by omega)

/-- `Sbrk` fails exactly above `HEAP_LIMIT` (R88). -/
theorem Memory.sbrk_eq_fail {m : Memory} {limit n : Nat} :
    m.sbrk limit n = .fail ↔ limit < m.heapPtr + n := by
  simp only [Memory.sbrk]
  split
  · simp_all
  · split <;> simp_all

/-- A growth keeps the canonical form and the relations of the heap registers. -/
theorem Memory.wf_sbrk {m m' : Memory} {limit n old : Nat} (hlimit : limit ≤ Config.addrSpace)
    (h : m.sbrk limit n = .grown old m') (hwf : m.wf = true)
    (hh : m.heapWf = true) : m'.wf = true ∧ m'.heapWf = true := by
  obtain ⟨hl, -, -, rfl⟩ := Memory.sbrk_eq_grown h
  simp only [Memory.heapWf, Bool.and_eq_true, decide_eq_true_eq, beq_iff_eq,
    Memory.allWritable_iff] at hh
  obtain ⟨⟨⟨⟨⟨⟨⟨hs, he⟩, hse⟩, hee⟩, hsp⟩, hpl⟩, htop⟩, hall⟩ := hh
  have hmono : m.heapTop ≤ alignUp (m.heapPtr + n) := by
    rw [htop]; exact alignUp_mono (Nat.le_add_right _ _)
  have hlim : alignUp (m.heapPtr + n) ≤ 4294967296 := alignUp_le_addrSpace (Nat.le_trans hl hlimit)
  have hmod := alignUp_mod (m.heapPtr + n)
  have htmod : m.heapTop % Config.pageSize = 0 := by rw [htop]; exact alignUp_mod m.heapPtr
  have hst : m.heapStart ≤ m.heapTop := by
    rw [htop]; exact Nat.le_trans hsp (le_alignUp _)
  simp only [Config.pageSize, Config.addrSpace] at *
  constructor
  · apply Memory.wf_mapPages hwf (by decide)
    simp only [Config.numPages]; omega
  · simp only [Memory.heapWf, Bool.and_eq_true, decide_eq_true_eq, beq_iff_eq, Memory.allWritable_iff,
      Memory.mapPages_heapStart, Memory.mapPages_heapEnd, Config.pageSize, Config.addrSpace]
    refine ⟨⟨⟨⟨⟨⟨⟨hs, he⟩, hse⟩, hee⟩, by omega⟩, decide_eq_true (Nat.le_trans hl hlimit)⟩, by omega⟩, ?_⟩
    intro q hq hlt
    show (m.mapPages .writable (m.heapTop / 4096) _).pageState q = .writable
    rw [Memory.mapPages_pageState m (by decide)]
    split
    · rfl
    · apply hall q hq
      omega

/-! ## Uniqueness -/

/-- What a page table in canonical form says of pages that do not exist. -/
theorem Memory.pageState_of_ge {m : Memory} (h : m.wf = true) {p : Nat} (hp : Config.numPages ≤ p) :
    m.pageState p = .unmapped := by
  simp only [Memory.wf, Memory.pagesWf, Bool.and_eq_true, List.all_eq_true, decide_eq_true_eq] at h
  apply sparseGet_of_not_mem
  intro e he hep
  have := h.1.2 e he
  omega

end Sys2Proof.Machine
end

