-- ==== Sys2Proof/Laws/Ops.lean ====
section
/-! SUPPORT. One lemma for each shared operation that says what it can do, and the classes of instructions: what
`exec` does with each. -/

namespace Sys2Proof.Machine

/-! ## Control flow -/

/-- A branch that is not taken goes on (R175). -/
@[simp] theorem branch_false (target : Int) (s : State) : branch target false s = s.advance := rfl

/-- A taken branch goes to its target, if that is a block start, and panics otherwise (R175). -/
theorem branch_true (target : Int) (s : State) :
    branch target true s =
      if isBB s.params s.prog target then s.commit (BitVec.ofInt 32 target) else takeException .panic s := by
  by_cases h : isBB s.params s.prog target <;> simp [branch, h]

/-- What a dynamic jump does (R176). -/
theorem djump_eq (a : Addr) (s : State) :
    djump a s =
      if a = s.params.haltAddress then takeException .halt s
      else match dynamicTarget s.params s.prog a with
        | some t => s.commit t
        | none => takeException .panic s := by
  unfold djump dynamicTarget
  by_cases h1 : a = s.params.haltAddress
  · simp [h1]
  simp only [h1, if_false]
  by_cases h2 : a = 0#32
  · simp [h2]
  by_cases h3 : a.toNat % s.params.jumpAlign = 0
  · by_cases h4 : a.toNat / s.params.jumpAlign - 1 < s.prog.jt.length
    · by_cases h5 : isBB s.params s.prog (s.prog.jt[a.toNat / s.params.jumpAlign - 1].toNat : Int) <;>
        simp [h2, h3, hasIndex, jumpIndex, getDestination, h4, h5, Option.filter]
    · simp [h2, h3, hasIndex, jumpIndex, h4]
  · simp [h2, h3]

/-! ## Loads and stores -/

/-- A load whose bytes are all readable writes their value. -/
theorem loadInto_ok {n : Nat} {ext : Nat → Word} {rd : Reg} {addr : Addr} {s : State}
    (h : ∀ i, i < n → s.mem.canRead (accessAddr addr i) = true) :
    loadInto n ext rd addr s =
      .next (s.setReg rd (ext (leNat ((accessAddrs addr n).map s.mem.byte)))).advance := by
  rw [loadInto, Memory.read_eq_ok.mpr ⟨h, rfl⟩]
  rfl

/-- A load takes the FAULT of its first byte that is not readable. -/
theorem loadInto_fault {n : Nat} {ext : Nat → Word} {rd : Reg} {addr : Addr} {s : State} {k : Nat}
    (hk : k < n) (hf : s.mem.canRead (accessAddr addr k) = false)
    (hj : ∀ j, j < k → s.mem.canRead (accessAddr addr j) = true) :
    loadInto n ext rd addr s =
      .next (takeException (.fault (BitVec.ofNat 32 (accessAddr addr k)) false) s) := by
  rw [loadInto, Memory.read_eq_error.mpr (Memory.readBytes_eq_error.mpr ⟨k, hk, hf, hj, rfl⟩)]
  rfl

/-- What a load can do. -/
theorem loadInto_cases (n : Nat) (ext : Nat → Word) (rd : Reg) (addr : Addr) (s : State) :
    ((∀ i, i < n → s.mem.canRead (accessAddr addr i) = true) ∧
      loadInto n ext rd addr s =
        .next (s.setReg rd (ext (leNat ((accessAddrs addr n).map s.mem.byte)))).advance) ∨
    ∃ k, k < n ∧ s.mem.canRead (accessAddr addr k) = false ∧
      (∀ j, j < k → s.mem.canRead (accessAddr addr j) = true) ∧
      loadInto n ext rd addr s =
        .next (takeException (.fault (BitVec.ofNat 32 (accessAddr addr k)) false) s) := by
  cases hf : firstFailing s.mem.canRead addr n with
  | none => exact .inl ⟨firstFailing_eq_none.mp hf, loadInto_ok (firstFailing_eq_none.mp hf)⟩
  | some a =>
    obtain ⟨k, hk, rfl, ho, hj⟩ := firstFailing_eq_some.mp hf
    exact .inr ⟨k, hk, ho, hj, loadInto_fault hk ho hj⟩

/-- A store whose bytes are all writable writes them. -/
theorem storeAt_ok {n : Nat} {addr : Addr} {v : Word} {s : State}
    (h : ∀ i, i < n → s.mem.canWrite (accessAddr addr i) = true) :
    ∃ m, s.mem.writeBytes addr (leBytes n v.toNat) = .ok m ∧
      storeAt n addr v s = .next { s with mem := m }.advance := by
  have hw := Memory.writeBytes_eq_ok (m := s.mem) (addr := addr) (bs := leBytes n v.toNat)
    |>.mpr ⟨by simpa using h, rfl⟩
  exact ⟨_, hw, by rw [storeAt, Memory.write, hw]⟩

/-- A store takes the FAULT of its first byte that is not writable. -/
theorem storeAt_fault {n : Nat} {addr : Addr} {v : Word} {s : State} {k : Nat}
    (hk : k < n) (hf : s.mem.canWrite (accessAddr addr k) = false)
    (hj : ∀ j, j < k → s.mem.canWrite (accessAddr addr j) = true) :
    storeAt n addr v s =
      .next (takeException (.fault (BitVec.ofNat 32 (accessAddr addr k)) true) s) := by
  rw [storeAt, Memory.write,
    Memory.writeBytes_eq_error.mpr ⟨k, by simpa using hk, hf, hj, rfl⟩]
  rfl

/-- What a store can do. -/
theorem storeAt_cases (n : Nat) (addr : Addr) (v : Word) (s : State) :
    ((∀ i, i < n → s.mem.canWrite (accessAddr addr i) = true) ∧
      ∃ m, s.mem.writeBytes addr (leBytes n v.toNat) = .ok m ∧
        storeAt n addr v s = .next { s with mem := m }.advance) ∨
    ∃ k, k < n ∧ s.mem.canWrite (accessAddr addr k) = false ∧
      (∀ j, j < k → s.mem.canWrite (accessAddr addr j) = true) ∧
      storeAt n addr v s =
        .next (takeException (.fault (BitVec.ofNat 32 (accessAddr addr k)) true) s) := by
  cases hf : firstFailing s.mem.canWrite addr n with
  | none => exact .inl ⟨firstFailing_eq_none.mp hf, storeAt_ok (firstFailing_eq_none.mp hf)⟩
  | some a =>
    obtain ⟨k, hk, rfl, ho, hj⟩ := firstFailing_eq_some.mp hf
    exact .inr ⟨k, hk, ho, hj, storeAt_fault hk ho hj⟩

/-! ## The classes of instructions -/

/-- What `exec` does with an instruction, by class. -/
inductive ExecCase (i : Instr) (s : State) : Prop where
  /-- It goes on to the next instruction, and writes at most one register. -/
  | plain (t : State) (h : exec i s = .next t)
      (ht : t = s.advance ∨ ∃ rd v, t = (s.setReg rd v).advance)
      (ha : accessOf i s = none) (ho : takenOffset i s = none) (hd : dynamicAddress i s = none)
      (hn : i ≠ .trap) (he : ∀ x, i ≠ .ecalli x)
  /-- TRAP. -/
  | trap (hi : i = .trap)
  /-- ECALLI. -/
  | ecalli (x : Word) (hi : i = .ecalli x)
  /-- A memory load. -/
  | load (c : Access) (ext : Nat → Word) (rd : Reg) (ha : accessOf i s = some c) (hw : c.isWrite = false)
      (h : exec i s = loadInto c.width ext rd c.addr s)
      (ho : takenOffset i s = none) (hd : dynamicAddress i s = none)
  /-- A store. -/
  | store (c : Access) (v : Word) (ha : accessOf i s = some c) (hw : c.isWrite = true)
      (h : exec i s = storeAt c.width c.addr v s)
      (ho : takenOffset i s = none) (hd : dynamicAddress i s = none)
  /-- A static jump that is taken. -/
  | jump (off : Int) (s' : State) (ho : takenOffset i s = some off)
      (h : exec i s = .next (branch (s.target off) true s'))
      (hs : s' = s ∨ ∃ r x, i = .loadImmJump r x off ∧ s' = s.setReg r x)
      (ha : accessOf i s = none) (hd : dynamicAddress i s = none)
  /-- A dynamic jump. -/
  | dynamic (a : Addr) (s' : State) (hd : dynamicAddress i s = some a)
      (h : exec i s = .next (djump a s'))
      (hs : s' = s ∨ ∃ r b x y, i = .loadImmJumpInd r b x y ∧ s' = s.setReg r x)
      (ha : accessOf i s = none) (ho : takenOffset i s = none)
  /-- SBRK. -/
  | sbrk (rA rD : Reg) (hi : i = .sbrk rA rD)

/-- A conditional branch is a taken jump or goes on. -/
theorem execCase_branch {i : Instr} {s : State} {off : Int} {c : Bool} {p : Prop} [Decidable p]
    (hc : c = decide p)
    (h : exec i s = .next (branch (s.target off) c s))
    (ho : takenOffset i s = if p then some off else none)
    (ha : accessOf i s = none) (hd : dynamicAddress i s = none)
    (hn : i ≠ .trap) (he : ∀ x, i ≠ .ecalli x) : ExecCase i s := by
  subst hc
  by_cases hp : p
  · simp only [hp, decide_true, if_true] at h ho
    exact .jump off s ho h (.inl rfl) ha hd
  · simp only [hp, decide_false, if_false, branch_false] at h ho
    exact .plain _ h (.inl rfl) ha ho hd hn he

end Sys2Proof.Machine
end

