-- ==== Sys2Proof/Laws/Exec.lean ====
section
/-! SUPPORT. The class of every instruction: what `exec` can do, said once. -/

namespace Sys2Proof.Machine

/-- A conditional move writes its register or goes on. -/
theorem execCase_cmov {i : Instr} {s : State} {c : Bool} {rd : Reg} {v : Word}
    (h : exec i s = cmov c rd v s) (ha : accessOf i s = none) (ho : takenOffset i s = none)
    (hd : dynamicAddress i s = none) (hn : i ≠ .trap) (he : ∀ x, i ≠ .ecalli x) : ExecCase i s := by
  cases c
  · exact .plain _ h (.inl rfl) ha ho hd hn he
  · exact .plain _ h (.inr ⟨_, _, rfl⟩) ha ho hd hn he

/-- Every instruction is of one of the classes. -/
theorem exec_cases (i : Instr) (s : State) : ExecCase i s := by
  match i with
  | .trap => exact .trap rfl
  | .fallthrough => exact .plain _ rfl (.inl rfl) rfl rfl rfl (by simp) (by simp)
  | .ecalli immX => exact .ecalli immX rfl
  | .loadImm64 rA immX => exact .plain _ rfl (.inr ⟨_, _, rfl⟩) rfl rfl rfl (by simp) (by simp)
  | .storeImmU8 immX immY => exact .store _ _ rfl rfl rfl rfl rfl
  | .storeImmU16 immX immY => exact .store _ _ rfl rfl rfl rfl rfl
  | .storeImmU32 immX immY => exact .store _ _ rfl rfl rfl rfl rfl
  | .storeImmU64 immX immY => exact .store _ _ rfl rfl rfl rfl rfl
  | .jump off => exact .jump off s rfl rfl (.inl rfl) rfl rfl
  | .jumpInd rA immX => exact .dynamic _ s rfl rfl (.inl rfl) rfl rfl
  | .loadImm rA immX => exact .plain _ rfl (.inr ⟨_, _, rfl⟩) rfl rfl rfl (by simp) (by simp)
  | .loadU8 rA immX => exact .load _ _ _ rfl rfl rfl rfl rfl
  | .loadI8 rA immX => exact .load _ _ _ rfl rfl rfl rfl rfl
  | .loadU16 rA immX => exact .load _ _ _ rfl rfl rfl rfl rfl
  | .loadI16 rA immX => exact .load _ _ _ rfl rfl rfl rfl rfl
  | .loadU32 rA immX => exact .load _ _ _ rfl rfl rfl rfl rfl
  | .loadI32 rA immX => exact .load _ _ _ rfl rfl rfl rfl rfl
  | .loadU64 rA immX => exact .load _ _ _ rfl rfl rfl rfl rfl
  | .storeU8 rA immX => exact .store _ _ rfl rfl rfl rfl rfl
  | .storeU16 rA immX => exact .store _ _ rfl rfl rfl rfl rfl
  | .storeU32 rA immX => exact .store _ _ rfl rfl rfl rfl rfl
  | .storeU64 rA immX => exact .store _ _ rfl rfl rfl rfl rfl
  | .storeImmIndU8 rA immX immY => exact .store _ _ rfl rfl rfl rfl rfl
  | .storeImmIndU16 rA immX immY => exact .store _ _ rfl rfl rfl rfl rfl
  | .storeImmIndU32 rA immX immY => exact .store _ _ rfl rfl rfl rfl rfl
  | .storeImmIndU64 rA immX immY => exact .store _ _ rfl rfl rfl rfl rfl
  | .loadImmJump rA immX off => exact .jump off _ rfl rfl (.inr ⟨rA, immX, rfl, rfl⟩) rfl rfl
  | .branchEqImm rA immX off => exact execCase_branch (off := off) rfl rfl rfl rfl rfl (by simp) (by simp)
  | .branchNeImm rA immX off => exact execCase_branch (off := off) (by simp only [bne, decide_not]; rfl) rfl rfl rfl rfl (by simp) (by simp)
  | .branchLtUImm rA immX off => exact execCase_branch (off := off) rfl rfl rfl rfl rfl (by simp) (by simp)
  | .branchLeUImm rA immX off => exact execCase_branch (off := off) rfl rfl rfl rfl rfl (by simp) (by simp)
  | .branchGeUImm rA immX off => exact execCase_branch (off := off) rfl rfl rfl rfl rfl (by simp) (by simp)
  | .branchGtUImm rA immX off => exact execCase_branch (off := off) rfl rfl rfl rfl rfl (by simp) (by simp)
  | .branchLtSImm rA immX off => exact execCase_branch (off := off) rfl rfl rfl rfl rfl (by simp) (by simp)
  | .branchLeSImm rA immX off => exact execCase_branch (off := off) rfl rfl rfl rfl rfl (by simp) (by simp)
  | .branchGeSImm rA immX off => exact execCase_branch (off := off) rfl rfl rfl rfl rfl (by simp) (by simp)
  | .branchGtSImm rA immX off => exact execCase_branch (off := off) rfl rfl rfl rfl rfl (by simp) (by simp)
  | .moveReg rA rD => exact .plain _ rfl (.inr ⟨_, _, rfl⟩) rfl rfl rfl (by simp) (by simp)
  | .sbrk rA rD => exact .sbrk rA rD rfl
  | .countSetBits64 rA rD => exact .plain _ rfl (.inr ⟨_, _, rfl⟩) rfl rfl rfl (by simp) (by simp)
  | .countSetBits32 rA rD => exact .plain _ rfl (.inr ⟨_, _, rfl⟩) rfl rfl rfl (by simp) (by simp)
  | .leadingZeroBits64 rA rD => exact .plain _ rfl (.inr ⟨_, _, rfl⟩) rfl rfl rfl (by simp) (by simp)
  | .leadingZeroBits32 rA rD => exact .plain _ rfl (.inr ⟨_, _, rfl⟩) rfl rfl rfl (by simp) (by simp)
  | .trailingZeroBits64 rA rD => exact .plain _ rfl (.inr ⟨_, _, rfl⟩) rfl rfl rfl (by simp) (by simp)
  | .trailingZeroBits32 rA rD => exact .plain _ rfl (.inr ⟨_, _, rfl⟩) rfl rfl rfl (by simp) (by simp)
  | .signExtend8 rA rD => exact .plain _ rfl (.inr ⟨_, _, rfl⟩) rfl rfl rfl (by simp) (by simp)
  | .signExtend16 rA rD => exact .plain _ rfl (.inr ⟨_, _, rfl⟩) rfl rfl rfl (by simp) (by simp)
  | .zeroExtend16 rA rD => exact .plain _ rfl (.inr ⟨_, _, rfl⟩) rfl rfl rfl (by simp) (by simp)
  | .reverseBytes rA rD => exact .plain _ rfl (.inr ⟨_, _, rfl⟩) rfl rfl rfl (by simp) (by simp)
  | .storeIndU8 rA rB immX => exact .store _ _ rfl rfl rfl rfl rfl
  | .storeIndU16 rA rB immX => exact .store _ _ rfl rfl rfl rfl rfl
  | .storeIndU32 rA rB immX => exact .store _ _ rfl rfl rfl rfl rfl
  | .storeIndU64 rA rB immX => exact .store _ _ rfl rfl rfl rfl rfl
  | .loadIndU8 rA rB immX => exact .load _ _ _ rfl rfl rfl rfl rfl
  | .loadIndI8 rA rB immX => exact .load _ _ _ rfl rfl rfl rfl rfl
  | .loadIndU16 rA rB immX => exact .load _ _ _ rfl rfl rfl rfl rfl
  | .loadIndI16 rA rB immX => exact .load _ _ _ rfl rfl rfl rfl rfl
  | .loadIndU32 rA rB immX => exact .load _ _ _ rfl rfl rfl rfl rfl
  | .loadIndI32 rA rB immX => exact .load _ _ _ rfl rfl rfl rfl rfl
  | .loadIndU64 rA rB immX => exact .load _ _ _ rfl rfl rfl rfl rfl
  | .addImm32 rA rB immX => exact .plain _ rfl (.inr ⟨_, _, rfl⟩) rfl rfl rfl (by simp) (by simp)
  | .andImm rA rB immX => exact .plain _ rfl (.inr ⟨_, _, rfl⟩) rfl rfl rfl (by simp) (by simp)
  | .xorImm rA rB immX => exact .plain _ rfl (.inr ⟨_, _, rfl⟩) rfl rfl rfl (by simp) (by simp)
  | .orImm rA rB immX => exact .plain _ rfl (.inr ⟨_, _, rfl⟩) rfl rfl rfl (by simp) (by simp)
  | .mulImm32 rA rB immX => exact .plain _ rfl (.inr ⟨_, _, rfl⟩) rfl rfl rfl (by simp) (by simp)
  | .setLtUImm rA rB immX => exact .plain _ rfl (.inr ⟨_, _, rfl⟩) rfl rfl rfl (by simp) (by simp)
  | .setLtSImm rA rB immX => exact .plain _ rfl (.inr ⟨_, _, rfl⟩) rfl rfl rfl (by simp) (by simp)
  | .shloLImm32 rA rB immX => exact .plain _ rfl (.inr ⟨_, _, rfl⟩) rfl rfl rfl (by simp) (by simp)
  | .shloRImm32 rA rB immX => exact .plain _ rfl (.inr ⟨_, _, rfl⟩) rfl rfl rfl (by simp) (by simp)
  | .sharRImm32 rA rB immX => exact .plain _ rfl (.inr ⟨_, _, rfl⟩) rfl rfl rfl (by simp) (by simp)
  | .negAddImm32 rA rB immX => exact .plain _ rfl (.inr ⟨_, _, rfl⟩) rfl rfl rfl (by simp) (by simp)
  | .setGtUImm rA rB immX => exact .plain _ rfl (.inr ⟨_, _, rfl⟩) rfl rfl rfl (by simp) (by simp)
  | .setGtSImm rA rB immX => exact .plain _ rfl (.inr ⟨_, _, rfl⟩) rfl rfl rfl (by simp) (by simp)
  | .shloLImmAlt32 rA rB immX => exact .plain _ rfl (.inr ⟨_, _, rfl⟩) rfl rfl rfl (by simp) (by simp)
  | .shloRImmAlt32 rA rB immX => exact .plain _ rfl (.inr ⟨_, _, rfl⟩) rfl rfl rfl (by simp) (by simp)
  | .sharRImmAlt32 rA rB immX => exact .plain _ rfl (.inr ⟨_, _, rfl⟩) rfl rfl rfl (by simp) (by simp)
  | .cmovIzImm rA rB immX => exact execCase_cmov rfl rfl rfl rfl (by simp) (by simp)
  | .cmovNzImm rA rB immX => exact execCase_cmov rfl rfl rfl rfl (by simp) (by simp)
  | .addImm64 rA rB immX => exact .plain _ rfl (.inr ⟨_, _, rfl⟩) rfl rfl rfl (by simp) (by simp)
  | .mulImm64 rA rB immX => exact .plain _ rfl (.inr ⟨_, _, rfl⟩) rfl rfl rfl (by simp) (by simp)
  | .shloLImm64 rA rB immX => exact .plain _ rfl (.inr ⟨_, _, rfl⟩) rfl rfl rfl (by simp) (by simp)
  | .shloRImm64 rA rB immX => exact .plain _ rfl (.inr ⟨_, _, rfl⟩) rfl rfl rfl (by simp) (by simp)
  | .sharRImm64 rA rB immX => exact .plain _ rfl (.inr ⟨_, _, rfl⟩) rfl rfl rfl (by simp) (by simp)
  | .negAddImm64 rA rB immX => exact .plain _ rfl (.inr ⟨_, _, rfl⟩) rfl rfl rfl (by simp) (by simp)
  | .shloLImmAlt64 rA rB immX => exact .plain _ rfl (.inr ⟨_, _, rfl⟩) rfl rfl rfl (by simp) (by simp)
  | .shloRImmAlt64 rA rB immX => exact .plain _ rfl (.inr ⟨_, _, rfl⟩) rfl rfl rfl (by simp) (by simp)
  | .sharRImmAlt64 rA rB immX => exact .plain _ rfl (.inr ⟨_, _, rfl⟩) rfl rfl rfl (by simp) (by simp)
  | .rotR64Imm rA rB immX => exact .plain _ rfl (.inr ⟨_, _, rfl⟩) rfl rfl rfl (by simp) (by simp)
  | .rotR64ImmAlt rA rB immX => exact .plain _ rfl (.inr ⟨_, _, rfl⟩) rfl rfl rfl (by simp) (by simp)
  | .rotR32Imm rA rB immX => exact .plain _ rfl (.inr ⟨_, _, rfl⟩) rfl rfl rfl (by simp) (by simp)
  | .rotR32ImmAlt rA rB immX => exact .plain _ rfl (.inr ⟨_, _, rfl⟩) rfl rfl rfl (by simp) (by simp)
  | .branchEq rA rB off => exact execCase_branch (off := off) rfl rfl rfl rfl rfl (by simp) (by simp)
  | .branchNe rA rB off => exact execCase_branch (off := off) (by simp only [bne, decide_not]; rfl) rfl rfl rfl rfl (by simp) (by simp)
  | .branchLtU rA rB off => exact execCase_branch (off := off) rfl rfl rfl rfl rfl (by simp) (by simp)
  | .branchLtS rA rB off => exact execCase_branch (off := off) rfl rfl rfl rfl rfl (by simp) (by simp)
  | .branchGeU rA rB off => exact execCase_branch (off := off) rfl rfl rfl rfl rfl (by simp) (by simp)
  | .branchGeS rA rB off => exact execCase_branch (off := off) rfl rfl rfl rfl rfl (by simp) (by simp)
  | .loadImmJumpInd rA rB immX immY => exact .dynamic _ _ rfl rfl (.inr ⟨rA, rB, immX, immY, rfl, rfl⟩) rfl rfl
  | .add32 rA rB rD => exact .plain _ rfl (.inr ⟨_, _, rfl⟩) rfl rfl rfl (by simp) (by simp)
  | .sub32 rA rB rD => exact .plain _ rfl (.inr ⟨_, _, rfl⟩) rfl rfl rfl (by simp) (by simp)
  | .mul32 rA rB rD => exact .plain _ rfl (.inr ⟨_, _, rfl⟩) rfl rfl rfl (by simp) (by simp)
  | .divU32 rA rB rD => exact .plain _ rfl (.inr ⟨_, _, rfl⟩) rfl rfl rfl (by simp) (by simp)
  | .divS32 rA rB rD => exact .plain _ rfl (.inr ⟨_, _, rfl⟩) rfl rfl rfl (by simp) (by simp)
  | .remU32 rA rB rD => exact .plain _ rfl (.inr ⟨_, _, rfl⟩) rfl rfl rfl (by simp) (by simp)
  | .remS32 rA rB rD => exact .plain _ rfl (.inr ⟨_, _, rfl⟩) rfl rfl rfl (by simp) (by simp)
  | .shloL32 rA rB rD => exact .plain _ rfl (.inr ⟨_, _, rfl⟩) rfl rfl rfl (by simp) (by simp)
  | .shloR32 rA rB rD => exact .plain _ rfl (.inr ⟨_, _, rfl⟩) rfl rfl rfl (by simp) (by simp)
  | .sharR32 rA rB rD => exact .plain _ rfl (.inr ⟨_, _, rfl⟩) rfl rfl rfl (by simp) (by simp)
  | .add64 rA rB rD => exact .plain _ rfl (.inr ⟨_, _, rfl⟩) rfl rfl rfl (by simp) (by simp)
  | .sub64 rA rB rD => exact .plain _ rfl (.inr ⟨_, _, rfl⟩) rfl rfl rfl (by simp) (by simp)
  | .mul64 rA rB rD => exact .plain _ rfl (.inr ⟨_, _, rfl⟩) rfl rfl rfl (by simp) (by simp)
  | .divU64 rA rB rD => exact .plain _ rfl (.inr ⟨_, _, rfl⟩) rfl rfl rfl (by simp) (by simp)
  | .divS64 rA rB rD => exact .plain _ rfl (.inr ⟨_, _, rfl⟩) rfl rfl rfl (by simp) (by simp)
  | .remU64 rA rB rD => exact .plain _ rfl (.inr ⟨_, _, rfl⟩) rfl rfl rfl (by simp) (by simp)
  | .remS64 rA rB rD => exact .plain _ rfl (.inr ⟨_, _, rfl⟩) rfl rfl rfl (by simp) (by simp)
  | .shloL64 rA rB rD => exact .plain _ rfl (.inr ⟨_, _, rfl⟩) rfl rfl rfl (by simp) (by simp)
  | .shloR64 rA rB rD => exact .plain _ rfl (.inr ⟨_, _, rfl⟩) rfl rfl rfl (by simp) (by simp)
  | .sharR64 rA rB rD => exact .plain _ rfl (.inr ⟨_, _, rfl⟩) rfl rfl rfl (by simp) (by simp)
  | .andReg rA rB rD => exact .plain _ rfl (.inr ⟨_, _, rfl⟩) rfl rfl rfl (by simp) (by simp)
  | .xorReg rA rB rD => exact .plain _ rfl (.inr ⟨_, _, rfl⟩) rfl rfl rfl (by simp) (by simp)
  | .orReg rA rB rD => exact .plain _ rfl (.inr ⟨_, _, rfl⟩) rfl rfl rfl (by simp) (by simp)
  | .mulUpperSS rA rB rD => exact .plain _ rfl (.inr ⟨_, _, rfl⟩) rfl rfl rfl (by simp) (by simp)
  | .mulUpperUU rA rB rD => exact .plain _ rfl (.inr ⟨_, _, rfl⟩) rfl rfl rfl (by simp) (by simp)
  | .mulUpperSU rA rB rD => exact .plain _ rfl (.inr ⟨_, _, rfl⟩) rfl rfl rfl (by simp) (by simp)
  | .setLtU rA rB rD => exact .plain _ rfl (.inr ⟨_, _, rfl⟩) rfl rfl rfl (by simp) (by simp)
  | .setLtS rA rB rD => exact .plain _ rfl (.inr ⟨_, _, rfl⟩) rfl rfl rfl (by simp) (by simp)
  | .cmovIz rA rB rD => exact execCase_cmov rfl rfl rfl rfl (by simp) (by simp)
  | .cmovNz rA rB rD => exact execCase_cmov rfl rfl rfl rfl (by simp) (by simp)
  | .rotL64 rA rB rD => exact .plain _ rfl (.inr ⟨_, _, rfl⟩) rfl rfl rfl (by simp) (by simp)
  | .rotL32 rA rB rD => exact .plain _ rfl (.inr ⟨_, _, rfl⟩) rfl rfl rfl (by simp) (by simp)
  | .rotR64 rA rB rD => exact .plain _ rfl (.inr ⟨_, _, rfl⟩) rfl rfl rfl (by simp) (by simp)
  | .rotR32 rA rB rD => exact .plain _ rfl (.inr ⟨_, _, rfl⟩) rfl rfl rfl (by simp) (by simp)
  | .andInv rA rB rD => exact .plain _ rfl (.inr ⟨_, _, rfl⟩) rfl rfl rfl (by simp) (by simp)
  | .orInv rA rB rD => exact .plain _ rfl (.inr ⟨_, _, rfl⟩) rfl rfl rfl (by simp) (by simp)
  | .xnor rA rB rD => exact .plain _ rfl (.inr ⟨_, _, rfl⟩) rfl rfl rfl (by simp) (by simp)
  | .maxS rA rB rD => exact .plain _ rfl (.inr ⟨_, _, rfl⟩) rfl rfl rfl (by simp) (by simp)
  | .maxU rA rB rD => exact .plain _ rfl (.inr ⟨_, _, rfl⟩) rfl rfl rfl (by simp) (by simp)
  | .minS rA rB rD => exact .plain _ rfl (.inr ⟨_, _, rfl⟩) rfl rfl rfl (by simp) (by simp)
  | .minU rA rB rD => exact .plain _ rfl (.inr ⟨_, _, rfl⟩) rfl rfl rfl (by simp) (by simp)

/-- No instruction ends in a fault of the model (notes/assumptions/7.md). -/
theorem exec_ne_fault (i : Instr) (s : State) (f : Fault) : exec i s ≠ .fault f := by
  rcases exec_cases i s with ⟨t, h, -⟩ | hi | ⟨x, hi⟩ | ⟨c, ext, rd, -, -, h⟩ | ⟨c, v, -, -, h⟩ |
    ⟨off, s', -, h⟩ | ⟨a, s', -, h⟩ | ⟨rA, rD, hi⟩
  · simp [h]
  · simp [hi, exec, execTrap]
  · simp [hi, exec, execEcalli]
  · rcases loadInto_cases c.width ext rd c.addr s with ⟨-, h'⟩ | ⟨k, -, -, -, h'⟩ <;> simp [h, h']
  · rcases storeAt_cases c.width c.addr v s with ⟨-, m, -, h'⟩ | ⟨k, -, -, -, h'⟩ <;> simp [h, h']
  · simp [h]
  · simp [h]
  · simp only [hi, exec, execSbrk]
    split <;> simp [writeResult]

/-- The only refusal of an instruction is that of SBRK onto a mapped page. -/
theorem exec_refused {i : Instr} {s : State} {r : Refusal} (h : exec i s = .refused r) :
    r = .sbrkOntoMappedPage ∧ ∃ rA rD, i = .sbrk rA rD ∧ s.mem.sbrk s.params.heapLimit (s.reg rA).toNat = .refuse := by
  rcases exec_cases i s with ⟨t, h', -⟩ | hi | ⟨x, hi⟩ | ⟨c, ext, rd, -, -, h'⟩ | ⟨c, v, -, -, h'⟩ |
    ⟨off, s', -, h'⟩ | ⟨a, s', -, h'⟩ | ⟨rA, rD, hi⟩
  · simp [h'] at h
  · simp [hi, exec, execTrap] at h
  · simp [hi, exec, execEcalli] at h
  · rcases loadInto_cases c.width ext rd c.addr s with ⟨-, h''⟩ | ⟨k, -, -, -, h''⟩ <;>
      simp [h', h''] at h
  · rcases storeAt_cases c.width c.addr v s with ⟨-, m, -, h''⟩ | ⟨k, -, -, -, h''⟩ <;>
      simp [h', h''] at h
  · simp [h'] at h
  · simp [h'] at h
  · simp only [hi, exec, execSbrk] at h
    split at h
    · simp [writeResult] at h
    · rename_i hr
      cases h
      exact ⟨rfl, rA, rD, hi, hr⟩
    · simp [writeResult] at h

end Sys2Proof.Machine
end

