-- ==== Sys2Proof/Laws/Step.lean ====
section
/-! SUPPORT. What a step can do, said once: the phases of spec/40_step.md R161–R168. -/

namespace Sys2Proof.Machine

theorem step_eq (s : State) : step s = nextStep s := rfl

/-- A step of a core that is not loaded is refused (R161). -/
theorem step_of_not_loaded {s : State} (h : s.loaded = false) : step s = .refused .notLoaded := by
  simp [step, nextStep, h]

/-- A status other than OK is sticky (R161). -/
theorem step_of_sticky {s : State} (hl : s.loaded = true) (h : s.status ≠ .ok) : step s = .next s := by
  simp [step, nextStep, hl, h]

/-- A step at no instruction boundary panics, with no gas charged (R162). -/
theorem step_of_invalid {s : State} (hl : s.loaded = true) (hs : s.status = .ok)
    (h : atBoundary s.prog s.pc.toNat = false) : step s = .next (takeException .panic s) := by
  simp [step, nextStep, hl, hs, h]

/-- A step without the gas for its opcode ends OOG (R164). -/
theorem step_of_oog {s : State} (hl : s.loaded = true) (hs : s.status = .ok)
    (hb : atBoundary s.prog s.pc.toNat = true) (hg : s.gas < opGas s.params s.opcode) :
    step s = .next (takeException .oog { s with gas := 0 }) := by
  simp [step, nextStep, hl, hs, hb, chargeAndRun, State.subGas_of_lt s hg]

/-- What a ready step does: PANIC for an unknown opcode, and the decoded instruction otherwise (R165, R166). -/
theorem step_of_ready {s : State} (h : s.Ready) :
    step s = match s.prog.decodeAt s.params s.pc.toNat with
      | .error _ => .next (takeException .panic s.charged)
      | .ok i => exec i s.charged := by
  obtain ⟨hl, hs, hb, hg⟩ := h
  have : step s = chargeAndRun s := by simp [step, nextStep, hl, hs, hb]
  rw [this, chargeAndRun, State.subGas_of_le s hg]
  cases s.prog.decodeAt s.params s.pc.toNat <;> rfl

/-- The cases of a step of a loaded core. -/
theorem step_cases {s : State} (hl : s.loaded = true) :
    (s.status ≠ .ok ∧ step s = .next s) ∨
    (s.status = .ok ∧ atBoundary s.prog s.pc.toNat = false ∧ step s = .next (takeException .panic s)) ∨
    (s.status = .ok ∧ atBoundary s.prog s.pc.toNat = true ∧ s.gas < opGas s.params s.opcode ∧
      step s = .next (takeException .oog { s with gas := 0 })) ∨
    (s.Ready ∧ ∃ e, s.prog.decodeAt s.params s.pc.toNat = .error e ∧
      step s = .next (takeException .panic s.charged)) ∨
    (s.Ready ∧ ∃ i, s.prog.decodeAt s.params s.pc.toNat = .ok i ∧ step s = exec i s.charged) := by
  by_cases hs : s.status = .ok
  · cases hb : atBoundary s.prog s.pc.toNat with
    | false => exact .inr (.inl ⟨hs, rfl, step_of_invalid hl hs hb⟩)
    | true =>
      by_cases hg : s.gas < opGas s.params s.opcode
      · exact .inr (.inr (.inl ⟨hs, rfl, hg, step_of_oog hl hs hb hg⟩))
      · have hr : s.Ready := ⟨hl, hs, hb, Nat.not_lt.mp hg⟩
        have hstep := step_of_ready hr
        cases hd : s.prog.decodeAt s.params s.pc.toNat with
        | error e =>
          rw [hd] at hstep
          exact .inr (.inr (.inr (.inl ⟨hr, e, rfl, hstep⟩)))
        | ok i =>
          rw [hd] at hstep
          exact .inr (.inr (.inr (.inr ⟨hr, i, rfl, hstep⟩)))
  · exact .inl ⟨hs, step_of_sticky hl hs⟩

/-- No step ends in a fault of the model. -/
theorem step_ne_fault (s : State) (f : Fault) : step s ≠ .fault f := by
  cases hl : s.loaded with
  | false => simp [step_of_not_loaded hl]
  | true =>
    rcases step_cases hl with ⟨-, h⟩ | ⟨-, -, h⟩ | ⟨-, -, -, h⟩ | ⟨-, e, -, h⟩ | ⟨-, i, -, h⟩
    · simp [h]
    · simp [h]
    · simp [h]
    · simp [h]
    · rw [h]; exact exec_ne_fault i _ f

/-- By default every opcode costs 1, unknown ones included (spec/00_scope.md R9). -/
@[simp] theorem opGas_default (op : Nat) : opGas .default op = 1 := by
  unfold opGas
  split <;> rfl

/-- When every entry of `GAS_COST` is at least 1, so is the cost of every opcode byte. -/
theorem one_le_opGas {P : Params} (h : ∀ op, 1 ≤ P.gasCost op) (op : Nat) : 1 ≤ opGas P op := by
  unfold opGas
  split <;> exact h _

end Sys2Proof.Machine
end

