-- ==== Sys2Proof/Laws/Outcome.lean ====
section
/-! SUPPORT. What executing an instruction and taking a step can end in, with the reason for each outcome, and what
either leaves alone. -/

namespace Sys2Proof.Machine

/-- Why executing `i` in `s` ended in `t`. -/
inductive ExecOutcome (i : Instr) (s t : State) : Prop where
  /-- It raised nothing. -/
  | ok (h : t.status = .ok) (hg : t.gas = s.gas)
      (hp : t.pc = s.nextPC ∨ ∃ q, isBB s.params s.prog q = true ∧ t.pc = BitVec.ofInt 32 q)
      (ha : ∀ c k, accessOf i s = some c → ¬s.mem.FirstOffence c k)
      (ho : ∀ off, takenOffset i s = some off → isBB s.params s.prog (s.target off) = true)
      (hd : ∀ a, dynamicAddress i s = some a → a ≠ s.params.haltAddress ∧ dynamicTarget s.params s.prog a ≠ none)
      (hn : i ≠ .trap) (he : ∀ x, i ≠ .ecalli x)
  /-- TRAP. -/
  | trap (hi : i = .trap) (ht : t = takeException .panic s)
  /-- ECALLI. -/
  | host (x : Word) (hi : i = .ecalli x) (ht : t = takeException (.host (low32 x)) s)
  /-- A byte of its access was not permitted. -/
  | fault (c : Access) (k : Nat) (ha : accessOf i s = some c) (hf : s.mem.FirstOffence c k)
      (ht : t = takeException (.fault (BitVec.ofNat 32 (accessAddr c.addr k)) c.isWrite) s)
  /-- Its static target is no block start. -/
  | badTarget (off : Int) (ho : takenOffset i s = some off) (hb : isBB s.params s.prog (s.target off) = false)
      (ht : t = takeException .panic s ∨
        ∃ r x, i = .loadImmJump r x off ∧ t = takeException .panic (s.setReg r x))
  /-- Its dynamic address selects no block start. -/
  | badAddress (a : Addr) (hd : dynamicAddress i s = some a) (hh : a ≠ s.params.haltAddress)
      (hb : dynamicTarget s.params s.prog a = none)
      (ht : t = takeException .panic s ∨
        ∃ r b x y, i = .loadImmJumpInd r b x y ∧ t = takeException .panic (s.setReg r x))
  /-- Its dynamic address is the halt address. -/
  | halt (hd : dynamicAddress i s = some s.params.haltAddress)
      (ht : t = takeException .halt s ∨
        ∃ r b x y, i = .loadImmJumpInd r b x y ∧ t = takeException .halt (s.setReg r x))

/-- A dynamic target is a block start. -/
theorem isBB_of_dynamicTarget {P : Params} {p : Program} {a : Addr} {t : BitVec 32} (h : dynamicTarget P p a = some t) :
    isBB P p t.toNat = true := by
  unfold dynamicTarget at h
  split at h
  · rw [Option.filter_eq_some_iff] at h
    exact h.2
  · cases h

/-- Every next state of an instruction has one of these reasons. -/
theorem exec_outcome {i : Instr} {s t : State} (he : exec i s = .next t) : ExecOutcome i s t := by
  rcases exec_cases i s with ⟨t', h, ht, ha, ho, hd, hn, hee⟩ | hi | ⟨x, hi⟩ |
    ⟨c, ext, rd, ha, hw, h, ho, hd⟩ | ⟨c, v, ha, hw, h, ho, hd⟩ | ⟨off, s', ho, h, hs, ha, hd⟩ |
    ⟨a, s', hd, h, hs, ha, ho⟩ | ⟨rA, rD, hi⟩
  · rw [he] at h
    cases h
    refine .ok ?_ ?_ (.inl ?_) (by simp [ha]) (by simp [ho]) (by simp [hd]) hn hee
    all_goals rcases ht with rfl | ⟨rd, v, rfl⟩ <;> rfl
  · subst hi
    cases he
    exact .trap rfl rfl
  · subst hi
    cases he
    exact .host _ rfl rfl
  · rw [he] at h
    rcases loadInto_cases c.width ext rd c.addr s with ⟨hr, h'⟩ | ⟨k, hk, hf, hj, h'⟩
    · rw [h'] at h
      cases h
      refine .ok rfl rfl (.inl rfl) ?_ (by simp [ho]) (by simp [hd]) ?_ ?_
      · intro c' k hc
        rw [ha] at hc
        cases hc
        rintro ⟨h1, h2, -⟩
        simp [Memory.permits, hw, hr k h1] at h2
      · rintro rfl
        cases ha
      · rintro x rfl
        cases ha
    · rw [h'] at h
      cases h
      exact .fault c k ha ⟨hk, by simpa [Memory.permits, hw] using hf, by simpa [Memory.permits, hw] using hj⟩
        (by rw [hw])
  · rw [he] at h
    rcases storeAt_cases c.width c.addr v s with ⟨hr, m, hm, h'⟩ | ⟨k, hk, hf, hj, h'⟩
    · rw [h'] at h
      cases h
      refine .ok rfl rfl (.inl rfl) ?_ (by simp [ho]) (by simp [hd]) ?_ ?_
      · intro c' k hc
        rw [ha] at hc
        cases hc
        rintro ⟨h1, h2, -⟩
        simp [Memory.permits, hw, hr k h1] at h2
      · rintro rfl
        cases ha
      · rintro x rfl
        cases ha
    · rw [h'] at h
      cases h
      exact .fault c k ha ⟨hk, by simpa [Memory.permits, hw] using hf, by simpa [Memory.permits, hw] using hj⟩
        (by rw [hw])
  · rw [he, branch_true] at h
    cases h
    have hp : s'.prog = s.prog := by rcases hs with rfl | ⟨r, x, -, rfl⟩ <;> rfl
    have hP : s'.params = s.params := by rcases hs with rfl | ⟨r, x, -, rfl⟩ <;> rfl
    rw [hp, hP]
    by_cases hb : isBB s.params s.prog (s.target off) = true
    · rw [if_pos hb]
      refine .ok rfl ?_ (.inr ⟨_, hb, rfl⟩) (by simp [ha]) ?_ (by simp [hd]) ?_ ?_
      · rcases hs with rfl | ⟨r, x, -, rfl⟩ <;> rfl
      · intro o h
        rw [ho] at h
        cases h
        exact hb
      · rintro rfl
        cases ho
      · rintro x rfl
        cases ho
    · rw [if_neg hb]
      refine .badTarget off ho (by simpa using hb) ?_
      rcases hs with rfl | ⟨r, x, h1, rfl⟩
      · exact .inl rfl
      · exact .inr ⟨r, x, h1, rfl⟩
  · rw [he, djump_eq] at h
    cases h
    have hp : s'.prog = s.prog := by rcases hs with rfl | ⟨r, b, x, y, -, rfl⟩ <;> rfl
    have hP : s'.params = s.params := by rcases hs with rfl | ⟨r, b, x, y, -, rfl⟩ <;> rfl
    rw [hp, hP]
    by_cases h1 : a = s.params.haltAddress
    · rw [if_pos h1]
      rw [h1] at hd
      refine .halt hd ?_
      rcases hs with rfl | ⟨r, b, x, y, h1, rfl⟩
      · exact .inl rfl
      · exact .inr ⟨r, b, x, y, h1, rfl⟩
    · rw [if_neg h1]
      cases hb : dynamicTarget s.params s.prog a with
      | none =>
        refine .badAddress a hd h1 hb ?_
        rcases hs with rfl | ⟨r, b, x, y, h1, rfl⟩
        · exact .inl rfl
        · exact .inr ⟨r, b, x, y, h1, rfl⟩
      | some q =>
        refine .ok rfl ?_ (.inr ⟨(q.toNat : Int), isBB_of_dynamicTarget hb, ?_⟩) (by simp [ha]) (by simp [ho])
          ?_ ?_ ?_
        · rcases hs with rfl | ⟨r, b, x, y, -, rfl⟩ <;> rfl
        · apply BitVec.eq_of_toInt_eq
          simp
        · intro a' h
          rw [hd] at h
          cases h
          exact ⟨h1, by simp [hb]⟩
        · rintro rfl
          cases hd
        · rintro x rfl
          cases hd
  · subst hi
    simp only [exec, execSbrk] at he
    split at he
    · cases he
      exact .ok rfl rfl (.inl rfl) (by simp [accessOf]) (by simp [takenOffset]) (by simp [dynamicAddress])
        (by simp) (by simp)
    · cases he
    · cases he
      exact .ok rfl rfl (.inl rfl) (by simp [accessOf]) (by simp [takenOffset]) (by simp [dynamicAddress])
        (by simp) (by simp)

/-! ## What is left alone -/

/-- How an instruction or a step changes memory: not at all, by one write, or by growing the heap. -/
def Memory.StepsTo (m : Memory) (limit : Nat) (m' : Memory) : Prop :=
  m' = m ∨ (∃ addr bs, m.writeBytes addr bs = .ok m') ∨ ∃ n old, m.sbrk limit n = .grown old m'

/-- No instruction changes the parameters, the program or the gas counter. -/
theorem exec_sameFixed {i : Instr} {s t : State} (h : exec i s = .next t) : s.SameFixed t := by
  rcases exec_cases i s with ⟨t', h', ht, -⟩ | hi | ⟨x, hi⟩ | ⟨c, ext, rd, -, -, h', -, -⟩ |
    ⟨c, v, -, -, h', -, -⟩ | ⟨off, s', -, h', hs, -, -⟩ | ⟨a, s', -, h', hs, -, -⟩ | ⟨rA, rD, hi⟩
  · rw [h] at h'
    cases h'
    rcases ht with rfl | ⟨rd, v, rfl⟩ <;> exact ⟨rfl, rfl, rfl, rfl, rfl⟩
  · subst hi
    cases h
    exact ⟨rfl, rfl, rfl, rfl, rfl⟩
  · subst hi
    cases h
    exact ⟨rfl, rfl, rfl, rfl, rfl⟩
  · rw [h] at h'
    rcases loadInto_cases c.width ext rd c.addr s with ⟨-, h''⟩ | ⟨k, -, -, -, h''⟩ <;>
      (rw [h''] at h'; cases h'; exact ⟨rfl, rfl, rfl, rfl, rfl⟩)
  · rw [h] at h'
    rcases storeAt_cases c.width c.addr v s with ⟨-, m, -, h''⟩ | ⟨k, -, -, -, h''⟩ <;>
      (rw [h''] at h'; cases h'; exact ⟨rfl, rfl, rfl, rfl, rfl⟩)
  · rw [h, branch_true] at h'
    cases h'
    rcases hs with rfl | ⟨r, x, -, rfl⟩ <;> split <;> exact ⟨rfl, rfl, rfl, rfl, rfl⟩
  · rw [h, djump_eq] at h'
    cases h'
    rcases hs with rfl | ⟨r, b, x, y, -, rfl⟩ <;> split <;>
      first | exact ⟨rfl, rfl, rfl, rfl, rfl⟩ | (split <;> exact ⟨rfl, rfl, rfl, rfl, rfl⟩)
  · subst hi
    simp only [exec, execSbrk] at h
    split at h <;> first | (cases h; exact ⟨rfl, rfl, rfl, rfl, rfl⟩) | cases h

/-- How an instruction changes memory. -/
theorem exec_memory {i : Instr} {s t : State} (h : exec i s = .next t) : s.mem.StepsTo s.params.heapLimit t.mem := by
  rcases exec_cases i s with ⟨t', h', ht, -⟩ | hi | ⟨x, hi⟩ | ⟨c, ext, rd, -, -, h', -, -⟩ |
    ⟨c, v, -, -, h', -, -⟩ | ⟨off, s', -, h', hs, -, -⟩ | ⟨a, s', -, h', hs, -, -⟩ | ⟨rA, rD, hi⟩
  · rw [h] at h'
    cases h'
    left
    rcases ht with rfl | ⟨rd, v, rfl⟩ <;> rfl
  · subst hi
    cases h
    exact .inl rfl
  · subst hi
    cases h
    exact .inl rfl
  · rw [h] at h'
    left
    rcases loadInto_cases c.width ext rd c.addr s with ⟨-, h''⟩ | ⟨k, -, -, -, h''⟩ <;>
      (rw [h''] at h'; cases h'; rfl)
  · rw [h] at h'
    rcases storeAt_cases c.width c.addr v s with ⟨-, m, hm, h''⟩ | ⟨k, -, -, -, h''⟩ <;>
      (rw [h''] at h'; cases h')
    · exact .inr (.inl ⟨_, _, hm⟩)
    · exact .inl rfl
  · rw [h, branch_true] at h'
    cases h'
    left
    rcases hs with rfl | ⟨r, x, -, rfl⟩ <;> split <;> rfl
  · rw [h, djump_eq] at h'
    cases h'
    left
    rcases hs with rfl | ⟨r, b, x, y, -, rfl⟩ <;> split <;> first | rfl | (split <;> rfl)
  · subst hi
    simp only [exec, execSbrk] at h
    split at h
    · cases h
      exact .inl rfl
    · cases h
    · rename_i old m hm
      cases h
      exact .inr (.inr ⟨_, _, hm⟩)

/-- How a step changes memory. -/
theorem step_memory {s t : State} (h : step s = .next t) : s.mem.StepsTo s.params.heapLimit t.mem := by
  cases hl : s.loaded with
  | false =>
    rw [step_of_not_loaded hl] at h
    cases h
  | true =>
    rcases step_cases hl with ⟨-, h'⟩ | ⟨-, -, h'⟩ | ⟨-, -, -, h'⟩ | ⟨-, e, -, h'⟩ | ⟨-, i, -, h'⟩
    · rw [h] at h'
      cases h'
      exact .inl rfl
    · rw [h] at h'
      cases h'
      exact .inl rfl
    · rw [h] at h'
      cases h'
      exact .inl rfl
    · rw [h] at h'
      cases h'
      exact .inl rfl
    · exact exec_memory (s := s.charged) (h'.symm.trans h)

/-- What a step does to the gas, by its static cost: nothing, all that remained, or the cost. -/
theorem step_gas {s t : State} (h : step s = .next t) :
    (s.staticCost = 0 ∧ t.gas = s.gas ∧ t.status ≠ .ok) ∨
    (s.staticCost = opGas s.params s.opcode ∧ s.gas < s.staticCost ∧ t.gas = 0 ∧ t.status ≠ .ok) ∨
    (s.staticCost = opGas s.params s.opcode ∧ s.staticCost ≤ s.gas ∧ t.gas = s.gas - s.staticCost) := by
  cases hl : s.loaded with
  | false =>
    rw [step_of_not_loaded hl] at h
    cases h
  | true =>
    rcases step_cases hl with ⟨hs, h'⟩ | ⟨hs, hb, h'⟩ | ⟨hs, hb, hg, h'⟩ | ⟨⟨h1, h2, h3, h4⟩, e, -, h'⟩ |
      ⟨⟨h1, h2, h3, h4⟩, i, -, h'⟩
    · rw [h] at h'
      cases h'
      exact .inl ⟨by simp [State.staticCost, hs], rfl, hs⟩
    · rw [h] at h'
      cases h'
      exact .inl ⟨by simp [State.staticCost, hb], rfl, by simp⟩
    · have hc : s.staticCost = opGas s.params s.opcode := by simp [State.staticCost, hb, hs, hl]
      rw [h] at h'
      cases h'
      exact .inr (.inl ⟨hc, by rw [hc]; exact hg, rfl, by simp⟩)
    · have hc : s.staticCost = opGas s.params s.opcode := by simp [State.staticCost, h1, h2, h3]
      rw [h] at h'
      cases h'
      exact .inr (.inr ⟨hc, by rw [hc]; exact h4, by rw [hc]; rfl⟩)
    · have hc : s.staticCost = opGas s.params s.opcode := by simp [State.staticCost, h1, h2, h3]
      have hf := exec_sameFixed (h'.symm.trans h)
      exact .inr (.inr ⟨hc, by rw [hc]; exact h4, by rw [hf.gas, hc]; rfl⟩)

/-- What a step never changes: the parameters, the program and the allotment. -/
theorem step_fixed {s t : State} (h : step s = .next t) :
    t.loaded = s.loaded ∧ t.prog = s.prog ∧ t.initialGas = s.initialGas ∧
      t.params = s.params := by
  cases hl : s.loaded with
  | false =>
    rw [step_of_not_loaded hl] at h
    cases h
  | true =>
    rcases step_cases hl with ⟨-, h'⟩ | ⟨-, -, h'⟩ | ⟨-, -, -, h'⟩ | ⟨-, e, -, h'⟩ | ⟨-, i, -, h'⟩
    · rw [h] at h'
      cases h'
      exact ⟨hl, rfl, rfl, rfl⟩
    · rw [h] at h'
      cases h'
      exact ⟨hl, rfl, rfl, rfl⟩
    · rw [h] at h'
      cases h'
      exact ⟨hl, rfl, rfl, rfl⟩
    · rw [h] at h'
      cases h'
      exact ⟨hl, rfl, rfl, rfl⟩
    · have hf := exec_sameFixed (h'.symm.trans h)
      exact ⟨hf.loaded.trans hl, hf.prog, hf.initialGas, hf.params⟩

/-- The gas charge is not read by what an instruction accesses or where it can jump. -/
theorem accessOf_charged (i : Instr) (s : State) : accessOf i s.charged = accessOf i s := by cases i <;> rfl

theorem takenOffset_charged (i : Instr) (s : State) : takenOffset i s.charged = takenOffset i s := by
  cases i <;> rfl

theorem dynamicAddress_charged (i : Instr) (s : State) : dynamicAddress i s.charged = dynamicAddress i s := by
  cases i <;> rfl

end Sys2Proof.Machine
end

