-- ==== Sys2Proof/Laws/Host.lean ====
section
/-! SUPPORT. What a host command can do, said once for all commands. -/

namespace Sys2Proof.Machine

/-- A command that answers ran on a loaded core. -/
theorem whenLoaded_eq_ok {α : Type} {s : State} {r : Reply α} {a : α} (h : whenLoaded s r = .ok a) :
    s.loaded = true ∧ r = .ok a := by
  unfold whenLoaded at h
  split at h
  · exact ⟨by assumption, h⟩
  · cases h

/-- A property that every step keeps is kept by any number of steps. -/
theorem runSteps_induction {P : State → Prop} (hP : ∀ s t, P s → step s = .next t → P t) (n : Nat) :
    ∀ s t, P s → runSteps n s = .next t → P t := by
  induction n with
  | zero =>
    intro s t h e
    cases e
    exact h
  | succ n ih =>
    intro s t h e
    simp only [runSteps] at e
    cases hst : nextStep s with
    | fault f =>
      rw [hst] at e
      cases e
    | refused f =>
      rw [hst] at e
      cases e
    | next u =>
      rw [hst] at e
      have hu := hP s u h hst
      simp only at e
      split at e
      · exact ih u t hu e
      · cases e
        exact hu

/-- A run never ends in a fault of the model. -/
theorem runSteps_ne_fault (n : Nat) (f : Fault) : ∀ s, runSteps n s ≠ .fault f := by
  induction n with
  | zero => intro s h; cases h
  | succ n ih =>
    intro s h
    simp only [runSteps] at h
    cases hst : nextStep s with
    | fault g => exact step_ne_fault s g hst
    | refused r =>
      rw [hst] at h
      cases h
    | next u =>
      rw [hst] at h
      simp only at h
      split at h
      · exact ih u h
      · cases h

/-- What a host command that answers did: a step, a run, a resume, a register write, a gas write, a memory write, or
nothing. -/
theorem command_apply_cases {c : Command} {s t : State} (h : c.apply s = .ok t) :
    step s = .next t ∨ runProgram s = .next t ∨
    (c = .resumeHost ∧ s.status = .host ∧ t = { s with status := .ok, exitParam := none }) ∨
    (∃ x, t = { s with x := x }) ∨ (∃ g : Nat, g ≤ s.params.gasMax ∧ t = { s with gas := g }) ∨
    (∃ a bs m, s.mem.writeBytes a bs = .ok m ∧ t = { s with mem := m }) ∨ t = s := by
  cases c with
  | nextStep =>
    simp only [Command.apply] at h
    cases hst : nextStep s <;> rw [hst] at h <;> simp only [stepReply] at h <;> cases h
    · exact .inl hst
    · exact absurd hst (step_ne_fault _ _)
  | runProgram =>
    simp only [Command.apply] at h
    cases hst : runProgram s <;> rw [hst] at h <;> simp only [stepReply] at h <;> cases h
    · exact .inr (.inl rfl)
    · exact absurd hst (runSteps_ne_fault _ _ _)
  | resumeHost =>
    simp only [Command.apply, resumeHost] at h
    split at h
    · cases h
    · split at h
      · cases h
      · cases h
        exact .inr (.inr (.inl ⟨rfl, by simp_all, rfl⟩))
  | set i v =>
    obtain ⟨-, h⟩ := whenLoaded_eq_ok h
    split at h <;> cases h
    exact .inr (.inr (.inr (.inl ⟨_, rfl⟩)))
  | copyFrom o =>
    obtain ⟨-, h⟩ := whenLoaded_eq_ok h
    cases h
    exact .inr (.inr (.inr (.inl ⟨_, rfl⟩)))
  | writeRegBuffer o bs =>
    obtain ⟨-, h⟩ := whenLoaded_eq_ok h
    split at h <;> cases h
    exact .inr (.inr (.inr (.inl ⟨_, rfl⟩)))
  | setGas g =>
    obtain ⟨-, h⟩ := whenLoaded_eq_ok h
    split at h <;> cases h
    exact .inr (.inr (.inr (.inr (.inl ⟨_, by omega, rfl⟩))))
  | storeFrom a bs =>
    simp only [Command.apply] at h
    split at h
    · rename_i t' ht
      cases h
      obtain ⟨-, ht⟩ := whenLoaded_eq_ok ht
      split at ht
      · injection ht with ht
        split at ht
        · cases ht
        · cases ht
          exact .inr (.inr (.inr (.inr (.inr (.inl ⟨_, _, _, by assumption, rfl⟩)))))
      · cases ht
    · cases h
      exact .inr (.inr (.inr (.inr (.inr (.inr rfl)))))
    · cases h

end Sys2Proof.Machine
end

