-- ==== Sys2Proof/Laws/Length.lean ====
section
/-! SUPPORT. What the distance to the next instruction start is (spec/30_encoding.md R121, R125). -/

namespace Sys2Proof

/-- The distance counts unset bits, and stops at a set bit or at its bound. -/
theorem toNextStart_spec (mask : List Bool) (n i : Nat) :
    toNextStart mask i n ≤ n ∧ (∀ j, j < toNextStart mask i n → maskStar mask (i + j) = false) ∧
    (toNextStart mask i n < n → maskStar mask (i + toNextStart mask i n) = true) := by
  induction n generalizing i with
  | zero => simp [toNextStart]
  | succ n ih =>
    obtain ⟨h1, h2, h3⟩ := ih (i + 1)
    unfold toNextStart
    by_cases h : maskStar mask i = true
    · simp [h]
    · simp only [h]
      refine ⟨by simpa using h1, ?_, ?_⟩
      · intro j hj
        cases j with
        | zero => simpa using h
        | succ j =>
          have := h2 j (by simpa using hj)
          rw [show i + (j + 1) = i + 1 + j by omega]
          exact this
      · intro hlt
        have := h3 (by simpa using hlt)
        simp only [Bool.false_eq_true, if_false]
        rw [show i + (toNextStart mask (i + 1) n + 1) = i + 1 + toNextStart mask (i + 1) n by omega]
        exact this

end Sys2Proof
end

