-- ==== Sys2Proof/Laws/Shapes.lean ====
section
/-! SUPPORT. From a shared operation to the shapes in which results are stated (Sys2Proof/Safety.lean): what a
register write, a load, a store, a branch and an exception amount to, said once for all instructions. -/

namespace Sys2Proof.Machine

theorem Memory.same_refl (m : Memory) : m.Same m := ⟨fun _ => rfl, fun _ => rfl, rfl, rfl, rfl, rfl⟩

/-- A commit with next pc `npc` goes there and changes nothing else. -/
theorem State.wentTo_commit (s : State) (npc : BitVec 32) : s.WentTo npc (s.commit npc) :=
  ⟨⟨⟨rfl, rfl, rfl, rfl, rfl⟩, rfl, rfl, rfl, rfl⟩, fun _ => rfl, Memory.same_refl _⟩

/-- A register write and a commit. -/
theorem State.wroteAndWentTo_commit (s : State) (rd : Reg) (v : Word) (npc : BitVec 32) :
    s.WroteAndWentTo rd v npc ((s.setReg rd v).commit npc) :=
  ⟨⟨⟨rfl, rfl, rfl, rfl, rfl⟩, rfl, rfl, rfl, rfl⟩, by simp, fun _ hr => by simp [State.reg_setReg_ne _ _ hr],
    Memory.same_refl _⟩

/-- PANIC changes the status and the exit parameter only. -/
theorem State.ended_panic (s : State) : s.Ended .panic none s.faultIsWrite s.pc (takeException .panic s) :=
  ⟨⟨rfl, rfl, rfl, rfl, rfl⟩, rfl, rfl, rfl, rfl, fun _ => rfl, Memory.same_refl _⟩

/-- HALT changes the status and the exit parameter only. -/
theorem State.ended_halt (s : State) : s.Ended .halt none s.faultIsWrite s.pc (takeException .halt s) :=
  ⟨⟨rfl, rfl, rfl, rfl, rfl⟩, rfl, rfl, rfl, rfl, fun _ => rfl, Memory.same_refl _⟩

/-- FAULT changes the status and the exit record only. -/
theorem State.ended_fault (s : State) (a : Addr) (w : Bool) :
    s.Ended .fault (some a) w s.pc (takeException (.fault a w) s) :=
  ⟨⟨rfl, rfl, rfl, rfl, rfl⟩, rfl, rfl, rfl, rfl, fun _ => rfl, Memory.same_refl _⟩

/-- HOST changes the status and the exit parameter, and moves the pc past the instruction. -/
theorem State.ended_host (s : State) (i : BitVec 32) :
    s.Ended .host (some i) s.faultIsWrite s.after (takeException (.host i) s) :=
  ⟨⟨rfl, rfl, rfl, rfl, rfl⟩, rfl, rfl, rfl, rfl, fun _ => rfl, Memory.same_refl _⟩

/-- An instruction that writes a result and goes on computes that result. -/
theorem computes_of_writeResult {i : Instr} {rd : Reg} {v w : Word} {s : State}
    (h : exec i s = writeResult rd v s) (hv : v = w) : Computes i rd w s := by
  subst hv
  refine ⟨_, h, ⟨⟨⟨rfl, rfl, rfl, rfl, rfl⟩, rfl, rfl, rfl, rfl⟩, by simp, ?_, Memory.same_refl _⟩⟩
  intro r hr
  simp [State.reg_setReg_ne _ _ hr]

/-- An instruction that only goes on leaves every register at its value. -/
theorem computes_of_advance {i : Instr} {rd : Reg} {w : Word} {s : State}
    (h : exec i s = .next s.advance) (hw : s.reg rd = w) : Computes i rd w s :=
  ⟨_, h, ⟨⟨⟨rfl, rfl, rfl, rfl, rfl⟩, rfl, rfl, rfl, rfl⟩, hw, fun _ _ => rfl, Memory.same_refl _⟩⟩

/-- The value of a byte list as a sum (spec/00_scope.md R10). -/
theorem leNat_eq_sum (bs : List Byte) :
    leNat bs = ∑ i ∈ Finset.range bs.length, (bs.getD i 0).toNat * 2 ^ (8 * i) := by
  induction bs with
  | nil => rfl
  | cons b bs ih =>
    rw [leNat, ih, List.length_cons, Finset.sum_range_succ', Finset.mul_sum]
    simp only [List.getD_cons_zero, List.getD_cons_succ, Nat.mul_zero, pow_zero, Nat.mul_one]
    rw [Nat.add_comm]
    congr 1
    apply Finset.sum_congr rfl
    intro i _
    rw [show 8 * (i + 1) = 8 * i + 8 by ring, pow_add]
    ring

/-- The value that a read returns is the value of its bytes. -/
theorem leNat_accessAddrs (m : Memory) (addr : Addr) (n : Nat) :
    leNat ((accessAddrs addr n).map m.byte) = m.valueAt addr n := by
  rw [leNat_eq_sum, Memory.valueAt]
  simp only [List.length_map, accessAddrs_length]
  apply Finset.sum_congr rfl
  intro i hi
  have hi := Finset.mem_range.mp hi
  rw [List.getD_eq_getElem?_getD]
  simp [accessAddrs, hi]

/-- The address of byte `k` of an access, as a 32-bit value. -/
theorem ofNat_accessAddr (addr : Addr) (k : Nat) :
    BitVec.ofNat 32 (accessAddr addr k) = addr + BitVec.ofNat 32 k := by
  apply BitVec.eq_of_toNat_eq
  simp [accessAddr, Config.addrSpace]

/-- What a load amounts to. -/
theorem loads_of_loadInto {i : Instr} {n : Nat} {addr : Addr} {ext : Nat → Word} {rd : Reg} {s : State}
    (h : exec i s = loadInto n ext rd addr s) : Loads i n addr ext rd s := by
  intro hr
  apply computes_of_writeResult (v := ext (s.mem.valueAt addr n)) _ rfl
  rw [h, loadInto_ok hr, leNat_accessAddrs]
  rfl

/-- What a store amounts to. -/
theorem stores_of_storeAt {i : Instr} {n : Nat} {addr : Addr} {v : Word} {s : State} (hn : n ≤ 8)
    (h : exec i s = storeAt n addr v s) : Stores i n addr v s := by
  intro hwf hr
  obtain ⟨m, hm, he⟩ := storeAt_ok (v := v) hr
  obtain ⟨h1, h2, h3, h4, h5, h6⟩ := Memory.writeBytes_outside hm
  refine ⟨_, h.trans he, ⟨⟨⟨rfl, rfl, rfl, rfl, rfl⟩, rfl, rfl, rfl, rfl⟩, fun _ => rfl, ?_, ?_⟩⟩
  · intro i hi
    have hc : s.mem.cellsWf = true := by
      simp only [Memory.wf, Bool.and_eq_true] at hwf
      exact hwf.2
    have := Memory.writeBytes_stored hm hc (by simp [Config.addrSpace]; omega) (i := i) (by simpa using hi)
    show (m.byte _).toNat = _
    rw [this, leBytes_getElem]
    simp
  · exact ⟨h1, fun a ha => h2 a (by simpa using ha), h3, h4, h5, h6⟩

/-- What a branch amounts to. -/
theorem branches_of_branch {i : Instr} {c : Prop} {b : Bool} {off : Int} {s : State}
    (h : exec i s = .next (branch (s.target off) b s)) (hc : b = true ↔ c) : Branches i c off s := by
  refine ⟨?_, ?_, ?_⟩
  · intro h1 h2
    rw [hc.mpr h1, branch_true] at h
    simp only [State.target, h2, if_true] at h
    exact ⟨_, h, s.wentTo_commit _⟩
  · intro h1 h2
    rw [hc.mpr h1, branch_true] at h
    simp only [State.target, h2] at h
    exact ⟨_, h, s.ended_panic⟩
  · intro h1
    have hb : b = false := by
      cases b
      · rfl
      · exact absurd (hc.mp rfl) h1
    rw [hb, branch_false] at h
    exact ⟨_, h, s.wentTo_commit _⟩

end Sys2Proof.Machine
end

