-- ==== Sys2Proof/Machine/Asm.lean ====
section
/-! DEFINITION. The assembler syntax as a printer (spec/30_encoding.md R149), and the conventional register names
(spec/10_state.md R33). No step depends on either. -/

namespace Sys2Proof.Machine

/-- The names of the JAM calling convention (R33). No instruction gives them a meaning. -/
def conventionalNames : List String :=
  ["ra", "sp", "t0", "t1", "t2", "s0", "s1", "a0", "a1", "a2", "a3", "a4", "a5"]

/-- The digits of a number, least significant first, over at most `fuel` digits. -/
def digitsIn (base : Nat) : Nat → Nat → List Nat
  | 0, _ => []
  | fuel + 1, v => v % base :: if v < base then [] else digitsIn base fuel (v / base)

/-- A hexadecimal digit. -/
def hexDigit (d : Nat) : Char := "0123456789ABCDEF".toList.getD d '0'

/-- A number in decimal or hexadecimal. -/
def numeral (base v : Nat) : String := String.ofList ((digitsIn base 64 v).reverse.map hexDigit)

/-- An immediate, as the 64-bit value in hexadecimal; below 10 its one digit stands alone, as in the spec's
listings. -/
def immText (v : Word) : String :=
  if v.toNat < 10 then numeral 10 v.toNat else "0x" ++ numeral 16 v.toNat

/-- A register. -/
def regText (r : Reg) : String := "r" ++ numeral 10 r.val

/-- A branch target: `@n`, the code offset. A target below 0 is `@-n`, with `n` its distance below 0: R149 does not
say how to write one (DESIGN CHOICE, notes/assumptions/20.md). -/
def targetText (t : Int) : String :=
  if t < 0 then "@-" ++ numeral 10 t.natAbs else "@" ++ numeral 10 t.natAbs

/-- The operands in the order of the shape, for an instruction at offset `pc`. -/
def operandTexts (sh : Shape) (pc : Nat) (a : Args) : List String :=
  let t := targetText ((pc : Int) + a.off)
  match sh with
  | .noArguments => []
  | .oneImmediate => [immText a.immX]
  | .oneRegisterOneExtendedImmediate | .oneRegisterOneImmediate => [regText a.rA, immText a.immX]
  | .twoImmediates => [immText a.immX, immText a.immY]
  | .oneOffset => [t]
  | .oneRegisterTwoImmediates => [regText a.rA, immText a.immX, immText a.immY]
  | .oneRegisterOneImmediateOneOffset => [regText a.rA, immText a.immX, t]
  | .twoRegisters => [regText a.rA, regText a.rD]
  | .twoRegistersOneImmediate => [regText a.rA, regText a.rB, immText a.immX]
  | .twoRegistersOneOffset => [regText a.rA, regText a.rB, t]
  | .twoRegistersTwoImmediates => [regText a.rA, regText a.rB, immText a.immX, immText a.immY]
  | .threeRegisters => [regText a.rA, regText a.rB, regText a.rD]

/-- A listing line: the mnemonic and the operands, as R144 has them, whatever the core's opcode table (DESIGN CHOICE,
notes/assumptions/20.md). -/
def listing (pc : Nat) (i : Instr) : String :=
  let ops := operandTexts i.shape pc i.args
  if ops.isEmpty then mnemonicOf .default i.opcode else mnemonicOf .default i.opcode ++ " " ++ ", ".intercalate ops

end Sys2Proof.Machine
end

