-- ==== Sys2Proof/Tests/Slice0.lean ====
section
/-! SUPPORT. The model's own tests: the well-formedness checks, the decoder on the spec's example encodings, one step
for each instruction's example, and a witness for every statement with hypotheses. Expected values are the spec's. -/

namespace Sys2Proof.Tests

open Sys2Proof.Machine

/-! ## Helpers -/

/-- The instructions that complete encodings decode to. -/
def decodings (l : List (List Byte)) : List (Option Instr) :=
  l.map fun bs => (decodeBytes .default bs (bs.length - 1)).toOption

/-- The registers of a list; every other one is 0. -/
def regsOf (l : List (Nat × Word)) : Vector Word 13 := Vector.ofFn fun i => (l.lookup i.val).getD 0

/-- The memory of spec/43_load.md's introduction. -/
def loadMemory : Memory :=
  { Memory.empty with
    pages := [(0x20, .writable), (0x21, .readable)]
    cells := [(0x20000, 0x88), (0x20001, 0x77), (0x20002, 0x66), (0x20003, 0x55), (0x20004, 0x44),
      (0x20005, 0x33), (0x20006, 0x22), (0x20007, 0x11), (0x20FF8, 0xA1), (0x20FF9, 0xB2), (0x20FFA, 0xC3),
      (0x20FFB, 0xD4), (0x20FFC, 0xE5), (0x20FFD, 0xF6), (0x20FFE, 0x07), (0x20FFF, 0x18)] }

/-- The memory of spec/44_store.md's introduction. -/
def storeMemory : Memory := { Memory.empty with pages := [(0x20, .writable), (0x21, .readable)] }

/-- The memory of spec/46_memory_move.md's introduction. -/
def heapMemory : Memory :=
  { Memory.empty with heapStart := 0x30000, heapEnd := 0x40000, heapPtr := 0x30000, heapTop := 0x30000 }

/-- A core at one instruction, followed by two FALLTHROUGHs, with the second of them as the one jump-table entry. -/
def at0 (bytes : List Byte) (regs : List (Nat × Word)) (m : Memory) : State :=
  { State.reset with
    prog := { code := bytes ++ [1, 1]
              mask := true :: (List.replicate (bytes.length - 1) false ++ [true, true])
              jt := [BitVec.ofNat 32 (bytes.length + 1)] }
    gas := 100
    initialGas := 100
    x := regsOf regs
    mem := m }

/-- One step gives a next state that passes a check. -/
def gives (s : State) (p : State → Bool) : Bool :=
  match step s with
  | .next t => p t
  | _ => false

/-- The status, the pc, the exit parameter and all registers of a state, with one unit of gas paid. -/
def ends (t : State) (st : Status) (pc : BitVec 32) (e : Option (BitVec 32)) (regs : List (Nat × Word)) : Bool :=
  t.status == st && t.pc == pc && t.exitParam == e && t.x == regsOf regs && t.gas == 99

/-! ## Decoding -/

/-- The example encodings of the spec, shape NoArguments (spec/30_encoding.md; files 41–48). -/
theorem test_decode_noArguments : decodings [
    [0x00],
    [0x01]] = [
    some .trap,
    some .fallthrough] := by decide

/-- The example encodings of the spec, shape OneImmediate (spec/30_encoding.md; files 41–48). -/
theorem test_decode_oneImmediate : decodings [
    [0x0A, 0x64]] = [
    some (.ecalli 0x64)] := by decide

/-- The example encodings of the spec, shape OneRegisterOneExtendedImmediate (spec/30_encoding.md; files 41–48). -/
theorem test_decode_oneRegisterOneExtendedImmediate : decodings [
    [0x14, 0x02, 0x88, 0x77, 0x66, 0x55, 0x44, 0x33, 0x22, 0x11]] = [
    some (.loadImm64 2 0x1122334455667788)] := by decide

/-- The example encodings of the spec, shape TwoImmediates (spec/30_encoding.md; files 41–48). -/
theorem test_decode_twoImmediates : decodings [
    [0x1E, 0x03, 0x00, 0x00, 0x02, 0xFE],
    [0x1F, 0x03, 0x00, 0x00, 0x02, 0xFE],
    [0x20, 0x03, 0x00, 0x00, 0x02, 0xFE],
    [0x21, 0x03, 0x00, 0x00, 0x02, 0xFE]] = [
    some (.storeImmU8 0x20000 0xFFFFFFFFFFFFFFFE),
    some (.storeImmU16 0x20000 0xFFFFFFFFFFFFFFFE),
    some (.storeImmU32 0x20000 0xFFFFFFFFFFFFFFFE),
    some (.storeImmU64 0x20000 0xFFFFFFFFFFFFFFFE)] := by decide

/-- The example encodings of the spec, shape OneOffset (spec/30_encoding.md; files 41–48). -/
theorem test_decode_oneOffset : decodings [
    [0x28, 0x03]] = [
    some (.jump 3)] := by decide

/-- The example encodings of the spec, shape OneRegisterOneImmediate (spec/30_encoding.md; files 41–48). -/
theorem test_decode_oneRegisterOneImmediate : decodings [
    [0x32, 0x00],
    [0x33, 0x00, 0xFF],
    [0x34, 0x03, 0x00, 0x00, 0x02],
    [0x35, 0x03, 0xF8, 0x0F, 0x02],
    [0x36, 0x03, 0x00, 0x00, 0x02],
    [0x37, 0x03, 0xF8, 0x0F, 0x02],
    [0x38, 0x03, 0x00, 0x00, 0x02],
    [0x39, 0x03, 0xF8, 0x0F, 0x02],
    [0x3A, 0x03, 0x00, 0x00, 0x02],
    [0x3B, 0x01, 0x04, 0x00, 0x02],
    [0x3C, 0x01, 0x04, 0x00, 0x02],
    [0x3D, 0x01, 0x04, 0x00, 0x02],
    [0x3E, 0x01, 0x04, 0x00, 0x02]] = [
    some (.jumpInd 0 0),
    some (.loadImm 0 0xFFFFFFFFFFFFFFFF),
    some (.loadU8 3 0x20000),
    some (.loadI8 3 0x20FF8),
    some (.loadU16 3 0x20000),
    some (.loadI16 3 0x20FF8),
    some (.loadU32 3 0x20000),
    some (.loadI32 3 0x20FF8),
    some (.loadU64 3 0x20000),
    some (.storeU8 1 0x20004),
    some (.storeU16 1 0x20004),
    some (.storeU32 1 0x20004),
    some (.storeU64 1 0x20004)] := by decide

/-- The example encodings of the spec, shape OneRegisterTwoImmediates (spec/30_encoding.md; files 41–48). -/
theorem test_decode_oneRegisterTwoImmediates : decodings [
    [0x46, 0x11, 0x08, 0x7F],
    [0x47, 0x11, 0x08, 0x7F],
    [0x48, 0x11, 0x08, 0x7F],
    [0x49, 0x11, 0x08, 0x7F]] = [
    some (.storeImmIndU8 1 8 0x7F),
    some (.storeImmIndU16 1 8 0x7F),
    some (.storeImmIndU32 1 8 0x7F),
    some (.storeImmIndU64 1 8 0x7F)] := by decide

/-- The example encodings of the spec, shape OneRegisterOneImmediateOneOffset (spec/30_encoding.md; files 41–48). -/
theorem test_decode_oneRegisterOneImmediateOneOffset : decodings [
    [0x50, 0x13, 0xFE, 0x05],
    [0x51, 0x11, 0x05, 0x05],
    [0x52, 0x11, 0x05, 0x05],
    [0x53, 0x11, 0x05, 0x05],
    [0x54, 0x11, 0x05, 0x05],
    [0x55, 0x11, 0x05, 0x05],
    [0x56, 0x11, 0x05, 0x05],
    [0x57, 0x11, 0x05, 0x05],
    [0x58, 0x11, 0x05, 0x05],
    [0x59, 0x11, 0x05, 0x05],
    [0x5A, 0x11, 0x05, 0x05]] = [
    some (.loadImmJump 3 0xFFFFFFFFFFFFFFFE 5),
    some (.branchEqImm 1 5 5),
    some (.branchNeImm 1 5 5),
    some (.branchLtUImm 1 5 5),
    some (.branchLeUImm 1 5 5),
    some (.branchGeUImm 1 5 5),
    some (.branchGtUImm 1 5 5),
    some (.branchLtSImm 1 5 5),
    some (.branchLeSImm 1 5 5),
    some (.branchGeSImm 1 5 5),
    some (.branchGtSImm 1 5 5)] := by decide

/-- The example encodings of the spec, shape TwoRegisters (spec/30_encoding.md; files 41–48). -/
theorem test_decode_twoRegisters : decodings [
    [0x64, 0x12],
    [0x65, 0x12],
    [0x66, 0x12],
    [0x67, 0x12],
    [0x68, 0x12],
    [0x69, 0x12],
    [0x6A, 0x12],
    [0x6B, 0x12],
    [0x6C, 0x12],
    [0x6D, 0x12],
    [0x6E, 0x12],
    [0x6F, 0x12]] = [
    some (.moveReg 1 2),
    some (.sbrk 1 2),
    some (.countSetBits64 1 2),
    some (.countSetBits32 1 2),
    some (.leadingZeroBits64 1 2),
    some (.leadingZeroBits32 1 2),
    some (.trailingZeroBits64 1 2),
    some (.trailingZeroBits32 1 2),
    some (.signExtend8 1 2),
    some (.signExtend16 1 2),
    some (.zeroExtend16 1 2),
    some (.reverseBytes 1 2)] := by decide

/-- The example encodings of the spec, shape TwoRegistersOneImmediate (spec/30_encoding.md; files 41–48). -/
theorem test_decode_twoRegistersOneImmediate1 : decodings [
    [0x78, 0x12, 0x10],
    [0x79, 0x12, 0x10],
    [0x7A, 0x12, 0x10],
    [0x7B, 0x12, 0x10],
    [0x7C, 0x13],
    [0x7D, 0x13],
    [0x7E, 0x13],
    [0x7F, 0x13],
    [0x80, 0x13],
    [0x81, 0x13],
    [0x82, 0x13],
    [0x83, 0x21, 0x01],
    [0x84, 0x21, 0xF0, 0x00],
    [0x85, 0x21, 0xFF],
    [0x86, 0x21, 0x00, 0x01],
    [0x87, 0x21, 0x03],
    [0x88, 0x21, 0xFF],
    [0x89, 0x21],
    [0x8A, 0x21, 0x04],
    [0x8B, 0x21, 0x04],
    [0x8C, 0x21, 0x04]] = [
    some (.storeIndU8 2 1 0x10),
    some (.storeIndU16 2 1 0x10),
    some (.storeIndU32 2 1 0x10),
    some (.storeIndU64 2 1 0x10),
    some (.loadIndU8 3 1 0),
    some (.loadIndI8 3 1 0),
    some (.loadIndU16 3 1 0),
    some (.loadIndI16 3 1 0),
    some (.loadIndU32 3 1 0),
    some (.loadIndI32 3 1 0),
    some (.loadIndU64 3 1 0),
    some (.addImm32 1 2 1),
    some (.andImm 1 2 0xF0),
    some (.xorImm 1 2 0xFFFFFFFFFFFFFFFF),
    some (.orImm 1 2 0x100),
    some (.mulImm32 1 2 3),
    some (.setLtUImm 1 2 0xFFFFFFFFFFFFFFFF),
    some (.setLtSImm 1 2 0),
    some (.shloLImm32 1 2 4),
    some (.shloRImm32 1 2 4),
    some (.sharRImm32 1 2 4)] := by decide

/-- The example encodings of the spec, shape TwoRegistersOneImmediate (spec/30_encoding.md; files 41–48). -/
theorem test_decode_twoRegistersOneImmediate2 : decodings [
    [0x8D, 0x21],
    [0x8E, 0x21, 0x05],
    [0x8F, 0x21, 0xFF],
    [0x90, 0x21, 0x01],
    [0x91, 0x21, 0xFF],
    [0x92, 0x21, 0xF0],
    [0x93, 0x21, 0x09],
    [0x94, 0x21, 0x09],
    [0x95, 0x21, 0xFF],
    [0x96, 0x21, 0xFF],
    [0x97, 0x21, 0x08],
    [0x98, 0x21, 0x08],
    [0x99, 0x21, 0x04],
    [0x9A, 0x21],
    [0x9B, 0x21, 0x01],
    [0x9C, 0x21, 0xFF],
    [0x9D, 0x21, 0xF0],
    [0x9E, 0x21, 0x04],
    [0x9F, 0x21, 0x01],
    [0xA0, 0x21, 0x01],
    [0xA1, 0x21, 0x01]] = [
    some (.negAddImm32 1 2 0),
    some (.setGtUImm 1 2 5),
    some (.setGtSImm 1 2 0xFFFFFFFFFFFFFFFF),
    some (.shloLImmAlt32 1 2 1),
    some (.shloRImmAlt32 1 2 0xFFFFFFFFFFFFFFFF),
    some (.sharRImmAlt32 1 2 0xFFFFFFFFFFFFFFF0),
    some (.cmovIzImm 1 2 9),
    some (.cmovNzImm 1 2 9),
    some (.addImm64 1 2 0xFFFFFFFFFFFFFFFF),
    some (.mulImm64 1 2 0xFFFFFFFFFFFFFFFF),
    some (.shloLImm64 1 2 8),
    some (.shloRImm64 1 2 8),
    some (.sharRImm64 1 2 4),
    some (.negAddImm64 1 2 0),
    some (.shloLImmAlt64 1 2 1),
    some (.shloRImmAlt64 1 2 0xFFFFFFFFFFFFFFFF),
    some (.sharRImmAlt64 1 2 0xFFFFFFFFFFFFFFF0),
    some (.rotR64Imm 1 2 4),
    some (.rotR64ImmAlt 1 2 1),
    some (.rotR32Imm 1 2 1),
    some (.rotR32ImmAlt 1 2 1)] := by decide

/-- The example encodings of the spec, shape TwoRegistersOneOffset (spec/30_encoding.md; files 41–48). -/
theorem test_decode_twoRegistersOneOffset : decodings [
    [0xAA, 0x21, 0x04],
    [0xAB, 0x21, 0x04],
    [0xAC, 0x21, 0x04],
    [0xAD, 0x21, 0x04],
    [0xAE, 0x21, 0x04],
    [0xAF, 0x21, 0x04]] = [
    some (.branchEq 1 2 4),
    some (.branchNe 1 2 4),
    some (.branchLtU 1 2 4),
    some (.branchLtS 1 2 4),
    some (.branchGeU 1 2 4),
    some (.branchGeS 1 2 4)] := by decide

/-- The example encodings of the spec, shape TwoRegistersTwoImmediates (spec/30_encoding.md; files 41–48). -/
theorem test_decode_twoRegistersTwoImmediates : decodings [
    [0xB4, 0x11, 0x01, 0x09]] = [
    some (.loadImmJumpInd 1 1 9 0)] := by decide

/-- The example encodings of the spec, shape ThreeRegisters (spec/30_encoding.md; files 41–48). -/
theorem test_decode_threeRegisters1 : decodings [
    [0xBE, 0x21, 0x03],
    [0xBF, 0x21, 0x03],
    [0xC0, 0x21, 0x03],
    [0xC1, 0x21, 0x03],
    [0xC2, 0x21, 0x03],
    [0xC3, 0x21, 0x03],
    [0xC4, 0x21, 0x03],
    [0xC5, 0x21, 0x03],
    [0xC6, 0x21, 0x03],
    [0xC7, 0x21, 0x03],
    [0xC8, 0x21, 0x03],
    [0xC9, 0x21, 0x03],
    [0xCA, 0x21, 0x03],
    [0xCB, 0x21, 0x03],
    [0xCC, 0x21, 0x03],
    [0xCD, 0x21, 0x03],
    [0xCE, 0x21, 0x03],
    [0xCF, 0x21, 0x03],
    [0xD0, 0x21, 0x03],
    [0xD1, 0x21, 0x03],
    [0xD2, 0x21, 0x03]] = [
    some (.add32 1 2 3),
    some (.sub32 1 2 3),
    some (.mul32 1 2 3),
    some (.divU32 1 2 3),
    some (.divS32 1 2 3),
    some (.remU32 1 2 3),
    some (.remS32 1 2 3),
    some (.shloL32 1 2 3),
    some (.shloR32 1 2 3),
    some (.sharR32 1 2 3),
    some (.add64 1 2 3),
    some (.sub64 1 2 3),
    some (.mul64 1 2 3),
    some (.divU64 1 2 3),
    some (.divS64 1 2 3),
    some (.remU64 1 2 3),
    some (.remS64 1 2 3),
    some (.shloL64 1 2 3),
    some (.shloR64 1 2 3),
    some (.sharR64 1 2 3),
    some (.andReg 1 2 3)] := by decide

/-- The example encodings of the spec, shape ThreeRegisters (spec/30_encoding.md; files 41–48). -/
theorem test_decode_threeRegisters2 : decodings [
    [0xD3, 0x21, 0x03],
    [0xD4, 0x21, 0x03],
    [0xD5, 0x21, 0x03],
    [0xD6, 0x21, 0x03],
    [0xD7, 0x21, 0x03],
    [0xD8, 0x21, 0x03],
    [0xD9, 0x21, 0x03],
    [0xDA, 0x21, 0x03],
    [0xDB, 0x21, 0x03],
    [0xDC, 0x21, 0x03],
    [0xDD, 0x21, 0x03],
    [0xDE, 0x21, 0x03],
    [0xDF, 0x21, 0x03],
    [0xE0, 0x21, 0x03],
    [0xE1, 0x21, 0x03],
    [0xE2, 0x21, 0x03],
    [0xE3, 0x21, 0x03],
    [0xE4, 0x21, 0x03],
    [0xE5, 0x21, 0x03],
    [0xE6, 0x21, 0x03]] = [
    some (.xorReg 1 2 3),
    some (.orReg 1 2 3),
    some (.mulUpperSS 1 2 3),
    some (.mulUpperUU 1 2 3),
    some (.mulUpperSU 1 2 3),
    some (.setLtU 1 2 3),
    some (.setLtS 1 2 3),
    some (.cmovIz 1 2 3),
    some (.cmovNz 1 2 3),
    some (.rotL64 1 2 3),
    some (.rotL32 1 2 3),
    some (.rotR64 1 2 3),
    some (.rotR32 1 2 3),
    some (.andInv 1 2 3),
    some (.orInv 1 2 3),
    some (.xnor 1 2 3),
    some (.maxS 1 2 3),
    some (.maxU 1 2 3),
    some (.minS 1 2 3),
    some (.minU 1 2 3)] := by decide

/-! ## One step of each instruction -/

/-- R200: `TRAP` (spec/41_noargs_hostcall.md). -/
theorem test_step_trap : gives (at0 [0x00] [] Memory.empty)
    (fun t => ends t .panic 0 (none) []) = true := by decide

/-- R201: `FALLTHROUGH` (spec/41_noargs_hostcall.md). -/
theorem test_step_fallthrough : gives (at0 [0x01] [] Memory.empty)
    (fun t => ends t .ok 1 (none) []) = true := by decide

/-- R202: `ECALLI 0x64` (spec/41_noargs_hostcall.md). -/
theorem test_step_ecalli : gives (at0 [0x0A, 0x64] [] Memory.empty)
    (fun t => ends t .host 2 (some 0x64) []) = true := by decide

/-- R240: `LOAD_IMM_64 r2, 0x1122334455667788` (spec/43_load.md). -/
theorem test_step_loadImm64 : gives (at0 [0x14, 0x02, 0x88, 0x77, 0x66, 0x55, 0x44, 0x33, 0x22, 0x11] [] loadMemory)
    (fun t => ends t .ok 10 (none) [(2, 0x1122334455667788)]) = true := by decide

/-- R260: `STORE_IMM_U8 0x20000, -2` (spec/44_store.md). -/
theorem test_step_storeImmU8 : gives (at0 [0x1E, 0x03, 0x00, 0x00, 0x02, 0xFE] [] storeMemory)
    (fun t => ends t .ok 6 (none) [] && t.mem.cells == [(0x20000, 0xFE)]) = true := by decide

/-- R261: `STORE_IMM_U16 0x20000, -2` (spec/44_store.md). -/
theorem test_step_storeImmU16 : gives (at0 [0x1F, 0x03, 0x00, 0x00, 0x02, 0xFE] [] storeMemory)
    (fun t => ends t .ok 6 (none) [] && t.mem.cells == [(0x20000, 0xFE), (0x20001, 0xFF)]) = true := by decide

/-- R262: `STORE_IMM_U32 0x20000, -2` (spec/44_store.md). -/
theorem test_step_storeImmU32 : gives (at0 [0x20, 0x03, 0x00, 0x00, 0x02, 0xFE] [] storeMemory)
    (fun t => ends t .ok 6 (none) [] && t.mem.cells == [(0x20000, 0xFE), (0x20001, 0xFF), (0x20002, 0xFF), (0x20003, 0xFF)]) = true := by decide

/-- R263: `STORE_IMM_U64 0x20000, -2` (spec/44_store.md). -/
theorem test_step_storeImmU64 : gives (at0 [0x21, 0x03, 0x00, 0x00, 0x02, 0xFE] [] storeMemory)
    (fun t => ends t .ok 6 (none) [] && t.mem.cells == [(0x20000, 0xFE), (0x20001, 0xFF), (0x20002, 0xFF), (0x20003, 0xFF), (0x20004, 0xFF), (0x20005, 0xFF), (0x20006, 0xFF), (0x20007, 0xFF)]) = true := by decide

/-- R210: `JUMP @3` (spec/42_branch.md). -/
theorem test_step_jump : gives (at0 [0x28, 0x03] [] Memory.empty)
    (fun t => ends t .ok 3 (none) []) = true := by decide

/-- R211: `JUMP_IND r0, 0` (spec/42_branch.md). -/
theorem test_step_jumpInd : gives (at0 [0x32, 0x00] [(0, 0xFFFF0000)] Memory.empty)
    (fun t => ends t .halt 0 (none) [(0, 0xFFFF0000)]) = true := by decide

/-- R241: `LOAD_IMM r0, -1` (spec/43_load.md). -/
theorem test_step_loadImm : gives (at0 [0x33, 0x00, 0xFF] [] loadMemory)
    (fun t => ends t .ok 3 (none) [(0, 0xFFFFFFFFFFFFFFFF)]) = true := by decide

/-- R242: `LOAD_U8 r3, 0x20000` (spec/43_load.md). -/
theorem test_step_loadU8 : gives (at0 [0x34, 0x03, 0x00, 0x00, 0x02] [] loadMemory)
    (fun t => ends t .ok 5 (none) [(3, 0x88)]) = true := by decide

/-- R243: `LOAD_I8 r3, 0x20FF8` (spec/43_load.md). -/
theorem test_step_loadI8 : gives (at0 [0x35, 0x03, 0xF8, 0x0F, 0x02] [] loadMemory)
    (fun t => ends t .ok 5 (none) [(3, 0xFFFFFFFFFFFFFFA1)]) = true := by decide

/-- R244: `LOAD_U16 r3, 0x20000` (spec/43_load.md). -/
theorem test_step_loadU16 : gives (at0 [0x36, 0x03, 0x00, 0x00, 0x02] [] loadMemory)
    (fun t => ends t .ok 5 (none) [(3, 0x7788)]) = true := by decide

/-- R245: `LOAD_I16 r3, 0x20FF8` (spec/43_load.md). -/
theorem test_step_loadI16 : gives (at0 [0x37, 0x03, 0xF8, 0x0F, 0x02] [] loadMemory)
    (fun t => ends t .ok 5 (none) [(3, 0xFFFFFFFFFFFFB2A1)]) = true := by decide

/-- R246: `LOAD_U32 r3, 0x20000` (spec/43_load.md). -/
theorem test_step_loadU32 : gives (at0 [0x38, 0x03, 0x00, 0x00, 0x02] [] loadMemory)
    (fun t => ends t .ok 5 (none) [(3, 0x55667788)]) = true := by decide

/-- R247: `LOAD_I32 r3, 0x20FF8` (spec/43_load.md). -/
theorem test_step_loadI32 : gives (at0 [0x39, 0x03, 0xF8, 0x0F, 0x02] [] loadMemory)
    (fun t => ends t .ok 5 (none) [(3, 0xFFFFFFFFD4C3B2A1)]) = true := by decide

/-- R248: `LOAD_U64 r3, 0x20000` (spec/43_load.md). -/
theorem test_step_loadU64 : gives (at0 [0x3A, 0x03, 0x00, 0x00, 0x02] [] loadMemory)
    (fun t => ends t .ok 5 (none) [(3, 0x1122334455667788)]) = true := by decide

/-- R264: `STORE_U8 r1, 0x20004` (spec/44_store.md). -/
theorem test_step_storeU8 : gives (at0 [0x3B, 0x01, 0x04, 0x00, 0x02] [(1, 0x1122334455667788)] storeMemory)
    (fun t => ends t .ok 5 (none) [(1, 0x1122334455667788)] && t.mem.cells == [(0x20004, 0x88)]) = true := by decide

/-- R265: `STORE_U16 r1, 0x20004` (spec/44_store.md). -/
theorem test_step_storeU16 : gives (at0 [0x3C, 0x01, 0x04, 0x00, 0x02] [(1, 0x1122334455667788)] storeMemory)
    (fun t => ends t .ok 5 (none) [(1, 0x1122334455667788)] && t.mem.cells == [(0x20004, 0x88), (0x20005, 0x77)]) = true := by decide

/-- R266: `STORE_U32 r1, 0x20004` (spec/44_store.md). -/
theorem test_step_storeU32 : gives (at0 [0x3D, 0x01, 0x04, 0x00, 0x02] [(1, 0x1122334455667788)] storeMemory)
    (fun t => ends t .ok 5 (none) [(1, 0x1122334455667788)] && t.mem.cells == [(0x20004, 0x88), (0x20005, 0x77), (0x20006, 0x66), (0x20007, 0x55)]) = true := by decide

/-- R267: `STORE_U64 r1, 0x20004` (spec/44_store.md). -/
theorem test_step_storeU64 : gives (at0 [0x3E, 0x01, 0x04, 0x00, 0x02] [(1, 0x1122334455667788)] storeMemory)
    (fun t => ends t .ok 5 (none) [(1, 0x1122334455667788)] && t.mem.cells == [(0x20004, 0x88), (0x20005, 0x77), (0x20006, 0x66), (0x20007, 0x55), (0x20008, 0x44), (0x20009, 0x33), (0x2000A, 0x22), (0x2000B, 0x11)]) = true := by decide

/-- R268: `STORE_IMM_IND_U8 r1, 8, 0x7F` (spec/44_store.md). -/
theorem test_step_storeImmIndU8 : gives (at0 [0x46, 0x11, 0x08, 0x7F] [(1, 0x20000)] storeMemory)
    (fun t => ends t .ok 4 (none) [(1, 0x20000)] && t.mem.cells == [(0x20008, 0x7F)]) = true := by decide

/-- R269: `STORE_IMM_IND_U16 r1, 8, 0x7F` (spec/44_store.md). -/
theorem test_step_storeImmIndU16 : gives (at0 [0x47, 0x11, 0x08, 0x7F] [(1, 0x20000)] storeMemory)
    (fun t => ends t .ok 4 (none) [(1, 0x20000)] && t.mem.cells == [(0x20008, 0x7F)]) = true := by decide

/-- R270: `STORE_IMM_IND_U32 r1, 8, 0x7F` (spec/44_store.md). -/
theorem test_step_storeImmIndU32 : gives (at0 [0x48, 0x11, 0x08, 0x7F] [(1, 0x20000)] storeMemory)
    (fun t => ends t .ok 4 (none) [(1, 0x20000)] && t.mem.cells == [(0x20008, 0x7F)]) = true := by decide

/-- R271: `STORE_IMM_IND_U64 r1, 8, 0x7F` (spec/44_store.md). -/
theorem test_step_storeImmIndU64 : gives (at0 [0x49, 0x11, 0x08, 0x7F] [(1, 0x20000)] storeMemory)
    (fun t => ends t .ok 4 (none) [(1, 0x20000)] && t.mem.cells == [(0x20008, 0x7F)]) = true := by decide

/-- R212: `LOAD_IMM_JUMP r3, -2, @5` (spec/42_branch.md). -/
theorem test_step_loadImmJump : gives (at0 [0x50, 0x13, 0xFE, 0x05] [] Memory.empty)
    (fun t => ends t .ok 5 (none) [(3, 0xFFFFFFFFFFFFFFFE)]) = true := by decide

/-- R213: `BRANCH_EQ_IMM r1, 5, @5` (spec/42_branch.md). -/
theorem test_step_branchEqImm : gives (at0 [0x51, 0x11, 0x05, 0x05] [(1, 5)] Memory.empty)
    (fun t => ends t .ok 5 (none) [(1, 5)]) = true := by decide

/-- R214: `BRANCH_NE_IMM r1, 5, @5` (spec/42_branch.md). -/
theorem test_step_branchNeImm : gives (at0 [0x52, 0x11, 0x05, 0x05] [(1, 5)] Memory.empty)
    (fun t => ends t .ok 4 (none) [(1, 5)]) = true := by decide

/-- R215: `BRANCH_LT_U_IMM r1, 5, @5` (spec/42_branch.md). -/
theorem test_step_branchLtUImm : gives (at0 [0x53, 0x11, 0x05, 0x05] [(1, 5)] Memory.empty)
    (fun t => ends t .ok 4 (none) [(1, 5)]) = true := by decide

/-- R216: `BRANCH_LE_U_IMM r1, 5, @5` (spec/42_branch.md). -/
theorem test_step_branchLeUImm : gives (at0 [0x54, 0x11, 0x05, 0x05] [(1, 5)] Memory.empty)
    (fun t => ends t .ok 5 (none) [(1, 5)]) = true := by decide

/-- R217: `BRANCH_GE_U_IMM r1, 5, @5` (spec/42_branch.md). -/
theorem test_step_branchGeUImm : gives (at0 [0x55, 0x11, 0x05, 0x05] [(1, 5)] Memory.empty)
    (fun t => ends t .ok 5 (none) [(1, 5)]) = true := by decide

/-- R218: `BRANCH_GT_U_IMM r1, 5, @5` (spec/42_branch.md). -/
theorem test_step_branchGtUImm : gives (at0 [0x56, 0x11, 0x05, 0x05] [(1, 5)] Memory.empty)
    (fun t => ends t .ok 4 (none) [(1, 5)]) = true := by decide

/-- R219: `BRANCH_LT_S_IMM r1, 5, @5` (spec/42_branch.md). -/
theorem test_step_branchLtSImm : gives (at0 [0x57, 0x11, 0x05, 0x05] [(1, 5)] Memory.empty)
    (fun t => ends t .ok 4 (none) [(1, 5)]) = true := by decide

/-- R220: `BRANCH_LE_S_IMM r1, 5, @5` (spec/42_branch.md). -/
theorem test_step_branchLeSImm : gives (at0 [0x58, 0x11, 0x05, 0x05] [(1, 5)] Memory.empty)
    (fun t => ends t .ok 5 (none) [(1, 5)]) = true := by decide

/-- R221: `BRANCH_GE_S_IMM r1, 5, @5` (spec/42_branch.md). -/
theorem test_step_branchGeSImm : gives (at0 [0x59, 0x11, 0x05, 0x05] [(1, 5)] Memory.empty)
    (fun t => ends t .ok 5 (none) [(1, 5)]) = true := by decide

/-- R222: `BRANCH_GT_S_IMM r1, 5, @5` (spec/42_branch.md). -/
theorem test_step_branchGtSImm : gives (at0 [0x5A, 0x11, 0x05, 0x05] [(1, 5)] Memory.empty)
    (fun t => ends t .ok 4 (none) [(1, 5)]) = true := by decide

/-- R311: `MOVE_REG r1, r2` (spec/46_memory_move.md). -/
theorem test_step_moveReg : gives (at0 [0x64, 0x12] [(1, 0x2A)] Memory.empty)
    (fun t => ends t .ok 2 (none) [(1, 0x2A), (2, 0x2A)]) = true := by decide

/-- R310: `SBRK r1, r2` (spec/46_memory_move.md). -/
theorem test_step_sbrk : gives (at0 [0x65, 0x12] [(1, 0x1000)] heapMemory)
    (fun t => ends t .ok 2 (none) [(1, 0x1000), (2, 0x30000)] && t.mem.heapPtr == 0x31000 && t.mem.pageState 0x30 == .writable) = true := by decide

/-- R281: `COUNT_SET_BITS_64 r1, r2` (spec/45_bit.md). -/
theorem test_step_countSetBits64 : gives (at0 [0x66, 0x12] [(1, 0xF0F0)] Memory.empty)
    (fun t => ends t .ok 2 (none) [(1, 0xF0F0), (2, 8)]) = true := by decide

/-- R282: `COUNT_SET_BITS_32 r1, r2` (spec/45_bit.md). -/
theorem test_step_countSetBits32 : gives (at0 [0x67, 0x12] [(1, 0xFFFFFFFF00000003)] Memory.empty)
    (fun t => ends t .ok 2 (none) [(1, 0xFFFFFFFF00000003), (2, 2)]) = true := by decide

/-- R283: `LEADING_ZERO_BITS_64 r1, r2` (spec/45_bit.md). -/
theorem test_step_leadingZeroBits64 : gives (at0 [0x68, 0x12] [(1, 0x100000000)] Memory.empty)
    (fun t => ends t .ok 2 (none) [(1, 0x100000000), (2, 0x1F)]) = true := by decide

/-- R284: `LEADING_ZERO_BITS_32 r1, r2` (spec/45_bit.md). -/
theorem test_step_leadingZeroBits32 : gives (at0 [0x69, 0x12] [(1, 0x10000)] Memory.empty)
    (fun t => ends t .ok 2 (none) [(1, 0x10000), (2, 0xF)]) = true := by decide

/-- R285: `TRAILING_ZERO_BITS_64 r1, r2` (spec/45_bit.md). -/
theorem test_step_trailingZeroBits64 : gives (at0 [0x6A, 0x12] [(1, 0x100)] Memory.empty)
    (fun t => ends t .ok 2 (none) [(1, 0x100), (2, 8)]) = true := by decide

/-- R286: `TRAILING_ZERO_BITS_32 r1, r2` (spec/45_bit.md). -/
theorem test_step_trailingZeroBits32 : gives (at0 [0x6B, 0x12] [(1, 0x100)] Memory.empty)
    (fun t => ends t .ok 2 (none) [(1, 0x100), (2, 8)]) = true := by decide

/-- R287: `SIGN_EXTEND_8 r1, r2` (spec/45_bit.md). -/
theorem test_step_signExtend8 : gives (at0 [0x6C, 0x12] [(1, 0x12340080)] Memory.empty)
    (fun t => ends t .ok 2 (none) [(1, 0x12340080), (2, 0xFFFFFFFFFFFFFF80)]) = true := by decide

/-- R288: `SIGN_EXTEND_16 r1, r2` (spec/45_bit.md). -/
theorem test_step_signExtend16 : gives (at0 [0x6D, 0x12] [(1, 0x8000)] Memory.empty)
    (fun t => ends t .ok 2 (none) [(1, 0x8000), (2, 0xFFFFFFFFFFFF8000)]) = true := by decide

/-- R289: `ZERO_EXTEND_16 r1, r2` (spec/45_bit.md). -/
theorem test_step_zeroExtend16 : gives (at0 [0x6E, 0x12] [(1, 0xFFFFFFFFFFFF8001)] Memory.empty)
    (fun t => ends t .ok 2 (none) [(1, 0xFFFFFFFFFFFF8001), (2, 0x8001)]) = true := by decide

/-- R290: `REVERSE_BYTES r1, r2` (spec/45_bit.md). -/
theorem test_step_reverseBytes : gives (at0 [0x6F, 0x12] [(1, 0x102030405060708)] Memory.empty)
    (fun t => ends t .ok 2 (none) [(1, 0x102030405060708), (2, 0x807060504030201)]) = true := by decide

/-- R272: `STORE_IND_U8 r2, r1, 0x10` (spec/44_store.md). -/
theorem test_step_storeIndU8 : gives (at0 [0x78, 0x12, 0x10] [(1, 0x20000), (2, 0xCAFEBABEDEADBEEF)] storeMemory)
    (fun t => ends t .ok 3 (none) [(1, 0x20000), (2, 0xCAFEBABEDEADBEEF)] && t.mem.cells == [(0x20010, 0xEF)]) = true := by decide

/-- R273: `STORE_IND_U16 r2, r1, 0x10` (spec/44_store.md). -/
theorem test_step_storeIndU16 : gives (at0 [0x79, 0x12, 0x10] [(1, 0x20000), (2, 0xCAFEBABEDEADBEEF)] storeMemory)
    (fun t => ends t .ok 3 (none) [(1, 0x20000), (2, 0xCAFEBABEDEADBEEF)] && t.mem.cells == [(0x20010, 0xEF), (0x20011, 0xBE)]) = true := by decide

/-- R274: `STORE_IND_U32 r2, r1, 0x10` (spec/44_store.md). -/
theorem test_step_storeIndU32 : gives (at0 [0x7A, 0x12, 0x10] [(1, 0x20000), (2, 0xCAFEBABEDEADBEEF)] storeMemory)
    (fun t => ends t .ok 3 (none) [(1, 0x20000), (2, 0xCAFEBABEDEADBEEF)] && t.mem.cells == [(0x20010, 0xEF), (0x20011, 0xBE), (0x20012, 0xAD), (0x20013, 0xDE)]) = true := by decide

/-- R275: `STORE_IND_U64 r2, r1, 0x10` (spec/44_store.md). -/
theorem test_step_storeIndU64 : gives (at0 [0x7B, 0x12, 0x10] [(1, 0x20000), (2, 0xCAFEBABEDEADBEEF)] storeMemory)
    (fun t => ends t .ok 3 (none) [(1, 0x20000), (2, 0xCAFEBABEDEADBEEF)] && t.mem.cells == [(0x20010, 0xEF), (0x20011, 0xBE), (0x20012, 0xAD), (0x20013, 0xDE), (0x20014, 0xBE), (0x20015, 0xBA), (0x20016, 0xFE), (0x20017, 0xCA)]) = true := by decide

/-- R249: `LOAD_IND_U8 r3, r1, 0` (spec/43_load.md). -/
theorem test_step_loadIndU8 : gives (at0 [0x7C, 0x13] [(1, 0x20000)] loadMemory)
    (fun t => ends t .ok 2 (none) [(1, 0x20000), (3, 0x88)]) = true := by decide

/-- R250: `LOAD_IND_I8 r3, r1, 0` (spec/43_load.md). -/
theorem test_step_loadIndI8 : gives (at0 [0x7D, 0x13] [(1, 0x20FF8)] loadMemory)
    (fun t => ends t .ok 2 (none) [(1, 0x20FF8), (3, 0xFFFFFFFFFFFFFFA1)]) = true := by decide

/-- R251: `LOAD_IND_U16 r3, r1, 0` (spec/43_load.md). -/
theorem test_step_loadIndU16 : gives (at0 [0x7E, 0x13] [(1, 0x20000)] loadMemory)
    (fun t => ends t .ok 2 (none) [(1, 0x20000), (3, 0x7788)]) = true := by decide

/-- R252: `LOAD_IND_I16 r3, r1, 0` (spec/43_load.md). -/
theorem test_step_loadIndI16 : gives (at0 [0x7F, 0x13] [(1, 0x20FF8)] loadMemory)
    (fun t => ends t .ok 2 (none) [(1, 0x20FF8), (3, 0xFFFFFFFFFFFFB2A1)]) = true := by decide

/-- R253: `LOAD_IND_U32 r3, r1, 0` (spec/43_load.md). -/
theorem test_step_loadIndU32 : gives (at0 [0x80, 0x13] [(1, 0x20000)] loadMemory)
    (fun t => ends t .ok 2 (none) [(1, 0x20000), (3, 0x55667788)]) = true := by decide

/-- R254: `LOAD_IND_I32 r3, r1, 0` (spec/43_load.md). -/
theorem test_step_loadIndI32 : gives (at0 [0x81, 0x13] [(1, 0x20FF8)] loadMemory)
    (fun t => ends t .ok 2 (none) [(1, 0x20FF8), (3, 0xFFFFFFFFD4C3B2A1)]) = true := by decide

/-- R255: `LOAD_IND_U64 r3, r1, 0` (spec/43_load.md). -/
theorem test_step_loadIndU64 : gives (at0 [0x82, 0x13] [(1, 0x20000)] loadMemory)
    (fun t => ends t .ok 2 (none) [(1, 0x20000), (3, 0x1122334455667788)]) = true := by decide

/-- R321: `ADD_IMM_32 r1, r2, 1` (spec/47_math.md). -/
theorem test_step_addImm32 : gives (at0 [0x83, 0x21, 0x01] [(2, 0x7FFFFFFF)] Memory.empty)
    (fun t => ends t .ok 3 (none) [(1, 0xFFFFFFFF80000000), (2, 0x7FFFFFFF)]) = true := by decide

/-- R291: `AND_IMM r1, r2, 0xF0` (spec/45_bit.md). -/
theorem test_step_andImm : gives (at0 [0x84, 0x21, 0xF0, 0x00] [(2, 0x1234)] Memory.empty)
    (fun t => ends t .ok 4 (none) [(1, 0x30), (2, 0x1234)]) = true := by decide

/-- R292: `XOR_IMM r1, r2, -1` (spec/45_bit.md). -/
theorem test_step_xorImm : gives (at0 [0x85, 0x21, 0xFF] [(2, 0xF)] Memory.empty)
    (fun t => ends t .ok 3 (none) [(1, 0xFFFFFFFFFFFFFFF0), (2, 0xF)]) = true := by decide

/-- R293: `OR_IMM r1, r2, 0x100` (spec/45_bit.md). -/
theorem test_step_orImm : gives (at0 [0x86, 0x21, 0x00, 0x01] [(2, 1)] Memory.empty)
    (fun t => ends t .ok 4 (none) [(1, 0x101), (2, 1)]) = true := by decide

/-- R322: `MUL_IMM_32 r1, r2, 3` (spec/47_math.md). -/
theorem test_step_mulImm32 : gives (at0 [0x87, 0x21, 0x03] [(2, 0x40000000)] Memory.empty)
    (fun t => ends t .ok 3 (none) [(1, 0xFFFFFFFFC0000000), (2, 0x40000000)]) = true := by decide

/-- R323: `SET_LT_U_IMM r1, r2, -1` (spec/47_math.md). -/
theorem test_step_setLtUImm : gives (at0 [0x88, 0x21, 0xFF] [(2, 5)] Memory.empty)
    (fun t => ends t .ok 3 (none) [(1, 1), (2, 5)]) = true := by decide

/-- R324: `SET_LT_S_IMM r1, r2, 0` (spec/47_math.md). -/
theorem test_step_setLtSImm : gives (at0 [0x89, 0x21] [(2, 0xFFFFFFFFFFFFFFFF)] Memory.empty)
    (fun t => ends t .ok 2 (none) [(1, 1), (2, 0xFFFFFFFFFFFFFFFF)]) = true := by decide

/-- R361: `SHLO_L_IMM_32 r1, r2, 4` (spec/48_shift_rotate.md). -/
theorem test_step_shloLImm32 : gives (at0 [0x8A, 0x21, 0x04] [(2, 0x8000001)] Memory.empty)
    (fun t => ends t .ok 3 (none) [(1, 0xFFFFFFFF80000010), (2, 0x8000001)]) = true := by decide

/-- R362: `SHLO_R_IMM_32 r1, r2, 4` (spec/48_shift_rotate.md). -/
theorem test_step_shloRImm32 : gives (at0 [0x8B, 0x21, 0x04] [(2, 0xF0)] Memory.empty)
    (fun t => ends t .ok 3 (none) [(1, 0xF), (2, 0xF0)]) = true := by decide

/-- R363: `SHAR_R_IMM_32 r1, r2, 4` (spec/48_shift_rotate.md). -/
theorem test_step_sharRImm32 : gives (at0 [0x8C, 0x21, 0x04] [(2, 0x80000000)] Memory.empty)
    (fun t => ends t .ok 3 (none) [(1, 0xFFFFFFFFF8000000), (2, 0x80000000)]) = true := by decide

/-- R325: `NEG_ADD_IMM_32 r1, r2, 0` (spec/47_math.md). -/
theorem test_step_negAddImm32 : gives (at0 [0x8D, 0x21] [(2, 1)] Memory.empty)
    (fun t => ends t .ok 2 (none) [(1, 0xFFFFFFFFFFFFFFFF), (2, 1)]) = true := by decide

/-- R326: `SET_GT_U_IMM r1, r2, 5` (spec/47_math.md). -/
theorem test_step_setGtUImm : gives (at0 [0x8E, 0x21, 0x05] [(2, 6)] Memory.empty)
    (fun t => ends t .ok 3 (none) [(1, 1), (2, 6)]) = true := by decide

/-- R327: `SET_GT_S_IMM r1, r2, -1` (spec/47_math.md). -/
theorem test_step_setGtSImm : gives (at0 [0x8F, 0x21, 0xFF] [] Memory.empty)
    (fun t => ends t .ok 3 (none) [(1, 1)]) = true := by decide

/-- R364: `SHLO_L_IMM_ALT_32 r1, r2, 1` (spec/48_shift_rotate.md). -/
theorem test_step_shloLImmAlt32 : gives (at0 [0x90, 0x21, 0x01] [(2, 0x1F)] Memory.empty)
    (fun t => ends t .ok 3 (none) [(1, 0xFFFFFFFF80000000), (2, 0x1F)]) = true := by decide

/-- R365: `SHLO_R_IMM_ALT_32 r1, r2, -1` (spec/48_shift_rotate.md). -/
theorem test_step_shloRImmAlt32 : gives (at0 [0x91, 0x21, 0xFF] [(2, 4)] Memory.empty)
    (fun t => ends t .ok 3 (none) [(1, 0xFFFFFFF), (2, 4)]) = true := by decide

/-- R366: `SHAR_R_IMM_ALT_32 r1, r2, -16` (spec/48_shift_rotate.md). -/
theorem test_step_sharRImmAlt32 : gives (at0 [0x92, 0x21, 0xF0] [(2, 2)] Memory.empty)
    (fun t => ends t .ok 3 (none) [(1, 0xFFFFFFFFFFFFFFFC), (2, 2)]) = true := by decide

/-- R312: `CMOV_IZ_IMM r1, r2, 9` (spec/46_memory_move.md). -/
theorem test_step_cmovIzImm : gives (at0 [0x93, 0x21, 0x09] [(1, 5)] Memory.empty)
    (fun t => ends t .ok 3 (none) [(1, 9)]) = true := by decide

/-- R313: `CMOV_NZ_IMM r1, r2, 9` (spec/46_memory_move.md). -/
theorem test_step_cmovNzImm : gives (at0 [0x94, 0x21, 0x09] [(1, 5), (2, 3)] Memory.empty)
    (fun t => ends t .ok 3 (none) [(1, 9), (2, 3)]) = true := by decide

/-- R328: `ADD_IMM_64 r1, r2, -1` (spec/47_math.md). -/
theorem test_step_addImm64 : gives (at0 [0x95, 0x21, 0xFF] [] Memory.empty)
    (fun t => ends t .ok 3 (none) [(1, 0xFFFFFFFFFFFFFFFF)]) = true := by decide

/-- R329: `MUL_IMM_64 r1, r2, -1` (spec/47_math.md). -/
theorem test_step_mulImm64 : gives (at0 [0x96, 0x21, 0xFF] [(2, 2)] Memory.empty)
    (fun t => ends t .ok 3 (none) [(1, 0xFFFFFFFFFFFFFFFE), (2, 2)]) = true := by decide

/-- R367: `SHLO_L_IMM_64 r1, r2, 8` (spec/48_shift_rotate.md). -/
theorem test_step_shloLImm64 : gives (at0 [0x97, 0x21, 0x08] [(2, 0xFF)] Memory.empty)
    (fun t => ends t .ok 3 (none) [(1, 0xFF00), (2, 0xFF)]) = true := by decide

/-- R368: `SHLO_R_IMM_64 r1, r2, 8` (spec/48_shift_rotate.md). -/
theorem test_step_shloRImm64 : gives (at0 [0x98, 0x21, 0x08] [(2, 0xFF00)] Memory.empty)
    (fun t => ends t .ok 3 (none) [(1, 0xFF), (2, 0xFF00)]) = true := by decide

/-- R369: `SHAR_R_IMM_64 r1, r2, 4` (spec/48_shift_rotate.md). -/
theorem test_step_sharRImm64 : gives (at0 [0x99, 0x21, 0x04] [(2, 0x8000000000000000)] Memory.empty)
    (fun t => ends t .ok 3 (none) [(1, 0xF800000000000000), (2, 0x8000000000000000)]) = true := by decide

/-- R330: `NEG_ADD_IMM_64 r1, r2, 0` (spec/47_math.md). -/
theorem test_step_negAddImm64 : gives (at0 [0x9A, 0x21] [(2, 1)] Memory.empty)
    (fun t => ends t .ok 2 (none) [(1, 0xFFFFFFFFFFFFFFFF), (2, 1)]) = true := by decide

/-- R370: `SHLO_L_IMM_ALT_64 r1, r2, 1` (spec/48_shift_rotate.md). -/
theorem test_step_shloLImmAlt64 : gives (at0 [0x9B, 0x21, 0x01] [(2, 0x3F)] Memory.empty)
    (fun t => ends t .ok 3 (none) [(1, 0x8000000000000000), (2, 0x3F)]) = true := by decide

/-- R371: `SHLO_R_IMM_ALT_64 r1, r2, -1` (spec/48_shift_rotate.md). -/
theorem test_step_shloRImmAlt64 : gives (at0 [0x9C, 0x21, 0xFF] [(2, 0x3C)] Memory.empty)
    (fun t => ends t .ok 3 (none) [(1, 0xF), (2, 0x3C)]) = true := by decide

/-- R372: `SHAR_R_IMM_ALT_64 r1, r2, -16` (spec/48_shift_rotate.md). -/
theorem test_step_sharRImmAlt64 : gives (at0 [0x9D, 0x21, 0xF0] [(2, 2)] Memory.empty)
    (fun t => ends t .ok 3 (none) [(1, 0xFFFFFFFFFFFFFFFC), (2, 2)]) = true := by decide

/-- R373: `ROT_R_64_IMM r1, r2, 4` (spec/48_shift_rotate.md). -/
theorem test_step_rotR64Imm : gives (at0 [0x9E, 0x21, 0x04] [(2, 1)] Memory.empty)
    (fun t => ends t .ok 3 (none) [(1, 0x1000000000000000), (2, 1)]) = true := by decide

/-- R374: `ROT_R_64_IMM_ALT r1, r2, 1` (spec/48_shift_rotate.md). -/
theorem test_step_rotR64ImmAlt : gives (at0 [0x9F, 0x21, 0x01] [(2, 1)] Memory.empty)
    (fun t => ends t .ok 3 (none) [(1, 0x8000000000000000), (2, 1)]) = true := by decide

/-- R375: `ROT_R_32_IMM r1, r2, 1` (spec/48_shift_rotate.md). -/
theorem test_step_rotR32Imm : gives (at0 [0xA0, 0x21, 0x01] [(2, 1)] Memory.empty)
    (fun t => ends t .ok 3 (none) [(1, 0xFFFFFFFF80000000), (2, 1)]) = true := by decide

/-- R376: `ROT_R_32_IMM_ALT r1, r2, 1` (spec/48_shift_rotate.md). -/
theorem test_step_rotR32ImmAlt : gives (at0 [0xA1, 0x21, 0x01] [(2, 1)] Memory.empty)
    (fun t => ends t .ok 3 (none) [(1, 0xFFFFFFFF80000000), (2, 1)]) = true := by decide

/-- R223: `BRANCH_EQ r1, r2, @4` (spec/42_branch.md). -/
theorem test_step_branchEq : gives (at0 [0xAA, 0x21, 0x04] [(1, 7), (2, 7)] Memory.empty)
    (fun t => ends t .ok 4 (none) [(1, 7), (2, 7)]) = true := by decide

/-- R224: `BRANCH_NE r1, r2, @4` (spec/42_branch.md). -/
theorem test_step_branchNe : gives (at0 [0xAB, 0x21, 0x04] [(1, 7), (2, 7)] Memory.empty)
    (fun t => ends t .ok 3 (none) [(1, 7), (2, 7)]) = true := by decide

/-- R225: `BRANCH_LT_U r1, r2, @4` (spec/42_branch.md). -/
theorem test_step_branchLtU : gives (at0 [0xAC, 0x21, 0x04] [(1, 7), (2, 7)] Memory.empty)
    (fun t => ends t .ok 3 (none) [(1, 7), (2, 7)]) = true := by decide

/-- R226: `BRANCH_LT_S r1, r2, @4` (spec/42_branch.md). -/
theorem test_step_branchLtS : gives (at0 [0xAD, 0x21, 0x04] [(1, 7), (2, 7)] Memory.empty)
    (fun t => ends t .ok 3 (none) [(1, 7), (2, 7)]) = true := by decide

/-- R227: `BRANCH_GE_U r1, r2, @4` (spec/42_branch.md). -/
theorem test_step_branchGeU : gives (at0 [0xAE, 0x21, 0x04] [(1, 7), (2, 7)] Memory.empty)
    (fun t => ends t .ok 4 (none) [(1, 7), (2, 7)]) = true := by decide

/-- R228: `BRANCH_GE_S r1, r2, @4` (spec/42_branch.md). -/
theorem test_step_branchGeS : gives (at0 [0xAF, 0x21, 0x04] [(1, 7), (2, 7)] Memory.empty)
    (fun t => ends t .ok 4 (none) [(1, 7), (2, 7)]) = true := by decide

/-- R229: `LOAD_IMM_JUMP_IND r1, r1, 9, 0` (spec/42_branch.md). -/
theorem test_step_loadImmJumpInd : gives (at0 [0xB4, 0x11, 0x01, 0x09] [(1, 2)] Memory.empty)
    (fun t => ends t .ok 5 (none) [(1, 9)]) = true := by decide

/-- R331: `ADD_32 r1, r2, r3` (spec/47_math.md). -/
theorem test_step_add32 : gives (at0 [0xBE, 0x21, 0x03] [(1, 0x7FFFFFFF), (2, 1)] Memory.empty)
    (fun t => ends t .ok 3 (none) [(1, 0x7FFFFFFF), (2, 1), (3, 0xFFFFFFFF80000000)]) = true := by decide

/-- R332: `SUB_32 r1, r2, r3` (spec/47_math.md). -/
theorem test_step_sub32 : gives (at0 [0xBF, 0x21, 0x03] [(2, 1)] Memory.empty)
    (fun t => ends t .ok 3 (none) [(2, 1), (3, 0xFFFFFFFFFFFFFFFF)]) = true := by decide

/-- R333: `MUL_32 r1, r2, r3` (spec/47_math.md). -/
theorem test_step_mul32 : gives (at0 [0xC0, 0x21, 0x03] [(1, 0x10000), (2, 0x8000)] Memory.empty)
    (fun t => ends t .ok 3 (none) [(1, 0x10000), (2, 0x8000), (3, 0xFFFFFFFF80000000)]) = true := by decide

/-- R334: `DIV_U_32 r1, r2, r3` (spec/47_math.md). -/
theorem test_step_divU32 : gives (at0 [0xC1, 0x21, 0x03] [(1, 0x64), (2, 7)] Memory.empty)
    (fun t => ends t .ok 3 (none) [(1, 0x64), (2, 7), (3, 0xE)]) = true := by decide

/-- R335: `DIV_S_32 r1, r2, r3` (spec/47_math.md). -/
theorem test_step_divS32 : gives (at0 [0xC2, 0x21, 0x03] [(1, 0xFFFFFFFFFFFFFFF9), (2, 2)] Memory.empty)
    (fun t => ends t .ok 3 (none) [(1, 0xFFFFFFFFFFFFFFF9), (2, 2), (3, 0xFFFFFFFFFFFFFFFD)]) = true := by decide

/-- R336: `REM_U_32 r1, r2, r3` (spec/47_math.md). -/
theorem test_step_remU32 : gives (at0 [0xC3, 0x21, 0x03] [(1, 0x64), (2, 7)] Memory.empty)
    (fun t => ends t .ok 3 (none) [(1, 0x64), (2, 7), (3, 2)]) = true := by decide

/-- R337: `REM_S_32 r1, r2, r3` (spec/47_math.md). -/
theorem test_step_remS32 : gives (at0 [0xC4, 0x21, 0x03] [(1, 0xFFFFFFFFFFFFFFF9), (2, 2)] Memory.empty)
    (fun t => ends t .ok 3 (none) [(1, 0xFFFFFFFFFFFFFFF9), (2, 2), (3, 0xFFFFFFFFFFFFFFFF)]) = true := by decide

/-- R377: `SHLO_L_32 r1, r2, r3` (spec/48_shift_rotate.md). -/
theorem test_step_shloL32 : gives (at0 [0xC5, 0x21, 0x03] [(1, 1), (2, 0x1F)] Memory.empty)
    (fun t => ends t .ok 3 (none) [(1, 1), (2, 0x1F), (3, 0xFFFFFFFF80000000)]) = true := by decide

/-- R378: `SHLO_R_32 r1, r2, r3` (spec/48_shift_rotate.md). -/
theorem test_step_shloR32 : gives (at0 [0xC6, 0x21, 0x03] [(1, 0x80000000), (2, 1)] Memory.empty)
    (fun t => ends t .ok 3 (none) [(1, 0x80000000), (2, 1), (3, 0x40000000)]) = true := by decide

/-- R379: `SHAR_R_32 r1, r2, r3` (spec/48_shift_rotate.md). -/
theorem test_step_sharR32 : gives (at0 [0xC7, 0x21, 0x03] [(1, 0x80000000), (2, 4)] Memory.empty)
    (fun t => ends t .ok 3 (none) [(1, 0x80000000), (2, 4), (3, 0xFFFFFFFFF8000000)]) = true := by decide

/-- R338: `ADD_64 r1, r2, r3` (spec/47_math.md). -/
theorem test_step_add64 : gives (at0 [0xC8, 0x21, 0x03] [(1, 5), (2, 7)] Memory.empty)
    (fun t => ends t .ok 3 (none) [(1, 5), (2, 7), (3, 0xC)]) = true := by decide

/-- R339: `SUB_64 r1, r2, r3` (spec/47_math.md). -/
theorem test_step_sub64 : gives (at0 [0xC9, 0x21, 0x03] [(1, 5), (2, 7)] Memory.empty)
    (fun t => ends t .ok 3 (none) [(1, 5), (2, 7), (3, 0xFFFFFFFFFFFFFFFE)]) = true := by decide

/-- R340: `MUL_64 r1, r2, r3` (spec/47_math.md). -/
theorem test_step_mul64 : gives (at0 [0xCA, 0x21, 0x03] [(1, 6), (2, 7)] Memory.empty)
    (fun t => ends t .ok 3 (none) [(1, 6), (2, 7), (3, 0x2A)]) = true := by decide

/-- R341: `DIV_U_64 r1, r2, r3` (spec/47_math.md). -/
theorem test_step_divU64 : gives (at0 [0xCB, 0x21, 0x03] [(1, 0x64), (2, 7)] Memory.empty)
    (fun t => ends t .ok 3 (none) [(1, 0x64), (2, 7), (3, 0xE)]) = true := by decide

/-- R342: `DIV_S_64 r1, r2, r3` (spec/47_math.md). -/
theorem test_step_divS64 : gives (at0 [0xCC, 0x21, 0x03] [(1, 0xFFFFFFFFFFFFFFF9), (2, 2)] Memory.empty)
    (fun t => ends t .ok 3 (none) [(1, 0xFFFFFFFFFFFFFFF9), (2, 2), (3, 0xFFFFFFFFFFFFFFFD)]) = true := by decide

/-- R343: `REM_U_64 r1, r2, r3` (spec/47_math.md). -/
theorem test_step_remU64 : gives (at0 [0xCD, 0x21, 0x03] [(1, 0x64), (2, 7)] Memory.empty)
    (fun t => ends t .ok 3 (none) [(1, 0x64), (2, 7), (3, 2)]) = true := by decide

/-- R344: `REM_S_64 r1, r2, r3` (spec/47_math.md). -/
theorem test_step_remS64 : gives (at0 [0xCE, 0x21, 0x03] [(1, 0xFFFFFFFFFFFFFFF9), (2, 2)] Memory.empty)
    (fun t => ends t .ok 3 (none) [(1, 0xFFFFFFFFFFFFFFF9), (2, 2), (3, 0xFFFFFFFFFFFFFFFF)]) = true := by decide

/-- R380: `SHLO_L_64 r1, r2, r3` (spec/48_shift_rotate.md). -/
theorem test_step_shloL64 : gives (at0 [0xCF, 0x21, 0x03] [(1, 1), (2, 0x3F)] Memory.empty)
    (fun t => ends t .ok 3 (none) [(1, 1), (2, 0x3F), (3, 0x8000000000000000)]) = true := by decide

/-- R381: `SHLO_R_64 r1, r2, r3` (spec/48_shift_rotate.md). -/
theorem test_step_shloR64 : gives (at0 [0xD0, 0x21, 0x03] [(1, 0x8000000000000000), (2, 0x3F)] Memory.empty)
    (fun t => ends t .ok 3 (none) [(1, 0x8000000000000000), (2, 0x3F), (3, 1)]) = true := by decide

/-- R382: `SHAR_R_64 r1, r2, r3` (spec/48_shift_rotate.md). -/
theorem test_step_sharR64 : gives (at0 [0xD1, 0x21, 0x03] [(1, 0x8000000000000000), (2, 0x3F)] Memory.empty)
    (fun t => ends t .ok 3 (none) [(1, 0x8000000000000000), (2, 0x3F), (3, 0xFFFFFFFFFFFFFFFF)]) = true := by decide

/-- R294: `AND r1, r2, r3` (spec/45_bit.md). -/
theorem test_step_andReg : gives (at0 [0xD2, 0x21, 0x03] [(1, 0xFF00), (2, 0xFF0)] Memory.empty)
    (fun t => ends t .ok 3 (none) [(1, 0xFF00), (2, 0xFF0), (3, 0xF00)]) = true := by decide

/-- R295: `XOR r1, r2, r3` (spec/45_bit.md). -/
theorem test_step_xorReg : gives (at0 [0xD3, 0x21, 0x03] [(1, 0xFF00), (2, 0xFF0)] Memory.empty)
    (fun t => ends t .ok 3 (none) [(1, 0xFF00), (2, 0xFF0), (3, 0xF0F0)]) = true := by decide

/-- R296: `OR r1, r2, r3` (spec/45_bit.md). -/
theorem test_step_orReg : gives (at0 [0xD4, 0x21, 0x03] [(1, 0xFF00), (2, 0xFF0)] Memory.empty)
    (fun t => ends t .ok 3 (none) [(1, 0xFF00), (2, 0xFF0), (3, 0xFFF0)]) = true := by decide

/-- R345: `MUL_UPPER_S_S r1, r2, r3` (spec/47_math.md). -/
theorem test_step_mulUpperSS : gives (at0 [0xD5, 0x21, 0x03] [(1, 0x4000000000000000), (2, 8)] Memory.empty)
    (fun t => ends t .ok 3 (none) [(1, 0x4000000000000000), (2, 8), (3, 2)]) = true := by decide

/-- R346: `MUL_UPPER_U_U r1, r2, r3` (spec/47_math.md). -/
theorem test_step_mulUpperUU : gives (at0 [0xD6, 0x21, 0x03] [(1, 0x4000000000000000), (2, 8)] Memory.empty)
    (fun t => ends t .ok 3 (none) [(1, 0x4000000000000000), (2, 8), (3, 2)]) = true := by decide

/-- R347: `MUL_UPPER_S_U r1, r2, r3` (spec/47_math.md). -/
theorem test_step_mulUpperSU : gives (at0 [0xD7, 0x21, 0x03] [(1, 0x4000000000000000), (2, 8)] Memory.empty)
    (fun t => ends t .ok 3 (none) [(1, 0x4000000000000000), (2, 8), (3, 2)]) = true := by decide

/-- R348: `SET_LT_U r1, r2, r3` (spec/47_math.md). -/
theorem test_step_setLtU : gives (at0 [0xD8, 0x21, 0x03] [(1, 1), (2, 0xFFFFFFFFFFFFFFFF)] Memory.empty)
    (fun t => ends t .ok 3 (none) [(1, 1), (2, 0xFFFFFFFFFFFFFFFF), (3, 1)]) = true := by decide

/-- R349: `SET_LT_S r1, r2, r3` (spec/47_math.md). -/
theorem test_step_setLtS : gives (at0 [0xD9, 0x21, 0x03] [(1, 1), (2, 0xFFFFFFFFFFFFFFFF)] Memory.empty)
    (fun t => ends t .ok 3 (none) [(1, 1), (2, 0xFFFFFFFFFFFFFFFF)]) = true := by decide

/-- R314: `CMOV_IZ r1, r2, r3` (spec/46_memory_move.md). -/
theorem test_step_cmovIz : gives (at0 [0xDA, 0x21, 0x03] [(1, 7), (3, 1)] Memory.empty)
    (fun t => ends t .ok 3 (none) [(1, 7), (3, 7)]) = true := by decide

/-- R315: `CMOV_NZ r1, r2, r3` (spec/46_memory_move.md). -/
theorem test_step_cmovNz : gives (at0 [0xDB, 0x21, 0x03] [(1, 7), (2, 2), (3, 1)] Memory.empty)
    (fun t => ends t .ok 3 (none) [(1, 7), (2, 2), (3, 7)]) = true := by decide

/-- R383: `ROT_L_64 r1, r2, r3` (spec/48_shift_rotate.md). -/
theorem test_step_rotL64 : gives (at0 [0xDC, 0x21, 0x03] [(1, 0x8000000000000000), (2, 1)] Memory.empty)
    (fun t => ends t .ok 3 (none) [(1, 0x8000000000000000), (2, 1), (3, 1)]) = true := by decide

/-- R384: `ROT_L_32 r1, r2, r3` (spec/48_shift_rotate.md). -/
theorem test_step_rotL32 : gives (at0 [0xDD, 0x21, 0x03] [(1, 0x40000000), (2, 1)] Memory.empty)
    (fun t => ends t .ok 3 (none) [(1, 0x40000000), (2, 1), (3, 0xFFFFFFFF80000000)]) = true := by decide

/-- R385: `ROT_R_64 r1, r2, r3` (spec/48_shift_rotate.md). -/
theorem test_step_rotR64 : gives (at0 [0xDE, 0x21, 0x03] [(1, 1), (2, 1)] Memory.empty)
    (fun t => ends t .ok 3 (none) [(1, 1), (2, 1), (3, 0x8000000000000000)]) = true := by decide

/-- R386: `ROT_R_32 r1, r2, r3` (spec/48_shift_rotate.md). -/
theorem test_step_rotR32 : gives (at0 [0xDF, 0x21, 0x03] [(1, 1), (2, 1)] Memory.empty)
    (fun t => ends t .ok 3 (none) [(1, 1), (2, 1), (3, 0xFFFFFFFF80000000)]) = true := by decide

/-- R297: `AND_INV r1, r2, r3` (spec/45_bit.md). -/
theorem test_step_andInv : gives (at0 [0xE0, 0x21, 0x03] [(1, 0xFF), (2, 0xF)] Memory.empty)
    (fun t => ends t .ok 3 (none) [(1, 0xFF), (2, 0xF), (3, 0xF0)]) = true := by decide

/-- R298: `OR_INV r1, r2, r3` (spec/45_bit.md). -/
theorem test_step_orInv : gives (at0 [0xE1, 0x21, 0x03] [(1, 0xF0), (2, 0xFFFFFFFFFFFFFFF0)] Memory.empty)
    (fun t => ends t .ok 3 (none) [(1, 0xF0), (2, 0xFFFFFFFFFFFFFFF0), (3, 0xFF)]) = true := by decide

/-- R299: `XNOR r1, r2, r3` (spec/45_bit.md). -/
theorem test_step_xnor : gives (at0 [0xE2, 0x21, 0x03] [(1, 0xFF), (2, 0xF)] Memory.empty)
    (fun t => ends t .ok 3 (none) [(1, 0xFF), (2, 0xF), (3, 0xFFFFFFFFFFFFFF0F)]) = true := by decide

/-- R350: `MAX r1, r2, r3` (spec/47_math.md). -/
theorem test_step_maxS : gives (at0 [0xE3, 0x21, 0x03] [(1, 0xFFFFFFFFFFFFFFFF), (2, 1)] Memory.empty)
    (fun t => ends t .ok 3 (none) [(1, 0xFFFFFFFFFFFFFFFF), (2, 1), (3, 1)]) = true := by decide

/-- R351: `MAX_U r1, r2, r3` (spec/47_math.md). -/
theorem test_step_maxU : gives (at0 [0xE4, 0x21, 0x03] [(1, 0xFFFFFFFFFFFFFFFF), (2, 1)] Memory.empty)
    (fun t => ends t .ok 3 (none) [(1, 0xFFFFFFFFFFFFFFFF), (2, 1), (3, 0xFFFFFFFFFFFFFFFF)]) = true := by decide

/-- R352: `MIN r1, r2, r3` (spec/47_math.md). -/
theorem test_step_minS : gives (at0 [0xE5, 0x21, 0x03] [(1, 0xFFFFFFFFFFFFFFFF), (2, 1)] Memory.empty)
    (fun t => ends t .ok 3 (none) [(1, 0xFFFFFFFFFFFFFFFF), (2, 1), (3, 0xFFFFFFFFFFFFFFFF)]) = true := by decide

/-- R353: `MIN_U r1, r2, r3` (spec/47_math.md). -/
theorem test_step_minU : gives (at0 [0xE6, 0x21, 0x03] [(1, 0xFFFFFFFFFFFFFFFF), (2, 1)] Memory.empty)
    (fun t => ends t .ok 3 (none) [(1, 0xFFFFFFFFFFFFFFFF), (2, 1), (3, 1)]) = true := by decide

/-! ## More steps -/

/-- A read across the end of the mapped pages faults at its second byte (R75, R76). -/
theorem test_step_readFault : gives (at0 [0x36, 0x03, 0xFF, 0x1F, 0x02] [(3, 7)] loadMemory)
    (fun t => ends t .fault 0 (some 0x22000) [(3, 7)] && !t.faultIsWrite) = true := by decide

/-- A write to a Readable page faults and stores nothing (R73, R81). -/
theorem test_step_writeFault : gives (at0 [0x3C, 0x01, 0xFF, 0x0F, 0x02] [(1, 0x1234)] storeMemory)
    (fun t => ends t .fault 0 (some 0x21000) [(1, 0x1234)] && t.faultIsWrite && t.mem == storeMemory) = true := by
  decide

/-- An access wraps at the top of the address space (R74): the byte after 0xFFFFFFFF is that at 0. -/
theorem test_read_wraps :
    ({ Memory.empty with pages := [(0, .readable), (0xFFFFF, .readable)]
                         cells := [(0, 0xCD), (0xFFFFFFFF, 0xAB)] } : Memory).read 0xFFFFFFFF 2 =
      .ok 0xCDAB := by decide

/-- `SBRK` above `HEAP_LIMIT` fails with 0 and changes nothing (R88). -/
theorem test_step_sbrkFails : gives (at0 [0x65, 0x12] [(1, 0xFFFFFFFFFFFFFFFF), (2, 5)] heapMemory)
    (fun t => ends t .ok 2 none [(1, 0xFFFFFFFFFFFFFFFF)] && t.mem == heapMemory) = true := by decide

/-- A jump into the middle of a block panics (R175). -/
theorem test_step_jumpMidBlock : gives (at0 [0x28, 0x01] [] Memory.empty) (fun t => ends t .panic 0 none []) = true := by
  decide

/-- `LOAD_IMM_JUMP` writes its register although its jump panics (R173). -/
theorem test_step_loadImmJumpPanics : gives (at0 [0x50, 0x13, 0xFE, 0x01] [] Memory.empty)
    (fun t => ends t .panic 0 none [(3, 0xFFFFFFFFFFFFFFFE)]) = true := by decide

/-- The 32-bit overflow of division (R335). -/
theorem test_step_divS32Overflow :
    gives (at0 [0xC2, 0x21, 0x03] [(1, 0x80000000), (2, 0xFFFFFFFF)] Memory.empty)
      (fun t => t.reg 3 == 0xFFFFFFFF80000000) = true := by decide

/-- The 64-bit division by 0 (R342). -/
theorem test_step_divS64Zero : gives (at0 [0xCC, 0x21, 0x03] [(1, 5)] Memory.empty)
    (fun t => t.reg 3 == 0xFFFFFFFFFFFFFFFF) = true := by decide

/-- A shift amount of 32 shifts by 0 (R361). -/
theorem test_step_shift32 : gives (at0 [0xC5, 0x21, 0x03] [(1, 0x80000001), (2, 32)] Memory.empty)
    (fun t => t.reg 3 == 0xFFFFFFFF80000001) = true := by decide

/-! ## Well-formedness: what has no encoding is refused -/

/-- An immediate that is not the sign extension of 4 bytes. -/
theorem test_wf_immX : (Instr.addImm32 1 2 0x80000000).wf .default = false ∧ (Instr.ecalli 0x100000000).wf .default = false ∧
    (Instr.addImm32 1 2 0xFFFFFFFF80000000).wf .default = true := by decide

/-- A second immediate that is not the sign extension of 4 bytes. -/
theorem test_wf_immY : (Instr.storeImmU8 0 0x80000000).wf .default = false ∧ (Instr.storeImmU8 0x80000000 0).wf .default = false ∧
    (Instr.loadImmJumpInd 1 2 0 0x80000000).wf .default = false ∧ (Instr.storeImmU8 0x7FFFFFFF 0).wf .default = true := by decide

/-- An offset that 4 bytes do not hold. -/
theorem test_wf_off : (Instr.jump 0x80000000).wf .default = false ∧ (Instr.branchEq 1 2 (-0x80000001)).wf .default = false ∧
    (Instr.branchEqImm 1 0 0x80000000).wf .default = false ∧ (Instr.jump (-0x80000000)).wf .default = true := by decide

/-- The 8-byte immediate has no limit (R133). -/
theorem test_wf_imm64 : (Instr.loadImm64 1 0x123456789ABCDEF0).wf .default = true := by decide

/-! ## Encoding corner cases -/

/-- Fixed fields are read past `ℓ`, and are 0 past the end of the code (R120, R127). -/
theorem test_decode_pastEnd : (decodeBytes .default [0xBE] 0).toOption = some (.add32 0 0 0) ∧
    (decodeBytes .default [0xBE, 0x21, 0x07] 0).toOption = some (.add32 1 2 7) := by decide

/-- Length fields above 4 select 4 bytes, and operand bytes beyond the fields are ignored (R126). -/
theorem test_decode_lengths :
    (decodeBytes .default [0x1E, 0xFF, 1, 0, 0, 0, 2] 6).toOption = some (.storeImmU8 1 2) ∧
    (decodeBytes .default [0x00, 9, 9, 9] 3).toOption = some .trap ∧
    (decodeBytes .default [0x33, 0x01, 1, 0, 0, 0, 9, 9] 7).toOption = some (.loadImm 1 1) := by decide

/-- An unknown opcode is rejected by the decoder, with its number (R145). -/
theorem test_decode_unknown : decodeBytes .default [0xFF, 1, 2] 2 = .error (.unknownOpcode 255) := by rfl

/-- The encoder takes the shortest immediate (R149). -/
theorem test_encode : encode .default (.addImm32 1 2 1) = [0x83, 0x21, 0x01] ∧ encode .default (.setLtSImm 1 2 0) = [0x89, 0x21] ∧
    encode .default (.jump 3) = [0x28, 0x03] := by decide

/-- The decoder reads a table word, least significant byte first. -/
theorem test_decodeTableWord : decodeTableWord 24 0x0321BE = some (.add32 1 2 3) := by decide

/-- A program blob and its program (R110–R116): jump table of one 2-byte entry, three code bytes, mask 101. -/
theorem test_blob : decodeProgram [0x01, 0x02, 0x03, 0x34, 0x12, 0x28, 0x02, 0x01, 0xFD] =
    .ok { code := [0x28, 0x02, 0x01], mask := [true, false, true], jt := [0x1234] } := by rfl

/-- The spec's examples of `varU32` (R111). -/
theorem test_varU32 : decodeVar [0x00] = .ok (0, []) ∧ decodeVar [0x14] = .ok (20, []) ∧
    decodeVar [0x7F] = .ok (127, []) ∧ decodeVar [0x80, 0x80] = .ok (128, []) ∧
    decodeVar [0xC0, 0x00, 0x40] = .ok (16384, []) := ⟨rfl, rfl, rfl, rfl, rfl⟩

/-- The listing of an instruction (R149). -/
theorem test_listing : listing 0 (.moveReg 1 2) = "MOVE_REG r1, r2" ∧ listing 0 (.ecalli 0x64) = "ECALLI 0x64" ∧
    listing 4 (.jump (-4)) = "JUMP @0" := by decide

/-- The disassembly of a program (R151). -/
theorem test_disassembly : disassembly .default { code := [0x28, 0x02, 0x01, 0xFF], mask := [true, false, true, true], jt := [] } =
    ["JUMP", "FALLTHROUGH", "TRAP"] := by decide

/-! ## Other parameters (spec/00_scope.md R9) -/

/-- Parameters that differ from the defaults in every field: opcode 2 is ADD_32 at a cost of 7, opcode 3 is ADD_32
again, as a TwoRegisters opcode, opcode 4 is TRAP at a cost of 9, and 0 and 190 are unknown; the heap is bounded as at `heapEnd` (spec/70_reset_and_hazards.md R445). -/
def otherParams : Params :=
  { opcodes := [(2, some ⟨.threeRegisters, 190⟩), (3, some ⟨.twoRegisters, 190⟩), (4, some ⟨.noArguments, 0⟩),
      (0, none), (190, none)]
    gasCosts := [(2, 7), (4, 9)], gasMax := 200, maxSkip := 4, maxImm := 2,
    jumpAlign := 4, haltAddress := 8, heapLimit := 0x40000, sbrkFailResult := 0xFFFFFFFFFFFFFFFF }

/-- A core at one instruction with those parameters. -/
def other (bytes : List Byte) (regs : List (Nat × Word)) : State :=
  { at0 bytes regs heapMemory with params := otherParams }

/-- `OPCODE_TABLE` and `GAS_COST`: two opcodes of one rule, in two shapes and at two costs; an unknown opcode costs what
TRAP's opcode 4 does (R164). -/
theorem test_params_opcodes : gives (other [2, 0x21, 0x03] [(1, 5), (2, 6)])
      (fun t => t.status == .ok && t.reg 3 == 11 && t.gas == 93) = true ∧
    gives (other [3, 0x13] [(0, 4), (1, 5)])
      (fun t => t.status == .ok && t.reg 3 == 9 && t.gas == 99) = true ∧
    gives (other [190, 0x21, 0x03] []) (fun t => t.status == .panic && t.gas == 91) = true := by decide

/-- The encoder follows the opcode table. -/
theorem test_params_encode : encode otherParams (.add32 1 2 3) = [2, 0x21, 0x03] ∧
    encodeAs 3 .twoRegisters 0 0 (.add32 1 0 3) = [3, 0x13] ∧
    otherParams.encodes (.add32 1 2 3) = true ∧ otherParams.encodes (.sub32 1 2 3) = true ∧
    (Instr.add32 1 2 3).args.wf otherParams .twoRegisters = false := by decide

/-- `MAX_SKIP` and `MAX_IMM`. -/
theorem test_params_lengths : skip otherParams [true, false, false, false, false, false, false, true] 0 = 4 ∧
    (decodeBytes otherParams [0x33, 0x01, 1, 2, 3] 4).toOption = some (.loadImm 1 0x201) := by decide

/-- `JUMP_ALIGN` and `HALT_ADDRESS`. -/
theorem test_params_jumps : gives (other [0x32, 0x00] [(0, 4)]) (fun t => t.status == .ok && t.pc == 3) = true ∧
    gives (other [0x32, 0x00] [(0, 2)]) (fun t => t.status == .panic) = true ∧
    gives (other [0x32, 0x00] [(0, 8)]) (fun t => t.status == .halt) = true := by decide

/-- `HEAP_LIMIT` and `SBRK_FAIL_RESULT`. -/
theorem test_params_sbrk : gives (other [0x65, 0x12] [(1, 0x10000)]) (fun t => t.reg 2 == 0x30000) = true ∧
    gives (other [0x65, 0x12] [(1, 0x10001)]) (fun t => t.reg 2 == 0xFFFFFFFFFFFFFFFF) = true := by decide

/-- `GAS_MAX`. -/
theorem test_params_gasMax : (∃ t, setGas 200 (other [1] []) = .ok t) ∧
    setGas 201 (other [1] []) = .error .gasOutOfRange := ⟨⟨_, rfl⟩, rfl⟩

/-! ## Witnesses: for every statement with hypotheses, values that meet them -/

/-- A small program: a jump over two bytes, then FALLTHROUGH, with two jump-table entries. -/
def smallProgram : Program := { code := [0x28, 0x02, 0x01], mask := [true, false, true], jt := [2, 0xFFFF] }

/-- A core that stands at the given instruction with no gas. -/
def broke (bytes : List Byte) : State := { at0 bytes [] Memory.empty with gas := 0 }

/-- A core that waits for its host. -/
def waiting : State := { at0 [0x0A, 0x64] [] storeMemory with status := .host, exitParam := some 100, pc := 2 }

theorem at0_ready (bytes : List Byte) (regs : List (Nat × Word)) (m : Memory) (h : bytes ≠ []) :
    (at0 bytes regs m).Ready := by
  obtain ⟨b, bs, rfl⟩ := List.exists_cons_of_ne_nil h
  exact ⟨rfl, rfl, rfl, by rw [show (at0 (b :: bs) regs m).params = .default from rfl]; simp [at0]⟩

theorem at0_inv (regs : List (Nat × Word)) : (at0 [0x78, 0x12, 0x10] regs storeMemory).Inv :=
  ⟨rfl, rfl, rfl, rfl, (by decide : storeMemory.wf = true), (by decide : storeMemory.heapWf = true)⟩

theorem witness_DecodeOfEncodeAs : Params.default.wf = true ∧
    (∃ r, Params.default.row 131 = some r ∧ r.op = (Instr.addImm32 1 2 0xFFFFFFFFFFFFFFFE).opcode ∧
      (Instr.addImm32 1 2 0xFFFFFFFFFFFFFFFE).args.fits .default r.shape 1 0 = true) ∧
    otherParams.wf = true ∧
    ∃ r, otherParams.row 3 = some r ∧ r.op = (Instr.add32 1 0 3).opcode ∧
      (Instr.add32 1 0 3).args.fits otherParams r.shape 0 0 = true :=
  ⟨by decide, ⟨_, rfl, rfl, by decide⟩, by decide, _, rfl, rfl, by decide⟩

theorem witness_DecodeOfEncode : Params.default.wf = true ∧
    Params.default.encodes (Instr.branchEqImm 3 0x7FFFFFFF (-5)) = true ∧
    (Instr.branchEqImm 3 0x7FFFFFFF (-5)).args.fits .default
      (Params.default.formOf (Instr.branchEqImm 3 0x7FFFFFFF (-5))).2 4 2 = true := by decide

theorem witness_DecodedIsWellFormed : Params.default.wf = true ∧
    decodeBytes .default [0xBE, 0xFD, 0xFF] 2 = .ok (.add32 12 12 12) := ⟨by decide, by rfl⟩

theorem witness_UnknownOpcodesPanic :
    255 < 256 ∧ (at0 [2] [] Memory.empty).params.row (at0 [2] [] Memory.empty).opcode = none ∧
    (at0 [2] [] Memory.empty).loaded = true ∧ (at0 [2] [] Memory.empty).status = .ok ∧
    atBoundary (at0 [2] [] Memory.empty).prog 0 = true ∧ Params.default.gasCost Params.default.trapOpcode ≤ (at0 [2] [] Memory.empty).gas ∧
    (broke [2]).gas < Params.default.gasCost Params.default.trapOpcode := ⟨by decide, rfl, rfl, rfl, rfl, by decide, by decide⟩

theorem witness_OperandFields : (0 : Nat) ≤ 7 ∧ (7 : Nat) ≤ 7 := by decide

theorem witness_VarU32Decodes : (127 : Nat) < 2 ^ (7 - 0) ∧ (0 : Nat) < 2 ^ (7 - 7) ∧
    (List.replicate 7 (0xFF : Byte)).length = 7 ∧ (List.replicate 8 (0 : Byte)).length = 8 ∧
    ([] : List Byte).length < 1 ∧ (List.replicate 7 (0 : Byte)).length < 8 ∧ 2 ^ 32 - 1 < 2 ^ 32 := by decide

theorem witness_BlobBodyDecodes : (List.replicate 8 (0xFF : Byte)).length = 2 * 4 ∧
    ([0x01] : List Byte).length = 1 ∧ ([0xFF] : List Byte).length = (1 + 7) / 8 ∧
    ([] : List Byte).length = 5 * 0 ∧ ([] : List Byte).length = (0 + 7) / 8 := by decide

theorem witness_BlobRoundTrip : serializable 2 smallProgram = true ∧ serializable 0 emptyProgram = true := by decide

theorem witness_BlobLengthIsExact : decodeProgram (serialize 2 smallProgram) = .ok smallProgram ∧
    ([0] : List Byte) ≠ [] ∧ (serialize 2 smallProgram).length - 1 < (serialize 2 smallProgram).length :=
  ⟨by rfl, by decide, by decide⟩

theorem witness_BlockGasCosts : smallProgram.wf = true ∧ (0, 1) ∈ blockGasCosts .default smallProgram := by decide

theorem witness_StepRunsDecoded : (at0 [0xBE, 0x21, 0x03] [] Memory.empty).Ready ∧
    decodeBytes .default ((at0 [0xBE, 0x21, 0x03] [] Memory.empty).prog.code.drop 0)
      (skip .default (at0 [0xBE, 0x21, 0x03] [] Memory.empty).prog.mask 0) = .ok (.add32 1 2 3) :=
  ⟨at0_ready _ _ _ (by decide), by rfl⟩

theorem witness_StepChecksStatusAndPc : (State.unloaded .default).loaded = false ∧ waiting.loaded = true ∧
    waiting.status ≠ .ok ∧ State.reset.loaded = true ∧ State.reset.status = .ok ∧
    State.reset.prog.code.length ≤ State.reset.pc.toNat ∧
    ({ at0 [0x28, 0x02] [] Memory.empty with pc := 1 } : State).prog.mask.getD 1 false = false := by decide

theorem witness_OogExactly : (broke [1]).loaded = true ∧ (broke [1]).status = .ok ∧
    atBoundary (broke [1]).prog 0 = true ∧ (broke [1]).gas < opGas .default (broke [1]).opcode :=
  ⟨rfl, rfl, rfl, by decide⟩

theorem witness_HostExactly : (at0 [0x0A, 0xFF] [] Memory.empty).Ready ∧
    (at0 [0x0A, 0xFF] [] Memory.empty).prog.decodeAt .default 0 = .ok (.ecalli 0xFFFFFFFFFFFFFFFF) :=
  ⟨at0_ready _ _ _ (by decide), by rfl⟩

theorem witness_HaltExactly : (at0 [0x32, 0x00] [(0, 0xFFFF0000)] Memory.empty).Ready ∧
    (at0 [0x32, 0x00] [(0, 0xFFFF0000)] Memory.empty).prog.decodeAt .default 0 = .ok (.jumpInd 0 0) ∧
    (at0 [0x32, 0x00] [(0, 0xFFFF0000)] Memory.empty).indAddr 0 0 = 0xFFFF0000 ∧
    (at0 [0xB4, 0x11, 0x01, 0x09] [(1, 0xFFFF0000)] Memory.empty).Ready ∧
    (at0 [0xB4, 0x11, 0x01, 0x09] [(1, 0xFFFF0000)] Memory.empty).prog.decodeAt .default 0 =
      .ok (.loadImmJumpInd 1 1 9 0) ∧
    (at0 [0xB4, 0x11, 0x01, 0x09] [(1, 0xFFFF0000)] Memory.empty).indAddr 1 0 = 0xFFFF0000 :=
  ⟨at0_ready _ _ _ (by decide), by rfl, by decide, at0_ready _ _ _ (by decide), by rfl, by decide⟩

theorem witness_FaultExactly : (at0 [0x36, 0x03, 0xFF, 0x1F, 0x02] [] loadMemory).Ready ∧
    (at0 [0x36, 0x03, 0xFF, 0x1F, 0x02] [] loadMemory).prog.decodeAt .default 0 = .ok (.loadU16 3 0x21FFF) ∧
    accessOf (.loadU16 3 0x21FFF) (at0 [0x36, 0x03, 0xFF, 0x1F, 0x02] [] loadMemory) =
      some ⟨0x21FFF, 2, false⟩ ∧
    loadMemory.FirstOffence ⟨0x21FFF, 2, false⟩ 1 ∧ storeMemory.FirstOffence ⟨0x21000, 1, true⟩ 0 :=
  ⟨at0_ready _ _ _ (by decide), by rfl, by rfl, ⟨by decide, by decide, by decide⟩,
    ⟨by decide, by decide, by decide⟩⟩

/-- The five cases: an invalid pc, an unknown opcode, TRAP, a static jump into a block, a dynamic jump to address 0. -/
theorem witness_PanicExactly : (at0 [0] [] Memory.empty).loaded = true ∧ (at0 [0] [] Memory.empty).status = .ok ∧
    gives State.reset (fun t => t.status == .panic) = true ∧
    gives (at0 [2] [] Memory.empty) (fun t => t.status == .panic) = true ∧
    gives (at0 [0] [] Memory.empty) (fun t => t.status == .panic) = true ∧
    gives (at0 [0x28, 0x01] [] Memory.empty) (fun t => t.status == .panic) = true ∧
    gives (at0 [0x32, 0x00] [] Memory.empty) (fun t => t.status == .panic) = true := by decide

theorem witness_NoPartialEffects : (at0 [0] [] Memory.empty).exitParam = none ∧
    gives (broke [1]) (fun t => t.status == .oog) = true ∧
    gives (at0 [0x36, 0x03, 0xFF, 0x1F, 0x02] [] loadMemory) (fun t => t.status == .fault) = true ∧
    gives (at0 [0x50, 0x13, 0xFE, 0x01] [] Memory.empty) (fun t => t.status == .panic) = true ∧
    gives (at0 [0x0A, 0x64] [] Memory.empty) (fun t => t.status == .host) = true := by decide

theorem witness_GasAccounting : (at0 [1] [] Memory.empty).gas ≤ (at0 [1] [] Memory.empty).initialGas ∧
    ∃ t, core.run 2 (at0 [1] [] Memory.empty) = .next t := ⟨by decide, _, rfl⟩

theorem witness_RunEndsWithinGas : (at0 [1] [] Memory.empty).loaded = true ∧
    ∀ n, 1 ≤ (at0 [1] [] Memory.empty).params.gasCost n := ⟨by decide, fun _ => Nat.le_refl 1⟩

theorem witness_StepKeepsInv : (at0 [0x78, 0x12, 0x10] [(1, 0x20000)] storeMemory).Inv ∧
    ∃ t, step (at0 [0x78, 0x12, 0x10] [(1, 0x20000)] storeMemory) = .next t := ⟨at0_inv _, _, rfl⟩

theorem witness_CommandsKeepInv : (at0 [0x78, 0x12, 0x10] [] storeMemory).Inv ∧
    ∃ t, (Command.storeFrom 0x20000 [1, 2]).apply (at0 [0x78, 0x12, 0x10] [] storeMemory) = .ok t :=
  ⟨at0_inv _, _, rfl⟩

theorem witness_BuilderAndResetMakeInv : (State.unloaded .default).params.wf = true ∧ PageState.readable ≠ .unmapped ∧ Builder.new.mem.wf = true ∧
    (∃ b, Builder.new.setRange .readable 0x1000 0x2000 [7] = .ok b) ∧
    (∃ b, finalize 0x30000 0x40000 Builder.new = .ok b ∧ b.mem.wf = true ∧ b.mem.heapWf = true ∧
      ∃ t, hostReset (serialize 2 smallProgram) 0 100 none (some b) (State.unloaded .default) = .done t) :=
  ⟨by decide, by decide, by decide, ⟨_, rfl⟩, _, rfl, by decide, by decide, _, rfl⟩

theorem witness_ProgramIsImmutable : (∃ t, step (at0 [1] [] Memory.empty) = .next t) ∧
    ∃ t, Command.resumeHost.apply waiting = .ok t := ⟨⟨_, rfl⟩, _, rfl⟩

theorem witness_PagePermissionsOnlyGrow :
    (∃ t, step (at0 [0x78, 0x12, 0x10] [(1, 0x20000)] storeMemory) = .next t) ∧
    storeMemory.pageState 0x20 = .writable ∧ storeMemory.pageState (0x21FFF / 4096) = .readable :=
  ⟨⟨_, rfl⟩, by decide, by decide⟩

theorem witness_PcStaysInCode : (at0 [0x78, 0x12, 0x10] [(1, 0x20000)] storeMemory).Inv ∧
    gives (at0 [0x78, 0x12, 0x10] [(1, 0x20000)] storeMemory) (fun t => t.status == .ok) = true ∧
    gives (at0 [0x0A, 0x64] [] Memory.empty) (fun t => t.status == .host) = true :=
  ⟨at0_inv _, by decide, by decide⟩

theorem witness_GasIsUnobservable : (at0 [1] [] Memory.empty).Ready ∧ opGas .default (at0 [1] [] Memory.empty).opcode ≤ 1 ∧
    ∃ t, step (at0 [1] [] Memory.empty) = .next t := ⟨at0_ready _ _ _ (by decide), by decide, _, rfl⟩

theorem witness_SignedReadingsAndAddresses : (0 : Nat) ≤ 64 ∧ (64 : Nat) ≤ 64 := by decide

theorem witness_MemReadSpec : (∀ k, k < 8 → loadMemory.canRead ((0x21FF8 + k) % 2 ^ 32) = true) ∧
    loadMemory.canRead ((0x21FFF + 1) % 2 ^ 32) = false ∧
    ∀ j, j < 1 → loadMemory.canRead ((0x21FFF + j) % 2 ^ 32) = true := by decide

theorem witness_MemWriteSpec : storeMemory.wf = true ∧
    (∀ k, k < 8 → storeMemory.canWrite ((0x20FF8 + k) % 2 ^ 32) = true) ∧
    storeMemory.canWrite ((0x20FFF + 1) % 2 ^ 32) = false ∧
    ∀ j, j < 1 → storeMemory.canWrite ((0x20FFF + j) % 2 ^ 32) = true := by decide

theorem witness_LoadAfterStore : storeMemory.wf = true ∧ 4 ≤ 2 ^ 32 ∧ 4 ≤ 4 ∧
    ∃ m, storeMemory.write 0x20000 4 0x11223344 = .ok m := ⟨by decide, by decide, by decide, _, rfl⟩

theorem witness_CanonicalMemoriesAreEqual : loadMemory.wf = true ∧ loadMemory.Same loadMemory :=
  ⟨by decide, fun _ => rfl, fun _ => rfl, rfl, rfl, rfl, rfl⟩

/-- The least growth that fails, the largest that succeeds, and one onto
a mapped page. -/
theorem witness_SbrkResults :
    heapMemory.heapPtr + (at0 [0x65, 0x12] [(1, 0xFFFD0001)] heapMemory).u 1 > Params.default.heapLimit ∧
    heapMemory.heapPtr + (at0 [0x65, 0x12] [(1, 0xFFFD0000)] heapMemory).u 1 ≤ Params.default.heapLimit ∧
    (∀ p, heapMemory.pageState p = .unmapped) ∧
    (let s := at0 [0x65, 0x12] [(1, 1)] { heapMemory with pages := [(0x30, .readable)] }
     s.mem.heapPtr + s.u 1 ≤ s.params.heapLimit ∧ s.mem.heapTop / 4096 ≤ 0x30 ∧
       0x30 < (s.mem.heapPtr + s.u 1 + 4095) / 4096 * 4096 / 4096 ∧ s.mem.pageState 0x30 ≠ .unmapped) :=
  ⟨by decide, by decide, fun _ => rfl, by decide⟩

theorem witness_LoadResults :
    (∀ k, k < 8 → loadMemory.canRead (accessAddr (absAddr 0x21FF8) k) = true) ∧
    ∀ k, k < 8 → loadMemory.canRead
      (accessAddr ((at0 [0x82, 0x13] [(1, 0x21FF8)] loadMemory).indAddr 1 0) k) = true := by decide

theorem witness_StoreResults : storeMemory.wf = true ∧
    (∀ k, k < 8 → storeMemory.canWrite (accessAddr (absAddr 0x20FF8) k) = true) ∧
    ∀ k, k < 8 → storeMemory.canWrite
      (accessAddr ((at0 [0x7B, 0x12] [(1, 0x20FF8)] storeMemory).indAddr 1 0) k) = true := by decide

theorem witness_AccessFaults :
    accessOf (.storeU16 1 0x20FFF) (at0 [0x3C, 0x01, 0xFF, 0x0F, 0x02] [] storeMemory) = some ⟨0x20FFF, 2, true⟩ ∧
    storeMemory.FirstOffence ⟨0x20FFF, 2, true⟩ 1 :=
  ⟨by rfl, by decide, by decide, by decide⟩

/-- A branch that is taken to a block start, one that is taken to the middle of a block, and one that is not taken. -/
theorem witness_BranchImmResults : let s := at0 [0x51, 0x11, 0x05, 0x05] [(1, 5)] Memory.empty
    s.u 1 = (5 : Word).toNat ∧ isBB s.params s.prog (s.pc.toNat + 5) = true ∧ isBB s.params s.prog (s.pc.toNat + 1) = false ∧
    ¬s.u 2 = (5 : Word).toNat ∧ ¬s.u 1 ≠ (5 : Word).toNat ∧ s.u 2 < (5 : Word).toNat ∧
    ¬s.u 1 < (5 : Word).toNat ∧ s.u 1 ≤ (5 : Word).toNat ∧ ¬s.u 1 ≤ (4 : Word).toNat ∧
    s.u 1 ≥ (5 : Word).toNat ∧ ¬s.u 2 ≥ (5 : Word).toNat ∧ s.u 1 > (4 : Word).toNat ∧
    ¬s.u 1 > (5 : Word).toNat ∧ s.i 2 < s64 5 ∧ ¬s.i 1 < s64 5 ∧ s.i 1 ≤ s64 5 ∧
    ¬s.i 1 ≤ s64 0xFFFFFFFFFFFFFFFF ∧ s.i 1 ≥ s64 0xFFFFFFFFFFFFFFFF ∧ ¬s.i 2 ≥ s64 5 ∧ s.i 1 > s64 4 ∧
    ¬s.i 1 > s64 5 := by decide

theorem witness_BranchRegAndJumpResults : let s := at0 [0xAA, 0x21, 0x04] [(1, 7), (2, 7), (3, 0xFFFFFFFFFFFFFFFF)] Memory.empty
    s.u 1 = s.u 2 ∧ ¬s.u 1 = s.u 3 ∧ s.u 1 ≠ s.u 3 ∧ ¬s.u 1 ≠ s.u 2 ∧ s.u 1 < s.u 3 ∧ ¬s.u 1 < s.u 2 ∧
    s.i 3 < s.i 1 ∧ ¬s.i 1 < s.i 3 ∧ s.u 1 ≥ s.u 2 ∧ ¬s.u 1 ≥ s.u 3 ∧ s.i 1 ≥ s.i 3 ∧ ¬s.i 3 ≥ s.i 1 ∧
    isBB s.params s.prog (s.pc.toNat + 4) = true ∧ isBB s.params s.prog (s.pc.toNat + 1) = false := by decide

theorem witness_DynamicJumpResults :
    let s := at0 [0x32, 0x00] [(0, 0xFFFF0000), (1, 2), (2, 4), (3, 1)] Memory.empty
    s.indAddr 0 0 = 0xFFFF0000 ∧ s.indAddr 1 0 ≠ 0xFFFF0000 ∧ dynamicTarget s.params s.prog (s.indAddr 1 0) = some 3 ∧
    dynamicTarget s.params s.prog (s.indAddr 2 0) = none ∧ dynamicTarget s.params s.prog (s.indAddr 3 0) = none ∧
    dynamicTarget s.params s.prog (s.indAddr 4 0) = none := by decide

theorem witness_OnlyResumeLeavesHost : waiting.loaded = true ∧ waiting.status = .host ∧
    (State.unloaded .default).loaded = false ∧ State.reset.status ≠ .host ∧
    (∃ t, Command.resumeHost.apply waiting = .ok t) ∧ ∃ t, (Command.set 12 7).apply waiting = .ok t :=
  ⟨rfl, rfl, rfl, by decide, ⟨_, rfl⟩, _, rfl⟩

theorem witness_ResetSequence : (0 : Int) ≤ 2 ^ 32 - 1 ∧ (2 : Int) ^ 32 - 1 < 2 ^ 32 ∧
    (0 : Int) ≤ 2 ^ 64 - 1 ∧ (2 : Int) ^ 64 - 1 ≤ Params.default.gasMax ∧
    (List.replicate 13 ((2 : Int) ^ 64 - 1)).length = 13 ∧
    (∀ v ∈ List.replicate 13 ((2 : Int) ^ 64 - 1), 0 ≤ v ∧ v < 2 ^ 64) ∧
    (∃ b, finalize 0 0 Builder.new = .ok b ∧ b.finalized = true) ∧
    decodeProgram (serialize 2 smallProgram) = .ok smallProgram ∧ decodeProgram [] = .error .truncated :=
  ⟨by decide, by decide, by decide, by decide, by decide, by decide, ⟨_, rfl, rfl⟩, by rfl, by rfl⟩

theorem witness_HostRegisterAccess : waiting.loaded = true ∧ 12 < 13 ∧ (7 : Nat) < 8 ∧
    96 + (List.replicate 8 (0xFF : Byte)).length ≤ 104 ∧ 104 + ([] : List Byte).length ≤ 104 := by decide

theorem witness_HostMemoryAccess : waiting.loaded = true ∧ waiting.mem.wf = true ∧
    (∀ k, k < 2 → waiting.mem.canWrite (accessAddr 0x20FFE k) = true) ∧
    waiting.mem.FirstOffence ⟨0x20FFF, 2, true⟩ 1 ∧ waiting.mem.FirstOffence ⟨0x21FFF, 2, false⟩ 1 ∧
    (∀ k, k < 2 → waiting.mem.canRead (accessAddr 0x21FFE k) = true) ∧
    2 ^ 32 < (List.replicate (2 ^ 32 + 1) (0 : Byte)).length ∧ 2 ^ 20 ≤ 2 ^ 20 ∧
    waiting.mem.pageState 0x22 = .unmapped ∧ waiting.mem.pageState 0x21 ≠ .unmapped :=
  ⟨by decide, by decide, by decide, ⟨by decide, by decide, by decide⟩, ⟨by decide, by decide, by decide⟩,
    by decide, by rw [List.length_replicate]; decide, by decide, by decide, by decide⟩

end Sys2Proof.Tests
end

section
/-! PROOFS. Signed readings, sign extension and effective addresses (spec/00_scope.md R11; spec/20_memory.md R79).
The three readings `s64`, `s32` and `sext` are all the one reading `signedOf` at some width, so its arithmetic is
said once, for every width. -/

namespace Sys2Proof

/-- `s_n(v)` by arithmetic, at every width; at `n = 0` both sides are 0. -/
theorem signedOf_eq_ite (n v : Nat) : signedOf n v =
    if 2 * (v % 2 ^ n) < 2 ^ n then ((v % 2 ^ n : Nat) : Int) else ((v % 2 ^ n : Nat) : Int) - 2 ^ n := by
  rw [signedOf, BitVec.toInt_eq_toNat_cond, BitVec.toNat_ofNat]
  push_cast
  rfl

theorem s64_eq_signedOf (v : Word) : s64 v = signedOf 64 v.toNat := by
  rw [s64, signedOf, BitVec.ofNat_toNat, BitVec.setWidth_eq]

theorem s32_eq_signedOf (v : Word) : s32 v = signedOf 32 v.toNat := by
  rw [s32, signedOf, BitVec.ofNat_toNat]

theorem sext_eq_u64_signedOf (n v : Nat) : sext n v = u64 (signedOf n v) := rfl

theorem s64_eq_ite (v : Word) :
    s64 v = if v.toNat < 2 ^ 63 then (v.toNat : Int) else (v.toNat : Int) - 2 ^ 64 := by
  have hmod : v.toNat % 2 ^ 64 = v.toNat := Nat.mod_eq_of_lt v.isLt
  have hhalf : 2 * v.toNat < 2 ^ 64 ↔ v.toNat < 2 ^ 63 := by omega
  simp only [s64_eq_signedOf, signedOf_eq_ite, hmod, hhalf]

theorem s32_eq_ite (v : Word) :
    s32 v = if v.toNat % 2 ^ 32 < 2 ^ 31 then ((v.toNat % 2 ^ 32 : Nat) : Int)
      else ((v.toNat % 2 ^ 32 : Nat) : Int) - 2 ^ 32 := by
  have hhalf : 2 * (v.toNat % 2 ^ 32) < 2 ^ 32 ↔ v.toNat % 2 ^ 32 < 2 ^ 31 := by omega
  simp only [s32_eq_signedOf, signedOf_eq_ite, hhalf]

theorem toNat_u64 (i : Int) : ((u64 i).toNat : Int) = i % 2 ^ 64 := by
  rw [u64, BitVec.toNat_ofInt, Int.toNat_of_nonneg (Int.emod_nonneg i (by decide))]
  rfl

theorem sext_zero_width (v : Nat) : sext 0 v = 0 := by
  have hzero : signedOf 0 v = 0 := by rw [signedOf, BitVec.toInt_of_zero_length rfl]
  rw [sext_eq_u64_signedOf, hzero]
  rfl

theorem sext_eq_u64_ite (n v : Nat) : sext n v = u64 (if 2 * (v % 2 ^ n) < 2 ^ n
    then ((v % 2 ^ n : Nat) : Int) else ((v % 2 ^ n : Nat) : Int) - 2 ^ n) := by
  rw [sext_eq_u64_signedOf, signedOf_eq_ite]

namespace Machine

@[simp] theorem toNat_absAddr (x : Word) : (absAddr x).toNat = x.toNat % 2 ^ 32 :=
  BitVec.toNat_setWidth 32 x

/-- The register is added mod 2^64 before the low half is taken, which does not change the sum mod 2^32. -/
@[simp] theorem State.toNat_indAddr (s : State) (r : Reg) (x : Word) :
    (s.indAddr r x).toNat = (s.u r + x.toNat) % 2 ^ 32 := by
  have hdvd : 2 ^ 32 ∣ 2 ^ 64 := by decide
  rw [State.indAddr, BitVec.toNat_setWidth, BitVec.toNat_add, Nat.mod_mod_of_dvd _ hdvd, State.u]

end Machine

/-- Settles O32: each clause is the arithmetic of one reading or address. -/
theorem signedReadingsAndAddresses : Obligations.SignedReadingsAndAddresses :=
  ⟨s64_eq_ite, s32_eq_ite, toNat_u64, sext_zero_width, fun n v _ => sext_eq_u64_ite n v,
    Machine.toNat_absAddr, Machine.State.toNat_indAddr⟩

end Sys2Proof
end

section
/-! PROOFS. The invariant of a core (spec/10_state.md R42, R44, R49, R50): each of its clauses is kept by what a step
can do. The program and the parameters are never written, the gas only falls, every commit and every exception writes
an exit parameter that agrees with the status, and memory changes by one write or one heap growth. -/

namespace Sys2Proof.Machine

/-! ## The exit parameter -/

@[simp] theorem State.exitWf_commit (s : State) (npc : BitVec 32) : (s.commit npc).exitWf = true := rfl

@[simp] theorem State.exitWf_advance (s : State) : s.advance.exitWf = true := rfl

/-- Every exception but OOG writes the exit parameter that its status asks for. -/
theorem exitWf_takeException {c : Cause} (hc : c ≠ .oog) (s : State) : (takeException c s).exitWf = true := by
  cases c with
  | oog => exact absurd rfl hc
  | _ => rfl

/-- OOG keeps the exit parameter, which is empty in a core that runs (spec/60_exceptions.md R403). -/
theorem exitWf_takeException_oog {s : State} (hok : s.status = .ok) (h : s.exitWf = true) :
    (takeException .oog s).exitWf = true := by
  have hempty : s.exitParam.isSome = false := by
    rw [State.exitWf, hok] at h
    exact eq_of_beq h
  rw [State.exitWf, takeException_oog_exitParam, hempty]
  rfl

theorem exitWf_branch (target : Int) (cond : Bool) (s : State) : (branch target cond s).exitWf = true := by
  cases cond with
  | false => rfl
  | true =>
    rw [branch_true]
    split
    · exact State.exitWf_commit _ _
    · exact exitWf_takeException (by decide) _

theorem exitWf_djump (a : Addr) (s : State) : (djump a s).exitWf = true := by
  rw [djump_eq]
  split
  · exact exitWf_takeException (by decide) _
  · split
    · exact State.exitWf_commit _ _
    · exact exitWf_takeException (by decide) _

/-- Whatever the exit parameter was, an instruction leaves one that agrees with the status. -/
theorem exec_exitWf {i : Instr} {s t : State} (h : exec i s = .next t) : t.exitWf = true := by
  rcases exec_cases i s with ⟨u, hu, hplain, -⟩ | hi | ⟨x, hi⟩ | ⟨c, ext, rd, -, -, hu, -, -⟩ |
    ⟨c, v, -, -, hu, -, -⟩ | ⟨off, s', -, hu, -, -, -⟩ | ⟨a, s', -, hu, -, -, -⟩ | ⟨rA, rD, hi⟩
  case plain =>
    cases hu.symm.trans h
    rcases hplain with rfl | ⟨rd, v, rfl⟩
    · exact State.exitWf_advance _
    · exact State.exitWf_advance _
  case trap =>
    subst hi
    cases h
    exact exitWf_takeException (by simp) _
  case ecalli =>
    subst hi
    cases h
    exact exitWf_takeException (by simp) _
  case load =>
    rcases loadInto_cases c.width ext rd c.addr s with ⟨-, hv⟩ | ⟨k, -, -, -, hv⟩
    · cases (hu.trans hv).symm.trans h
      exact State.exitWf_advance _
    · cases (hu.trans hv).symm.trans h
      exact exitWf_takeException (by simp) _
  case store =>
    rcases storeAt_cases c.width c.addr v s with ⟨-, m, -, hv⟩ | ⟨k, -, -, -, hv⟩
    · cases (hu.trans hv).symm.trans h
      exact State.exitWf_advance _
    · cases (hu.trans hv).symm.trans h
      exact exitWf_takeException (by simp) _
  case jump =>
    cases hu.symm.trans h
    exact exitWf_branch _ _ _
  case dynamic =>
    cases hu.symm.trans h
    exact exitWf_djump _ _
  case sbrk =>
    subst hi
    simp only [exec, execSbrk] at h
    split at h
    · cases h
      exact State.exitWf_advance _
    · cases h
    · cases h
      exact State.exitWf_advance _

/-- A step keeps the agreement of the exit parameter and the status (spec/10_state.md R42). -/
theorem step_exitWf {s t : State} (hexit : s.exitWf = true) (h : step s = .next t) : t.exitWf = true := by
  cases hl : s.loaded with
  | false =>
    rw [step_of_not_loaded hl] at h
    cases h
  | true =>
    rcases step_cases hl with ⟨-, hst⟩ | ⟨-, -, hst⟩ | ⟨hok, -, -, hst⟩ | ⟨-, e, -, hst⟩ | ⟨-, i, -, hst⟩
    · cases hst.symm.trans h
      exact hexit
    · cases hst.symm.trans h
      exact exitWf_takeException (by decide) _
    · cases hst.symm.trans h
      exact exitWf_takeException_oog hok hexit
    · cases hst.symm.trans h
      exact exitWf_takeException (by decide) _
    · exact exec_exitWf (hst.symm.trans h)

/-! ## The gas counter -/

theorem State.gasWf_iff (s : State) :
    s.gasWf = true ↔ s.gas ≤ s.params.gasMax ∧ s.initialGas ≤ s.params.gasMax := by
  simp [State.gasWf]

theorem step_gas_le {s t : State} (h : step s = .next t) : t.gas ≤ s.gas := by
  rcases step_gas h with ⟨-, hg, -⟩ | ⟨-, -, hg, -⟩ | ⟨-, -, hg⟩
  all_goals omega

/-- A step keeps the gas counter in range (spec/10_state.md R44). -/
theorem step_gasWf {s t : State} (hgas : s.gasWf = true) (h : step s = .next t) : t.gasWf = true := by
  obtain ⟨-, -, hinit, hparams⟩ := step_fixed h
  rw [State.gasWf_iff] at hgas ⊢
  rw [hinit, hparams]
  exact ⟨(step_gas_le h).trans hgas.1, hgas.2⟩

/-! ## The memory unit -/

theorem Memory.allWritable_congr {m m' : Memory} (h : ∀ q, m'.pageState q = m.pageState q) (p n : Nat) :
    m'.allWritable p n = m.allWritable p n := by
  rw [Bool.eq_iff_iff, Memory.allWritable_iff, Memory.allWritable_iff]
  simp only [h]

/-- The heap relations read the page table and the heap registers only. -/
theorem Memory.SameOutside.heapWf {addr : Addr} {n : Nat} {m m' : Memory} (h : Memory.SameOutside addr n m m') :
    m'.heapWf = m.heapWf := by
  simp only [Memory.heapWf, h.heapStart, h.heapEnd, h.heapPtr, h.heapTop, Memory.allWritable_congr h.page]

theorem Memory.sameOutside_writeBytes {m m' : Memory} {addr : Addr} {bs : List Byte}
    (h : m.writeBytes addr bs = .ok m') : Memory.SameOutside addr bs.length m m' := by
  obtain ⟨hpage, hbyte, hstart, hend, hptr, htop⟩ := Memory.writeBytes_outside h
  exact ⟨hpage, hbyte, hstart, hend, hptr, htop⟩

/-- Each way in which a step can change memory keeps the canonical form and the heap relations
(spec/20_memory.md R72, R86). -/
theorem Memory.StepsTo.wf {m m' : Memory} {limit : Nat} (h : m.StepsTo limit m') (hlimit : limit ≤ Config.addrSpace)
    (hwf : m.wf = true) (hheap : m.heapWf = true) : m'.wf = true ∧ m'.heapWf = true := by
  rcases h with rfl | ⟨addr, bs, hw⟩ | ⟨n, old, hgrown⟩
  · exact ⟨hwf, hheap⟩
  · exact ⟨Memory.wf_writeBytes hw hwf, (Memory.sameOutside_writeBytes hw).heapWf.trans hheap⟩
  · exact Memory.wf_sbrk hlimit hgrown hwf hheap

theorem Params.heapLimit_le {P : Params} (h : P.wf = true) : P.heapLimit ≤ Config.addrSpace := by
  simp only [Params.wf, Bool.and_eq_true, decide_eq_true_eq] at h
  exact h.2

/-- Every step keeps the invariant. -/
theorem step_inv {s t : State} (hinv : s.Inv) (h : step s = .next t) : t.Inv := by
  obtain ⟨-, hprog, -, hparams⟩ := step_fixed h
  obtain ⟨hmem, hheap⟩ := (step_memory h).wf (Params.heapLimit_le hinv.params) hinv.memory hinv.heap
  exact {
    params := by rw [hparams]; exact hinv.params
    program := by rw [hprog]; exact hinv.program
    gas := step_gasWf hinv.gas h
    exit := step_exitWf hinv.exit h
    memory := hmem
    heap := hheap }

end Sys2Proof.Machine

namespace Sys2Proof

/-- Settles O24: each clause of the invariant is kept by what a step can do. -/
theorem stepKeepsInv : Obligations.StepKeepsInv :=
  fun _ _ hinv h => Machine.step_inv hinv h

end Sys2Proof
end

section
/-! PROOFS. What no step and no command writes (spec/10_state.md R31, R50): the program, the loaded bit and the
parameters; and the state that a reset leaves (R54). -/

namespace Sys2Proof.Machine

/-- What a step and a command leave as it was (spec/10_state.md R31, R50). -/
def State.SameProgram (s t : State) : Prop := t.prog = s.prog ∧ t.loaded = s.loaded ∧ t.params = s.params

theorem State.sameProgram_refl (s : State) : s.SameProgram s := ⟨rfl, rfl, rfl⟩

theorem State.SameProgram.trans {s t u : State} (hst : s.SameProgram t) (htu : t.SameProgram u) :
    s.SameProgram u := by
  obtain ⟨hprog, hloaded, hparams⟩ := hst
  obtain ⟨hprog', hloaded', hparams'⟩ := htu
  exact ⟨hprog'.trans hprog, hloaded'.trans hloaded, hparams'.trans hparams⟩

theorem step_sameProgram {s t : State} (h : step s = .next t) : s.SameProgram t := by
  obtain ⟨hloaded, hprog, -, hparams⟩ := step_fixed h
  exact ⟨hprog, hloaded, hparams⟩

theorem runSteps_sameProgram {n : Nat} {s t : State} (h : runSteps n s = .next t) : s.SameProgram t :=
  runSteps_induction (P := s.SameProgram) (fun _ _ hsu hstep => hsu.trans (step_sameProgram hstep)) n s t
    s.sameProgram_refl h

theorem command_sameProgram {c : Command} {s t : State} (h : c.apply s = .ok t) : s.SameProgram t := by
  rcases command_apply_cases h with hstep | hrun | ⟨-, -, rfl⟩ | ⟨x, rfl⟩ | ⟨g, -, rfl⟩ | ⟨a, bs, m, -, rfl⟩ | rfl
  · exact step_sameProgram hstep
  · exact runSteps_sameProgram hrun
  · exact ⟨rfl, rfl, rfl⟩
  · exact ⟨rfl, rfl, rfl⟩
  · exact ⟨rfl, rfl, rfl⟩
  · exact ⟨rfl, rfl, rfl⟩
  · exact State.sameProgram_refl _

/-! ## Reset -/

/-- What a reset can answer: a refusal, the Unloaded core of a blob that does not decode, or the loaded core
(spec/70_reset_and_hazards.md R440–R442). -/
theorem hostReset_cases (blob : List Byte) (pc0 gas0 : Int) (regs : Option (List Int)) (mem : Option Builder)
    (s : State) :
    hostReset blob pc0 gas0 regs mem s = .refused .resetArguments ∨
    (∃ e, decodeProgram blob = .error e ∧
      hostReset blob pc0 gas0 regs mem s = .decodeError e (unloadedFrom s)) ∨
    ∃ p x m, resetNumbersOk s.params pc0 gas0 = true ∧ resetRegs regs = some x ∧ resetMem mem = some m ∧
      decodeProgram blob = .ok p ∧
      hostReset blob pc0 gas0 regs mem s = .done (loadedState s.params p pc0 gas0 x m) := by
  unfold hostReset
  split
  · rename_i x m hnumbers hregs hmem
    cases decodeProgram blob with
    | error e => exact .inr (.inl ⟨e, rfl, rfl⟩)
    | ok p => exact .inr (.inr ⟨p, x, m, hnumbers, hregs, hmem, rfl, rfl⟩)
  · exact .inl rfl

theorem hostReset_done_params {blob : List Byte} {pc0 gas0 : Int} {regs : Option (List Int)} {mem : Option Builder}
    {s t : State} (h : hostReset blob pc0 gas0 regs mem s = .done t) : t.params = s.params := by
  rcases hostReset_cases blob pc0 gas0 regs mem s with hr | ⟨e, -, hr⟩ | ⟨p, x, m, -, -, -, -, hr⟩
  · cases hr.symm.trans h
  · cases hr.symm.trans h
  · cases hr.symm.trans h
    rfl

theorem hostReset_decodeError_params {blob : List Byte} {pc0 gas0 : Int} {regs : Option (List Int)}
    {mem : Option Builder} {s t : State} {e : BlobError} (h : hostReset blob pc0 gas0 regs mem s = .decodeError e t) :
    t.params = s.params := by
  rcases hostReset_cases blob pc0 gas0 regs mem s with hr | ⟨e', -, hr⟩ | ⟨p, x, m, -, -, -, -, hr⟩
  · cases hr.symm.trans h
  · cases hr.symm.trans h
    rfl
  · cases hr.symm.trans h

theorem State.resetWith_reg (P : Params) (r : Reg) : (State.resetWith P).reg r = 0 := by
  simp [State.reg, State.resetWith]

theorem Memory.empty_pageState (p : Nat) : Memory.empty.pageState p = .unmapped := rfl

theorem Memory.empty_wf : Memory.empty.wf = true := by decide

theorem Memory.empty_heapWf : Memory.empty.heapWf = true := by decide

/-- The state after reset has the invariant when the parameters make sense (spec/10_state.md R54). -/
theorem State.resetWith_inv {P : Params} (hP : P.wf = true) : (State.resetWith P).Inv where
  params := hP
  program := rfl
  gas := (State.gasWf_iff _).mpr ⟨Nat.zero_le _, Nat.zero_le _⟩
  exit := rfl
  memory := Memory.empty_wf
  heap := Memory.empty_heapWf

end Sys2Proof.Machine

namespace Sys2Proof

open Machine

/-- Settles O28: steps by their frame, runs by induction on it, and every other command by what it writes. -/
theorem programIsImmutable : Obligations.ProgramIsImmutable := by
  refine ⟨fun _ _ => step_sameProgram, fun _ _ _ => command_sameProgram, ?_⟩
  rintro blob pc0 gas0 regs mem s t (hdone | ⟨e, herror⟩)
  · exact hostReset_done_params hdone
  · exact hostReset_decodeError_params herror

/-- Settles O25: the invariant from its clauses at reset, the other values by evaluation. -/
theorem resetState : Obligations.ResetState := by
  constructor
  · intro P
    exact ⟨State.resetWith_inv, rfl, rfl, rfl, rfl, State.resetWith_reg P, Memory.empty_pageState,
      rfl, rfl, rfl, rfl, rfl⟩
  · exact ⟨rfl, by decide, fun _ => rfl, rfl, rfl, rfl, rfl, by decide, rfl, rfl⟩

end Sys2Proof
end

section
/-! PROOFS. Where the pc can stand (spec/10_state.md R38): the end of an instruction at a boundary lies within the
code, a block start lies within the code, and a code offset fits in the 32 bits of the pc. -/

namespace Sys2Proof

theorem Program.wf_iff (p : Program) :
    p.wf = true ↔ p.mask.length = p.code.length ∧ p.code.length ≤ Config.maxU32 := by
  simp [Program.wf]

/-- Past the mask every byte counts as an instruction start (spec/30_encoding.md R121). -/
theorem maskStar_of_length_le {mask : List Bool} {i : Nat} (h : mask.length ≤ i) : maskStar mask i = true := by
  rw [maskStar, List.getD_eq_default _ _ h]

/-- An instruction that starts within the mask ends within it: its last byte is no instruction start. -/
theorem skip_le_length {P : Params} {mask : List Bool} {pc : Nat} (h : pc < mask.length) :
    pc + 1 + skip P mask pc ≤ mask.length := by
  obtain ⟨-, hunset, -⟩ := toNextStart_spec mask P.maxSkip (pc + 1)
  by_contra hover
  have hlast := hunset (mask.length - (pc + 1)) (by rw [skip] at hover; omega)
  rw [maskStar_of_length_le (by omega)] at hlast
  cases hlast

namespace Machine

theorem atBoundary_iff {p : Program} {pc : Nat} :
    atBoundary p pc = true ↔ pc < p.code.length ∧ p.mask.getD pc false = true := by
  simp [atBoundary]

/-- A block start is offset 0 or an instruction boundary (spec/40_step.md R170). -/
theorem isBB_range {P : Params} {p : Program} {q : Int} (h : isBB P p q = true) :
    0 ≤ q ∧ q ≤ p.code.length := by
  simp only [isBB, isBlockStart, Bool.and_eq_true, Bool.or_eq_true, decide_eq_true_eq, beq_iff_eq,
    atBoundary_iff] at h
  obtain ⟨hq, hzero | ⟨⟨hlt, -⟩, -⟩⟩ := h
  all_goals omega

/-- A block start fits in the pc. -/
theorem toNat_ofInt_of_isBB {P : Params} {p : Program} {q : Int} (hp : p.wf = true) (h : isBB P p q = true) :
    ((BitVec.ofInt 32 q).toNat : Int) = q := by
  obtain ⟨-, hlen⟩ := (Program.wf_iff p).mp hp
  obtain ⟨hq, hle⟩ := isBB_range h
  rw [Config.maxU32] at hlen
  rw [BitVec.toNat_ofInt]
  omega

/-- At an instruction boundary the offset after the instruction is within the code, and fits in the pc. -/
theorem State.toNat_nextPC {s : State} (hp : s.prog.wf = true) (hb : atBoundary s.prog s.pc.toNat = true) :
    s.nextPC.toNat = s.pc.toNat + 1 + skip s.params s.prog.mask s.pc.toNat ∧
      s.nextPC.toNat ≤ s.prog.code.length := by
  obtain ⟨hmask, hlen⟩ := (Program.wf_iff s.prog).mp hp
  obtain ⟨hpc, -⟩ := atBoundary_iff.mp hb
  have hend := skip_le_length (P := s.params) (hmask.symm ▸ hpc)
  rw [Config.maxU32] at hlen
  rw [State.nextPC, BitVec.toNat_ofNat]
  omega

/-- An instruction that ends OK or HOST goes to the next one or to a block start. -/
theorem exec_pc {i : Instr} {s t : State} (h : exec i s = .next t) (hst : t.status = .ok ∨ t.status = .host) :
    t.pc = s.nextPC ∨ ∃ q, isBB s.params s.prog q = true ∧ t.pc = BitVec.ofInt 32 q := by
  cases exec_outcome h with
  | ok _ _ hpc => exact hpc
  | host x _ ht =>
    subst ht
    exact .inl rfl
  | trap _ ht =>
    subst ht
    simp at hst
  | fault c k _ _ ht =>
    subst ht
    simp at hst
  | badTarget off _ _ ht => rcases ht with rfl | ⟨r, x, -, rfl⟩ <;> simp at hst
  | badAddress a _ _ _ ht => rcases ht with rfl | ⟨r, b, x, y, -, rfl⟩ <;> simp at hst
  | halt _ ht => rcases ht with rfl | ⟨r, b, x, y, -, rfl⟩ <;> simp at hst

/-- A step from OK that ends OK or HOST was ready, and goes to the next instruction or to a block start. -/
theorem step_pc {s t : State} (hl : s.loaded = true) (hok : s.status = .ok) (h : step s = .next t)
    (hst : t.status = .ok ∨ t.status = .host) :
    s.Ready ∧ (t.pc = s.nextPC ∨ ∃ q, isBB s.params s.prog q = true ∧ t.pc = BitVec.ofInt 32 q) := by
  rcases step_cases hl with ⟨hne, -⟩ | ⟨-, -, hs⟩ | ⟨-, -, -, hs⟩ | ⟨-, e, -, hs⟩ | ⟨hready, i, -, hs⟩
  · exact absurd hok hne
  · cases hs.symm.trans h
    simp at hst
  · cases hs.symm.trans h
    simp at hst
  · cases hs.symm.trans h
    simp at hst
  · exact ⟨hready, exec_pc (s := s.charged) (hs.symm.trans h) hst⟩

end Machine

/-- Settles O30: the end of the instruction and every block start fit in the pc. -/
theorem pcStaysInCode : Obligations.PcStaysInCode := by
  intro s t hinv hl hok h hst
  obtain ⟨⟨-, -, hboundary, -⟩, hnext | ⟨q, hq, hpc⟩⟩ := Machine.step_pc hl hok h hst
  · rw [hnext]
    exact .inl (Machine.State.toNat_nextPC hinv.program hboundary)
  · rw [hpc, Machine.toNat_ofInt_of_isBB hinv.program hq]
    exact .inr hq

end Sys2Proof
end

section
/-! PROOFS. The register file as the host sees it (spec/10_state.md R35, R36): register by register, as a list, and as
the little-endian buffer of 104 bytes. The buffer and the register file determine each other byte by byte, so a write
through the buffer is a splice of the byte list. -/

namespace Sys2Proof

/-- Entry `k` of piece `i`, where a list is made of pieces of one length. -/
theorem getD_flatMap_of_length {α β : Type} {f : α → List β} {n : Nat} (hf : ∀ a, (f a).length = n) (d : β)
    {k : Nat} (hk : k < n) : ∀ (l : List α) (i : Nat) (hi : i < l.length),
      (l.flatMap f).getD (n * i + k) d = (f l[i]).getD k d := by
  intro l
  induction l with
  | nil =>
    intro i hi
    cases hi
  | cons a l ih =>
    intro i hi
    cases i with
    | zero =>
      rw [List.flatMap_cons, Nat.mul_zero, Nat.zero_add, List.getD_append _ _ _ _ (by rw [hf]; exact hk)]
      rfl
    | succ i =>
      have hshift : n * (i + 1) + k - n = n * i + k := by rw [Nat.mul_succ]; omega
      rw [List.flatMap_cons, List.getD_append_right _ _ _ _ (by rw [hf, Nat.mul_succ]; omega), hf, hshift,
        ih i (Nat.lt_of_succ_lt_succ hi)]
      rfl

/-- The entries of a list after `new` was written over its entries from `o` on. -/
theorem getD_splice {α : Type} (old new : List α) (o : Nat) (d : α) (h : o + new.length ≤ old.length) (j : Nat) :
    (old.take o ++ (new ++ old.drop (o + new.length))).getD j d =
      if o ≤ j ∧ j < o + new.length then new.getD (j - o) d else old.getD j d := by
  have hprefix : (old.take o).length = o := by rw [List.length_take]; omega
  by_cases hlow : j < o
  · rw [List.getD_append _ _ _ _ (by omega), if_neg (by omega)]
    simp [List.getD_eq_getElem?_getD, hlow]
  · rw [List.getD_append_right _ _ _ _ (by omega), hprefix]
    by_cases hmid : j < o + new.length
    · rw [List.getD_append _ _ _ _ (by omega), if_pos (by omega)]
    · have hback : o + new.length + (j - o - new.length) = j := by omega
      rw [List.getD_append_right _ _ _ _ (by omega), if_neg (by omega)]
      simp only [List.getD_eq_getElem?_getD, List.getElem?_drop, hback]

/-- Byte `k` of the `n` low bytes of a value. -/
theorem toNat_getD_leBytes {n k : Nat} (v : Nat) (hk : k < n) :
    ((leBytes n v).getD k 0).toNat = v / 256 ^ k % 256 := by
  have hlen : k < (leBytes n v).length := by rwa [leBytes_length]
  rw [List.getD_eq_getElem _ _ hlen, leBytes_getElem, BitVec.toNat_ofNat]

namespace Machine

/-! ## The buffer -/

theorem regBuffer_length (x : Vector Word 13) : (regBuffer x).length = 104 := by
  simp [regBuffer, List.length_flatMap]

/-- Every place of the buffer is byte `k` of some register `i`, at `8i + k`. -/
theorem exists_bufferIndex {j : Nat} (hj : j < 104) : ∃ (r : Reg) (k : Nat), k < 8 ∧ j = 8 * r.val + k :=
  ⟨⟨j / 8, by omega⟩, j % 8, Nat.mod_lt j (by decide), (Nat.div_add_mod j 8).symm⟩

/-- Byte `8i + k` of the buffer is byte `k` of register `i` (spec/10_state.md R35). -/
theorem toNat_regBuffer_getD (x : Vector Word 13) (r : Reg) {k : Nat} (hk : k < 8) :
    ((regBuffer x).getD (8 * r.val + k) 0).toNat = x[r.val].toNat / 256 ^ k % 256 := by
  have hpiece : ∀ v : Word, (leBytes 8 v.toNat).length = 8 := fun v => leBytes_length 8 v.toNat
  have hr : r.val < x.toList.length := by rw [Vector.length_toList]; exact r.isLt
  rw [regBuffer, getD_flatMap_of_length hpiece 0 hk _ _ hr, toNat_getD_leBytes _ hk, Vector.getElem_toList]

/-- A register that a buffer holds has the value of its 8 bytes. -/
theorem toNat_bufferRegs (buf : List Byte) (r : Reg) :
    (bufferRegs buf)[r.val].toNat = leNat ((buf.drop (8 * r.val)).take 8) := by
  have hlen : ((buf.drop (8 * r.val)).take 8).length ≤ 8 := List.length_take_le _ _
  have hlt : leNat ((buf.drop (8 * r.val)).take 8) < 2 ^ 64 :=
    calc leNat ((buf.drop (8 * r.val)).take 8)
        < 256 ^ ((buf.drop (8 * r.val)).take 8).length := leNat_lt _
      _ ≤ 256 ^ 8 := Nat.pow_le_pow_right (by decide) hlen
      _ = 2 ^ 64 := by decide
  rw [bufferRegs, Vector.getElem_ofFn, BitVec.toNat_ofNat, Nat.mod_eq_of_lt hlt]

/-- The registers that a buffer holds have the bytes of that buffer. -/
theorem regBuffer_bufferRegs_getD (buf : List Byte) {j : Nat} (hj : j < 104) :
    (regBuffer (bufferRegs buf)).getD j 0 = buf.getD j 0 := by
  obtain ⟨r, k, hk, rfl⟩ := exists_bufferIndex hj
  have hchunk : ((buf.drop (8 * r.val)).take 8).getD k 0 = buf.getD (8 * r.val + k) 0 := by
    rw [List.getD_eq_getElem?_getD, List.getElem?_take_of_lt hk, List.getElem?_drop, List.getD_eq_getElem?_getD]
  apply BitVec.eq_of_toNat_eq
  rw [toNat_regBuffer_getD _ r hk, toNat_bufferRegs, leNat_div_mod, hchunk]

/-! ## The commands -/

section

variable {s : State} (hl : s.loaded = true)
include hl

theorem whenLoaded_of_loaded {α : Type} (r : Reply α) : whenLoaded s r = r := if_pos hl

theorem getReg_eq (r : Reg) : getReg r.val s = .ok (s.reg r) := by
  rw [getReg, whenLoaded_of_loaded hl, dif_pos r.isLt]

theorem setRegCommand_eq (r : Reg) (v : Word) : setRegCommand r.val v s = .ok (s.setReg r v) := by
  rw [setRegCommand, whenLoaded_of_loaded hl, dif_pos r.isLt]

theorem getReg_of_ge {i : Nat} (hi : 12 < i) : getReg i s = .error .registerIndex := by
  rw [getReg, whenLoaded_of_loaded hl, dif_neg (by omega)]

theorem setRegCommand_of_ge {i : Nat} (hi : 12 < i) (v : Word) :
    setRegCommand i v s = .error .registerIndex := by
  rw [setRegCommand, whenLoaded_of_loaded hl, dif_neg (by omega)]

theorem copyFrom_eq (other : Vector Word 13) : copyFrom other s = .ok { s with x := other } :=
  whenLoaded_of_loaded hl _

theorem getAllU64_eq : getAllU64 s = .ok s.x.toList := whenLoaded_of_loaded hl _

/-- A write through the buffer that stays in it replaces those bytes. -/
theorem writeRegBuffer_eq {o : Nat} {bs : List Byte} (h : o + bs.length ≤ 104) :
    writeRegBuffer o bs s = .ok { s with
      x := bufferRegs ((regBuffer s.x).take o ++ (bs ++ (regBuffer s.x).drop (o + bs.length))) } := by
  rw [writeRegBuffer, whenLoaded_of_loaded hl, if_pos (by rwa [regBufferSize])]

end

theorem State.toList_getD (s : State) (r : Reg) : s.x.toList.getD r.val 0 = s.reg r := by
  rw [List.getD_eq_getElem _ _ (by simp), Vector.getElem_toList]
  rfl

end Machine

open Machine

/-- Settles O59: each command by its equation on a loaded core, the buffer by its bytes. -/
theorem hostRegisterAccess : Obligations.HostRegisterAccess := by
  intro s hl
  refine ⟨getReg_eq hl, ?set, ?above, copyFrom_eq hl, ?all, regBuffer_length s.x,
    ?bytes, ?buffer⟩
  case set =>
    intro r v
    exact ⟨s.setReg r v, setRegCommand_eq hl r v, rfl, s.reg_setReg_self r v, fun q hq => s.reg_setReg_ne v hq⟩
  case above =>
    intro i v hi
    exact ⟨getReg_of_ge hl hi, setRegCommand_of_ge hl hi v⟩
  case all => exact ⟨s.x.toList, getAllU64_eq hl, Vector.length_toList, s.toList_getD⟩
  case bytes =>
    intro r k hk
    rw [pow_mul]
    exact toNat_regBuffer_getD s.x r hk
  case buffer =>
    intro o bs h
    refine ⟨_, writeRegBuffer_eq hl h, rfl, fun j hj => ?_⟩
    rw [regBuffer_bufferRegs_getD _ hj, getD_splice _ _ _ _ (by rwa [regBuffer_length])]

end Sys2Proof
end

section
/-! PROOFS. The memory unit (spec/20_memory.md R72–R77, R80, R81, R85, R90–R92, R96): one rule each for a read, a
write and a fault, with the addresses and values as the spec writes them, and from these the loads and stores, the
host's memory port, and what a step can do to a page. -/

namespace Sys2Proof.Machine

/-! ## The canonical form -/

theorem Memory.wf_iff (m : Memory) : m.wf = true ↔ m.pagesWf = true ∧ m.cellsWf = true := by
  simp [Memory.wf]

theorem Memory.sparseWf_pages {m : Memory} (h : m.wf = true) : sparseWf .unmapped m.pages = true := by
  obtain ⟨hpages, -⟩ := m.wf_iff.mp h
  rw [Memory.pagesWf, Bool.and_eq_true] at hpages
  exact hpages.1

theorem Memory.sparseWf_cells {m : Memory} (h : m.wf = true) : sparseWf 0 m.cells = true := by
  obtain ⟨-, hcells⟩ := m.wf_iff.mp h
  rw [Memory.cellsWf, Bool.and_eq_true] at hcells
  exact hcells.1

/-- A canonical memory is determined by its page states, its bytes and its heap registers. -/
theorem Memory.Same.eq {m m' : Memory} (h : m.Same m') (hwf : m.wf = true) (hwf' : m'.wf = true) : m = m' := by
  have hpages : m.pages = m'.pages :=
    sparse_ext (Memory.sparseWf_pages hwf) (Memory.sparseWf_pages hwf') fun p => (h.page p).symm
  have hcells : m.cells = m'.cells :=
    sparse_ext (Memory.sparseWf_cells hwf) (Memory.sparseWf_cells hwf') fun a => (h.byte a).symm
  obtain ⟨-, -, hstart, hend, hptr, htop⟩ := h
  cases m
  cases m'
  simp only at hpages hcells hstart hend hptr htop
  rw [hpages, hcells, hstart, hend, hptr, htop]

/-! ## Permissions (R73) -/

theorem Memory.canRead_iff (m : Memory) (a : Nat) :
    m.canRead a = true ↔
      m.pageState (a / Config.pageSize) = .readable ∨ m.pageState (a / Config.pageSize) = .writable := by
  rw [Memory.canRead]
  cases m.pageState (a / Config.pageSize) with
  | unmapped => decide
  | readable => decide
  | writable => decide

theorem Memory.canWrite_iff (m : Memory) (a : Nat) :
    m.canWrite a = true ↔ m.pageState (a / Config.pageSize) = .writable := beq_iff_eq

/-- The permission to read depends on the page table only. -/
theorem Memory.SameOutside.canRead {addr : Addr} {n : Nat} {m m' : Memory} (h : Memory.SameOutside addr n m m')
    (a : Nat) : m'.canRead a = m.canRead a := by
  rw [Memory.canRead, Memory.canRead, h.page]

/-! ## Reads (R75, R76, R80) -/

theorem Memory.readBytes_of_readable {m : Memory} {addr : Addr} {n : Nat}
    (h : ∀ k, k < n → m.canRead (accessAddr addr k) = true) :
    m.readBytes addr n = .ok ((accessAddrs addr n).map m.byte) := Memory.readBytes_eq_ok.mpr ⟨h, rfl⟩

theorem Memory.read_of_readable {m : Memory} {addr : Addr} {n : Nat}
    (h : ∀ k, k < n → m.canRead (accessAddr addr k) = true) : m.read addr n = .ok (m.valueAt addr n) :=
  Memory.read_eq_ok.mpr ⟨h, (leNat_accessAddrs m addr n).symm⟩

/-- A read faults at its first offence. -/
theorem Memory.readBytes_of_firstOffence {m : Memory} {addr : Addr} {n k : Nat}
    (h : m.FirstOffence ⟨addr, n, false⟩ k) :
    m.readBytes addr n = .error (.pageFault (addr + BitVec.ofNat 32 k) false) := by
  obtain ⟨hk, hfirst, hbefore⟩ := h
  rw [← ofNat_accessAddr]
  exact Memory.readBytes_eq_error.mpr ⟨k, hk, hfirst, hbefore, rfl⟩

theorem Memory.read_of_firstOffence {m : Memory} {addr : Addr} {n k : Nat}
    (h : m.FirstOffence ⟨addr, n, false⟩ k) :
    m.read addr n = .error (.pageFault (addr + BitVec.ofNat 32 k) false) :=
  Memory.read_eq_error.mpr (Memory.readBytes_of_firstOffence h)

/-! ## Writes (R75, R76, R81) -/

/-- Where every byte is writable, a write of bytes answers a memory that holds them and is otherwise as before. -/
theorem Memory.exists_writeBytes {m : Memory} {addr : Addr} {bs : List Byte} (hwf : m.wf = true)
    (hlen : bs.length ≤ Config.addrSpace) (h : ∀ k, k < bs.length → m.canWrite (accessAddr addr k) = true) :
    ∃ m', m.writeBytes addr bs = .ok m' ∧ m'.wf = true ∧ Memory.SameOutside addr bs.length m m' ∧
      ∀ k, k < bs.length → m'.byte (accessAddr addr k) = bs.getD k 0 := by
  obtain ⟨-, hcells⟩ := m.wf_iff.mp hwf
  have hw : m.writeBytes addr bs = .ok (m.setBytes ((accessAddrs addr bs.length).zip bs)) :=
    Memory.writeBytes_eq_ok.mpr ⟨h, rfl⟩
  refine ⟨_, hw, Memory.wf_writeBytes hw hwf, Memory.sameOutside_writeBytes hw, fun k hk => ?_⟩
  rw [Memory.writeBytes_stored hw hcells hlen hk, List.getD_eq_getElem _ _ hk]

/-- A write faults at its first offence. -/
theorem Memory.writeBytes_of_firstOffence {m : Memory} {addr : Addr} {bs : List Byte} {k : Nat}
    (h : m.FirstOffence ⟨addr, bs.length, true⟩ k) :
    m.writeBytes addr bs = .error (.pageFault (addr + BitVec.ofNat 32 k) true) := by
  obtain ⟨hk, hfirst, hbefore⟩ := h
  rw [← ofNat_accessAddr]
  exact Memory.writeBytes_eq_error.mpr ⟨k, hk, hfirst, hbefore, rfl⟩

theorem Memory.write_of_firstOffence {m : Memory} {addr : Addr} {n v k : Nat}
    (h : m.FirstOffence ⟨addr, n, true⟩ k) :
    m.write addr n v = .error (.pageFault (addr + BitVec.ofNat 32 k) true) := by
  rw [Memory.write]
  exact Memory.writeBytes_of_firstOffence (by rwa [leBytes_length])

/-- The weight of byte `k`, in bits and in bytes. -/
theorem two_pow_eight_mul (k : Nat) : 2 ^ (8 * k) = 256 ^ k := pow_mul 2 8 k

/-- Where every byte is writable, a write of a number stores its low bytes and nothing else. -/
theorem Memory.exists_write {m : Memory} {addr : Addr} {n : Nat} (v : Nat) (hwf : m.wf = true)
    (hlen : n ≤ Config.addrSpace) (h : ∀ k, k < n → m.canWrite (accessAddr addr k) = true) :
    ∃ m', m.write addr n v = .ok m' ∧ m'.wf = true ∧ Memory.SameOutside addr n m m' ∧
      ∀ k, k < n → (m'.byte (accessAddr addr k)).toNat = v / 2 ^ (8 * k) % 256 := by
  have hbytes := Memory.exists_writeBytes (addr := addr) (bs := leBytes n v) hwf
  rw [leBytes_length] at hbytes
  obtain ⟨m', hw, hwf', houtside, hstored⟩ := hbytes hlen h
  refine ⟨m', hw, hwf', houtside, fun k hk => ?_⟩
  rw [hstored k hk, toNat_getD_leBytes v hk, two_pow_eight_mul]

/-- The value at the address of a write is made of the low bytes of what was written (R77, R92). -/
theorem Memory.read_of_write {m m' : Memory} {addr : Addr} {n k v : Nat} (hwf : m.wf = true)
    (hlen : n ≤ Config.addrSpace) (hk : k ≤ n) (hw : m.write addr n v = .ok m') :
    m'.read addr k = .ok (v % 2 ^ (8 * k)) := by
  obtain ⟨-, hcells⟩ := m.wf_iff.mp hwf
  obtain ⟨hwritable, -⟩ := Memory.writeBytes_eq_ok.mp hw
  rw [leBytes_length] at hwritable
  have hreadable : ∀ i, i < k → m'.canRead (accessAddr addr i) = true := fun i hi => by
    rw [(Memory.sameOutside_writeBytes hw).canRead]
    exact Memory.canRead_of_canWrite (hwritable i (by omega))
  have hbytes : (accessAddrs addr k).map m'.byte = leBytes k v := by
    apply List.ext_getElem (by simp)
    intro i hi _
    rw [List.length_map, accessAddrs_length] at hi
    rw [List.getElem_map, accessAddrs_getElem, leBytes_getElem,
      Memory.writeBytes_stored hw hcells (by rwa [leBytes_length]) (by rw [leBytes_length]; omega),
      leBytes_getElem]
  refine Memory.read_eq_ok.mpr ⟨hreadable, ?_⟩
  rw [hbytes, leNat_leBytes, two_pow_eight_mul]

/-! ## Loads and stores -/

/-- An instruction with a data access loads or stores there, as the access says. -/
theorem exec_of_accessOf {i : Instr} {s : State} {c : Access} (h : accessOf i s = some c) :
    (c.isWrite = false ∧ ∃ ext rd, exec i s = loadInto c.width ext rd c.addr s) ∨
      (c.isWrite = true ∧ ∃ v, exec i s = storeAt c.width c.addr v s) := by
  cases exec_cases i s with
  | load c' ext rd ha hw he =>
    cases ha.symm.trans h
    exact .inl ⟨hw, ext, rd, he⟩
  | store c' v ha hw he =>
    cases ha.symm.trans h
    exact .inr ⟨hw, v, he⟩
  | plain _ _ _ ha => cases ha.symm.trans h
  | jump _ _ _ _ _ ha => cases ha.symm.trans h
  | dynamic _ _ _ _ _ ha => cases ha.symm.trans h
  | trap hi =>
    subst hi
    cases h
  | ecalli x hi =>
    subst hi
    cases h
  | sbrk rA rD hi =>
    subst hi
    cases h

/-- A load or store takes the FAULT of its first offence (R76; spec/60_exceptions.md R402). -/
theorem exec_of_firstOffence {i : Instr} {s : State} {c : Access} {k : Nat} (h : accessOf i s = some c)
    (hoff : s.mem.FirstOffence c k) :
    exec i s = .next (takeException (.fault (c.addr + BitVec.ofNat 32 k) c.isWrite) s) := by
  obtain ⟨hk, hfirst, hbefore⟩ := hoff
  rw [← ofNat_accessAddr]
  rcases exec_of_accessOf h with ⟨hw, ext, rd, he⟩ | ⟨hw, v, he⟩
  · rw [hw] at hfirst hbefore ⊢
    exact he.trans (loadInto_fault hk hfirst hbefore)
  · rw [hw] at hfirst hbefore ⊢
    exact he.trans (storeAt_fault hk hfirst hbefore)

/-! ## The host's memory port and the page dump (R90, R91) -/

section

variable {s : State} (hl : s.loaded = true)
include hl

theorem storeFrom_of_ok {addr : Addr} {bs : List Byte} {m : Memory} (hlen : bs.length ≤ Config.addrSpace)
    (h : s.mem.writeBytes addr bs = .ok m) : storeFrom addr bs s = .ok (.ok { s with mem := m }) := by
  rw [storeFrom, whenLoaded_of_loaded hl, if_pos hlen, h]

theorem storeFrom_of_error {addr : Addr} {bs : List Byte} {f : Fault} (hlen : bs.length ≤ Config.addrSpace)
    (h : s.mem.writeBytes addr bs = .error f) : storeFrom addr bs s = .ok (.error f) := by
  rw [storeFrom, whenLoaded_of_loaded hl, if_pos hlen, h]

theorem storeFrom_of_lt_length {addr : Addr} {bs : List Byte} (hlen : Config.addrSpace < bs.length) :
    storeFrom addr bs s = .error .accessTooLong := by
  rw [storeFrom, whenLoaded_of_loaded hl, if_neg (Nat.not_le.mpr hlen)]

theorem loadIntoBuffer_eq {n : Nat} (addr : Addr) (hn : n ≤ Config.addrSpace) :
    loadIntoBuffer n addr s = .ok (s.mem.readBytes addr n) := by
  rw [loadIntoBuffer, whenLoaded_of_loaded hl, if_pos hn]

theorem loadIntoBuffer_of_lt {n : Nat} (addr : Addr) (hn : Config.addrSpace < n) :
    loadIntoBuffer n addr s = .error .accessTooLong := by
  rw [loadIntoBuffer, whenLoaded_of_loaded hl, if_neg (Nat.not_le.mpr hn)]

theorem getPageDump_of_mapped {p : Nat} (hp : p < Config.numPages) (h : s.mem.pageState p ≠ .unmapped) :
    getPageDump p s = .ok (some (s.mem.pageBytes p)) := by
  rw [getPageDump, whenLoaded_of_loaded hl, if_pos ⟨hp, h⟩]

theorem getPageDump_of_not_mapped {p : Nat} (h : ¬(p < Config.numPages ∧ s.mem.pageState p ≠ .unmapped)) :
    getPageDump p s = .ok none := by
  rw [getPageDump, whenLoaded_of_loaded hl, if_neg h]

end

/-- A fault on the port changes nothing in the core. -/
theorem apply_storeFrom_of_error {addr : Addr} {bs : List Byte} {s : State} {f : Fault}
    (h : storeFrom addr bs s = .ok (.error f)) : Command.apply (.storeFrom addr bs) s = .ok s := by
  rw [Command.apply, h]

theorem getD_map_accessAddrs {α : Type} (f : Nat → α) (d : α) (addr : Addr) {n k : Nat} (hk : k < n) :
    ((accessAddrs addr n).map f).getD k d = f (accessAddr addr k) := by
  rw [List.getD_eq_getElem _ _ (by simpa using hk), List.getElem_map, accessAddrs_getElem]

theorem Memory.pageBytes_length (m : Memory) (p : Nat) : (m.pageBytes p).length = Config.pageSize := by
  rw [Memory.pageBytes, List.length_map, List.length_range]

theorem Memory.pageBytes_getD (m : Memory) (p : Nat) {k : Nat} (hk : k < Config.pageSize) :
    (m.pageBytes p).getD k 0 = m.byte (Config.pageSize * p + k) := by
  rw [List.getD_eq_getElem _ _ (by rwa [Memory.pageBytes_length]), Nat.mul_comm Config.pageSize]
  simp only [Memory.pageBytes, List.getElem_map, List.getElem_range]

/-! ## What a step can do to a page (R73, R85) -/

/-- Permissions only grow: the Readable pages and their bytes stay as they are, and a Writable page stays so. -/
structure Memory.Grows (m m' : Memory) : Prop where
  readable : ∀ p, m'.pageState p = .readable ↔ m.pageState p = .readable
  writable : ∀ p, m.pageState p = .writable → m'.pageState p = .writable
  byte : ∀ a, m.pageState (a / Config.pageSize) = .readable → m'.byte a = m.byte a

theorem Memory.grows_refl (m : Memory) : m.Grows m := ⟨fun _ => Iff.rfl, fun _ h => h, fun _ _ => rfl⟩

/-- A write changes bytes of Writable pages only. -/
theorem Memory.grows_writeBytes {m m' : Memory} {addr : Addr} {bs : List Byte}
    (h : m.writeBytes addr bs = .ok m') : m.Grows m' := by
  obtain ⟨hwritable, -⟩ := Memory.writeBytes_eq_ok.mp h
  have houtside := Memory.sameOutside_writeBytes h
  refine ⟨fun p => by rw [houtside.page], fun p hp => by rw [houtside.page, hp], fun a ha => ?_⟩
  apply houtside.byte
  rintro k hk rfl
  have hpage := (m.canWrite_iff _).mp (hwritable k hk)
  cases ha.symm.trans hpage

/-- A heap growth changes Unmapped pages only, and makes them Writable. -/
theorem Memory.grows_sbrk {m m' : Memory} {limit n old : Nat} (h : m.sbrk limit n = .grown old m') : m.Grows m' := by
  obtain ⟨-, -, hunmapped, rfl⟩ := Memory.sbrk_eq_grown h
  set first := m.heapTop / Config.pageSize
  set count := alignUp (m.heapPtr + n) / Config.pageSize - first with hcount
  have hnew : ∀ p, first ≤ p ∧ p < first + count → m.pageState p = .unmapped :=
    fun p hp => hunmapped p hp.1 (by omega)
  have hpage := m.mapPages_pageState (st := .writable) (by decide) first count
  refine ⟨fun p => ?readable, fun p hp => ?writable, fun a ha => ?byte⟩
  case readable =>
    change (m.mapPages .writable first count).pageState p = .readable ↔ _
    rw [hpage]
    split
    · rename_i hp
      simp [hnew p hp]
    · exact Iff.rfl
  case writable =>
    change (m.mapPages .writable first count).pageState p = .writable
    rw [hpage, hp, ite_self]
  case byte =>
    change (m.mapPages .writable first count).byte a = m.byte a
    rw [Memory.mapPages_byte, if_neg]
    intro hp
    cases ha.symm.trans (hnew _ hp)

theorem Memory.StepsTo.grows {m m' : Memory} {limit : Nat} (h : m.StepsTo limit m') : m.Grows m' := by
  rcases h with rfl | ⟨addr, bs, hw⟩ | ⟨n, old, hgrown⟩
  · exact Memory.grows_refl _
  · exact Memory.grows_writeBytes hw
  · exact Memory.grows_sbrk hgrown

end Sys2Proof.Machine

namespace Sys2Proof

open Machine

/-- Settles O29: a step leaves memory alone, writes Writable pages, or maps Unmapped ones. -/
theorem pagePermissionsOnlyGrow : Obligations.PagePermissionsOnlyGrow := by
  intro s t h
  obtain ⟨hreadable, hwritable, hbyte⟩ := (step_memory h).grows
  exact ⟨hreadable, hwritable, hbyte⟩

/-- Settles O33: the page check, the value of a permitted read, and the fault of one with a first offence. -/
theorem memReadSpec : Obligations.MemReadSpec := fun m _ _ =>
  ⟨m.canRead_iff, Memory.read_of_readable, fun _ hk hfirst hbefore =>
    Memory.read_of_firstOffence ⟨hk, hfirst, hbefore⟩⟩

/-- Settles O34: the page check, the effect of a permitted write, and the fault of one with a first offence. -/
theorem memWriteSpec : Obligations.MemWriteSpec := fun m _ _ v hwf =>
  ⟨m.canWrite_iff, Memory.exists_write v hwf, fun _ hk hfirst hbefore =>
    Memory.write_of_firstOffence ⟨hk, hfirst, hbefore⟩⟩

/-- Settles O35: the bytes at the address are the low bytes of the value, on pages that stay readable. -/
theorem loadAfterStore : Obligations.LoadAfterStore :=
  fun _ _ _ _ _ _ hwf hlen hk hw => Memory.read_of_write hwf hlen hk hw

/-- Settles O36: both sparse maps of a canonical memory are determined by what they read. -/
theorem canonicalMemoriesAreEqual : Obligations.CanonicalMemoriesAreEqual :=
  fun _ _ hwf hwf' hsame => hsame.eq hwf hwf'

/-- Settles O53: the access is a load or a store, and either takes the FAULT of its first offence. -/
theorem accessFaults : Obligations.AccessFaults :=
  fun _ s _ _ h hoff => ⟨_, exec_of_firstOffence h hoff, s.ended_fault _ _⟩

/-- Settles O60: the port by the rules of reads and writes, the page dump by its equations. -/
theorem hostMemoryAccess : Obligations.HostMemoryAccess := by
  intro s hl hwf
  refine ⟨?store, ?storeFault, ?load, ?loadFault, fun _ _ => storeFrom_of_lt_length hl,
    fun addr _ => loadIntoBuffer_of_lt hl addr, ?noPage, ?unmapped, ?dump⟩
  case store =>
    intro addr bs hlen h
    obtain ⟨m', hw, -, houtside, hstored⟩ := Memory.exists_writeBytes hwf hlen h
    exact ⟨m', storeFrom_of_ok hl hlen hw, houtside, hstored⟩
  case storeFault =>
    intro addr bs k hlen hoff
    have hfault := storeFrom_of_error hl hlen (Memory.writeBytes_of_firstOffence hoff)
    exact ⟨hfault, apply_storeFrom_of_error hfault⟩
  case load =>
    intro addr n hn h
    refine ⟨_, (loadIntoBuffer_eq hl addr hn).trans (congrArg _ (Memory.readBytes_of_readable h)), by simp, ?_⟩
    exact fun k hk => getD_map_accessAddrs _ _ addr hk
  case loadFault =>
    intro addr n k hn hoff
    rw [loadIntoBuffer_eq hl addr hn, Memory.readBytes_of_firstOffence hoff]
  case noPage => exact fun p hp => getPageDump_of_not_mapped hl fun h => absurd h.1 (Nat.not_lt.mpr hp)
  case unmapped => exact fun p hp => getPageDump_of_not_mapped hl fun h => h.2 hp
  case dump =>
    exact fun p hp h => ⟨_, getPageDump_of_mapped hl hp h, s.mem.pageBytes_length p,
      fun k hk => s.mem.pageBytes_getD p hk⟩

end Sys2Proof
end

section
/-! PROOFS. Decode of encode (spec/30_encoding.md R118, R131–R143, R149). The argument decoder restricts the encoded
arguments to the shape, whatever they are; an instruction whose arguments fit the shape is then rebuilt by its row. -/

namespace Sys2Proof

/-! ## Decoding the operand bytes -/

theorem lenRest_of_le {P : Params} {n l used : Nat} (h : n ≤ P.maxImm) (hl : l = used + n) : lenRest P l used = n := by
  rw [lenRest, hl, Nat.add_sub_cancel_left, Nat.min_eq_right h]

theorem Params.maxImm_le {P : Params} (hP : P.wf = true) : P.maxImm ≤ 7 := by
  simp only [Params.wf, Bool.and_eq_true, decide_eq_true_eq] at hP
  exact hP.1

/-- A length that stands in the low nibble of a byte. -/
theorem lenField_nibbles {P : Params} {n : Nat} (hP : P.wf = true) (h : n ≤ P.maxImm) :
    lenField P (nibbles n 0).toNat = n := by
  have hmax := Params.maxImm_le hP
  rw [nibbles_zero (by omega), lenField_of_le hP h]

/-- A length that stands in the high nibble of a byte, over a register. -/
theorem lenField_hi_nibbles {P : Params} {n : Nat} (hP : P.wf = true) (h : n ≤ P.maxImm) (r : Reg) :
    lenField P (hi (nibbles r n).toNat) = n := by
  have hmax := Params.maxImm_le hP
  rw [hi_nibbles (reg_lt r) (by omega), lenField_of_le hP h]

@[simp] theorem regOf_lo_nibbles (r : Reg) (n : Nat) : regOf (lo (nibbles r n).toNat) = r := by
  rw [lo_nibbles (reg_lt r), regOf_val]

@[simp] theorem regOf_hi_nibbles (r r' : Reg) : regOf (hi (nibbles r r').toNat) = r' := by
  rw [hi_nibbles (reg_lt r) (reg_lt r'), regOf_val]

@[simp] theorem regOf_nibbles_zero (r : Reg) : regOf (nibbles r 0).toNat = r := by
  rw [nibbles_zero (reg_lt r), regOf_val]

/-- The 8-byte immediate of R133 reads back whole. -/
theorem ofNat_fieldAt_leBytes (v : Word) (rest : List Byte) :
    BitVec.ofNat 64 (fieldAt (leBytes 8 v.toNat ++ rest) 0 8) = v := by
  rw [fieldAt_leBytes, Nat.mod_eq_of_lt (b := 256 ^ 8) v.isLt, BitVec.ofNat_toNat, BitVec.setWidth_eq]

/-- A variable field is read back wherever it stands. -/
theorem immAt_at {P : Params} {n o : Nat} {v : Word} (h : immFits P n v = true) (a rest : List Byte)
    (ho : o = a.length) : immAt (a ++ (leBytes n v.toNat ++ rest)) o n = v := by
  rw [ho, ← Nat.add_zero a.length, immAt_append_right, immAt_leBytes h]

theorem offAt_at {P : Params} {n o : Nat} {t : Int} (h : offFits P n t = true) (a rest : List Byte)
    (ho : o = a.length) : offAt (a ++ (leBytes n (u64 t).toNat ++ rest)) o n = t := by
  rw [ho, ← Nat.add_zero a.length, offAt_append_right, offAt_leBytes h]

/-- A second variable field is read back behind the bytes `x` of the first. -/
theorem immAt_behind {P : Params} {n o : Nat} {v : Word} (h : immFits P n v = true) (a x rest : List Byte)
    (ho : o = a.length + x.length) : immAt (a ++ (x ++ (leBytes n v.toNat ++ rest))) o n = v := by
  rw [← List.append_assoc, immAt_at h _ _ (by rw [ho, List.length_append])]

theorem offAt_behind {P : Params} {n o : Nat} {t : Int} (h : offFits P n t = true) (a x rest : List Byte)
    (ho : o = a.length + x.length) : offAt (a ++ (x ++ (leBytes n (u64 t).toNat ++ rest))) o n = t := by
  rw [← List.append_assoc, offAt_at h _ _ (by rw [ho, List.length_append])]

/-- The lengths of the operand bytes of a shape (spec/30_encoding.md R131–R143): those before the last variable field,
and that field. -/
theorem encodeArgs_length (sh : Shape) (lX lY : Nat) (a : Args) : (encodeArgs sh lX lY a).length =
    match sh with
    | .noArguments => 0
    | .oneImmediate | .oneOffset => 0 + lX
    | .oneRegisterOneExtendedImmediate => 9
    | .oneRegisterOneImmediate | .twoRegistersOneImmediate | .twoRegistersOneOffset => 1 + lX
    | .twoImmediates | .oneRegisterTwoImmediates | .oneRegisterOneImmediateOneOffset => lX + 1 + lY
    | .twoRegistersTwoImmediates => lX + 2 + lY
    | .twoRegisters => 1
    | .threeRegisters => 2 := by
  cases sh <;> simp [encodeArgs] <;> omega

/-- Arguments that fit a shape are those of the shape, and each variable field holds its operand. -/
theorem Args.fits_iff {P : Params} {sh : Shape} {lX lY : Nat} {a : Args} :
    a.fits P sh lX lY = true ↔ a.restrict sh = a ∧ match sh with
      | .noArguments | .oneRegisterOneExtendedImmediate | .twoRegisters | .threeRegisters => True
      | .oneImmediate | .oneRegisterOneImmediate | .twoRegistersOneImmediate => immFits P lX a.immX = true
      | .twoImmediates | .oneRegisterTwoImmediates | .twoRegistersTwoImmediates =>
        immFits P lX a.immX = true ∧ immFits P lY a.immY = true
      | .oneOffset | .twoRegistersOneOffset => offFits P lX a.off = true
      | .oneRegisterOneImmediateOneOffset => immFits P lX a.immX = true ∧ offFits P lY a.off = true := by
  cases sh <;> simp [Args.fits]

theorem decodeArgs_encodeArgs {P : Params} {sh : Shape} {lX lY : Nat} {a : Args} (hP : P.wf = true)
    (h : a.fits P sh lX lY = true) (b : Byte) (rest : List Byte) :
    decodeArgs P sh (b :: (encodeArgs sh lX lY a ++ rest)) (encodeArgs sh lX lY a).length = a := by
  obtain ⟨hrestrict, hfits⟩ := Args.fits_iff.mp h
  refine Eq.trans ?_ hrestrict
  clear h hrestrict
  generalize hl : (encodeArgs sh lX lY a).length = l
  rw [encodeArgs_length] at hl
  cases sh with (
    simp only at hfits hl
    simp only [decodeArgs, encodeArgs, Args.restrict, List.cons_append, List.append_assoc, List.nil_append,
      Args.mk.injEq, byteAt_cons_succ, byteAt_cons_zero, regOf_lo_nibbles, regOf_hi_nibbles, regOf_nibbles_zero,
      and_self, true_and, and_true])
  | oneImmediate =>
    rw [lenRest_of_le (immFits_le hfits) hl.symm]
    exact immAt_at hfits [b] rest rfl
  | oneRegisterOneExtendedImmediate =>
    rw [fieldAt_cons_succ, fieldAt_cons_succ, ofNat_fieldAt_leBytes]
  | twoImmediates =>
    obtain ⟨hX, hY⟩ := hfits
    rw [lenField_nibbles hP (immFits_le hX), lenRest_of_le (immFits_le hY) hl.symm]
    exact ⟨immAt_at hX [b, _] _ rfl, immAt_behind hY [b, _] _ rest (by simp)⟩
  | oneOffset =>
    rw [lenRest_of_le (offFits_le hfits) hl.symm]
    exact offAt_at hfits [b] rest rfl
  | oneRegisterOneImmediate =>
    rw [lenRest_of_le (immFits_le hfits) hl.symm]
    exact immAt_at hfits [b, _] rest rfl
  | oneRegisterTwoImmediates =>
    obtain ⟨hX, hY⟩ := hfits
    rw [lenField_hi_nibbles hP (immFits_le hX), lenRest_of_le (immFits_le hY) hl.symm]
    exact ⟨immAt_at hX [b, _] _ rfl, immAt_behind hY [b, _] _ rest (by simp)⟩
  | oneRegisterOneImmediateOneOffset =>
    obtain ⟨hX, hY⟩ := hfits
    rw [lenField_hi_nibbles hP (immFits_le hX), lenRest_of_le (offFits_le hY) hl.symm]
    exact ⟨immAt_at hX [b, _] _ rfl, offAt_behind hY [b, _] _ rest (by simp)⟩
  | twoRegistersOneImmediate =>
    rw [lenRest_of_le (immFits_le hfits) hl.symm]
    exact immAt_at hfits [b, _] rest rfl
  | twoRegistersOneOffset =>
    rw [lenRest_of_le (offFits_le hfits) hl.symm]
    exact offAt_at hfits [b, _] rest rfl
  | twoRegistersTwoImmediates =>
    obtain ⟨hX, hY⟩ := hfits
    rw [lenField_nibbles hP (immFits_le hX), lenRest_of_le (immFits_le hY) hl.symm]
    exact ⟨immAt_at hX [b, _, _] _ rfl, immAt_behind hY [b, _, _] _ rest (by simp)⟩

theorem encodeArgs_length_le {P : Params} {sh : Shape} {lX lY : Nat} {a : Args} (hP : P.wf = true)
    (h : a.fits P sh lX lY = true) : (encodeArgs sh lX lY a).length ≤ 24 := by
  have hmax := Params.maxImm_le hP
  obtain ⟨-, hfits⟩ := Args.fits_iff.mp h
  rw [encodeArgs_length]
  cases sh with simp only at hfits ⊢
  | noArguments | oneRegisterOneExtendedImmediate | twoRegisters | threeRegisters => decide
  | oneImmediate | oneRegisterOneImmediate | twoRegistersOneImmediate =>
    have := immFits_le hfits
    omega
  | oneOffset | twoRegistersOneOffset =>
    have := offFits_le hfits
    omega
  | twoImmediates | oneRegisterTwoImmediates | twoRegistersTwoImmediates =>
    have := immFits_le hfits.1
    have := immFits_le hfits.2
    omega
  | oneRegisterOneImmediateOneOffset =>
    have := immFits_le hfits.1
    have := offFits_le hfits.2
    omega

/-! ## Decoding the instruction -/

/-- A row for the number of an instruction rebuilds it, whatever shape the table gives the row. -/
theorem Params.row_build_args {P : Params} {op : Nat} {r : OpRow} {i : Instr} (hrow : P.row op = some r)
    (hop : r.op = i.opcode) : r.build i.args = i := by
  obtain ⟨r', hr', hr⟩ := Params.row_eq_some hrow
  obtain ⟨r'', hr'', -, hbuild⟩ := findRow_opcode i
  rw [hop] at hr'
  cases hr'.symm.trans hr''
  rw [hr]
  exact hbuild

theorem decodeBytes_of_row {P : Params} {bs : List Byte} {l : Nat} {r : OpRow} (h : P.row (byteAt bs 0) = some r) :
    decodeBytes P bs l = .ok (r.build (decodeArgs P r.shape bs l)) := by
  rw [decodeBytes, h]

theorem decodeBytes_encodeAs {P : Params} {op : Nat} {r : OpRow} {i : Instr} {lX lY : Nat} (rest : List Byte)
    (hP : P.wf = true) (hop : op < 256) (hrow : P.row op = some r) (hi : r.op = i.opcode)
    (hfits : i.args.fits P r.shape lX lY = true) :
    decodeBytes P (encodeAs op r.shape lX lY i ++ rest) ((encodeAs op r.shape lX lY i).length - 1) = .ok i := by
  have hbyte : byteAt (encodeAs op r.shape lX lY i ++ rest) 0 = op := by
    rw [encodeAs, List.cons_append, byteAt_cons_zero, BitVec.toNat_ofNat, Nat.mod_eq_of_lt hop]
  rw [decodeBytes_of_row (hbyte.symm ▸ hrow), encodeAs, List.cons_append, List.length_cons, Nat.add_sub_cancel,
    decodeArgs_encodeArgs hP hfits, Params.row_build_args hrow hi]

/-- Settles O1: the opcode byte selects the row, the row's shape reads the arguments back, and they rebuild the
instruction. -/
theorem decodeOfEncodeAs : Obligations.DecodeOfEncodeAs :=
  fun _ _ _ _ _ _ rest hP hop hrow hi hfits =>
    ⟨Nat.succ_le_succ (encodeArgs_length_le hP hfits), decodeBytes_encodeAs rest hP hop hrow hi hfits⟩

end Sys2Proof
end

section
/-! PROOFS. The range of what the decoder answers, and the shortest encoding (spec/30_encoding.md R119, R123, R124, R128,
R149). An immediate or offset read from `n` bytes is in range of every length from `n` to `MAX_IMM`, and the fields that
a shape lacks are 0, which is in range of every length. -/

namespace Sys2Proof

/-! ## Operands in range -/

/-- The low bits of a register value hold the integer mod 2^m. -/
theorem ofNat_toNat_u64 {m : Nat} (hm : m ≤ 64) (i : Int) : BitVec.ofNat m (u64 i).toNat = BitVec.ofInt m i := by
  have hdvd : (2 : Int) ^ m ∣ 2 ^ 64 := pow_dvd_pow 2 hm
  apply BitVec.eq_of_toNat_eq
  zify
  rw [BitVec.toNat_ofNat, BitVec.toNat_ofInt, Int.toNat_of_nonneg (Int.emod_nonneg i (by positivity))]
  push_cast
  rw [toNat_u64, Int.emod_emod_of_dvd i hdvd]

/-- A signed number of `n` bits is its own reading at every width from `n` to 64. -/
theorem signedOf_signedOf {n m : Nat} (hnm : n ≤ m) (hm : m ≤ 64) (v : Nat) :
    signedOf m (u64 (signedOf n v)).toNat = signedOf n v := by
  have hext : BitVec.ofNat m (u64 (signedOf n v)).toNat = (BitVec.ofNat n v).signExtend m := ofNat_toNat_u64 hm _
  rw [signedOf, hext, BitVec.toInt_signExtend_of_le hnm, signedOf]

/-- What a field of at most `MAX_IMM` bytes reads as is in range. -/
theorem immOk_immAt {P : Params} (hP : P.wf = true) {n : Nat} (hn : n ≤ P.maxImm) (bs : List Byte) (o : Nat) :
    immOk P (immAt bs o n) = true := by
  have hmax := Params.maxImm_le hP
  rw [immOk, beq_iff_eq, immAt, sext_eq_u64_signedOf, sext_eq_u64_signedOf, signedOf_signedOf (by omega) (by omega)]

theorem offOk_offAt {P : Params} (hP : P.wf = true) {n : Nat} (hn : n ≤ P.maxImm) (bs : List Byte) (o : Nat) :
    offOk P (offAt bs o n) = true := by
  have hmax := Params.maxImm_le hP
  rw [offOk, beq_iff_eq, offAt, signedOf_signedOf (by omega) (by omega)]

theorem signedOf_zero (n : Nat) : signedOf n 0 = 0 := by rw [signedOf, BitVec.toInt_zero]

@[simp] theorem immOk_zero (P : Params) : immOk P 0#64 = true := by
  rw [immOk, BitVec.toNat_zero, sext_eq_u64_signedOf, signedOf_zero]
  rfl

@[simp] theorem offOk_zero (P : Params) : offOk P 0 = true := by
  rw [offOk, show (u64 0).toNat = 0 from rfl, signedOf_zero]
  rfl

theorem lenField_le (P : Params) (b : Nat) : lenField P b ≤ P.maxImm := Nat.min_le_left _ _

theorem lenRest_le (P : Params) (l used : Nat) : lenRest P l used ≤ P.maxImm := Nat.min_le_left _ _

/-- Every operand but the 8-byte immediate of R133 is in range. -/
def Args.InRange (P : Params) (sh : Shape) (a : Args) : Prop :=
  (sh ≠ .oneRegisterOneExtendedImmediate → immOk P a.immX = true) ∧ immOk P a.immY = true ∧ offOk P a.off = true

/-- Arguments are well formed in a shape if it has their fields and they are in range: a field that the shape lacks is 0,
which is in range. -/
theorem Args.wf_iff {P : Params} {sh : Shape} {a : Args} :
    a.wf P sh = true ↔ a.restrict sh = a ∧ a.InRange P sh := by
  unfold Args.wf
  rw [Bool.and_eq_true, beq_iff_eq]
  refine and_congr_right fun h => ?_
  rw [← h]
  cases sh <;> simp [Args.InRange, Args.restrict]

/-- Restriction leaves a field or makes it 0. -/
theorem Args.InRange.restrict {P : Params} {sh : Shape} {a : Args} (h : a.InRange P sh) (sh' : Shape) :
    (a.restrict sh').InRange P sh := by
  obtain ⟨hX, hY, hO⟩ := h
  cases sh' <;> simp [Args.InRange, Args.restrict, hY, hO] <;> assumption

theorem Args.restrict_comm (sh sh' : Shape) (a : Args) :
    (a.restrict sh').restrict sh = (a.restrict sh).restrict sh' := by
  cases sh <;> cases sh' <;> rfl

theorem Args.wf_restrict {P : Params} {sh : Shape} {a : Args} (h : a.wf P sh = true) (sh' : Shape) :
    (a.restrict sh').wf P sh = true := by
  obtain ⟨hrestrict, hrange⟩ := Args.wf_iff.mp h
  exact Args.wf_iff.mpr ⟨by rw [Args.restrict_comm, hrestrict], hrange.restrict sh'⟩

theorem decodeArgs_wf {P : Params} (hP : P.wf = true) (sh : Shape) (bs : List Byte) (l : Nat) :
    (decodeArgs P sh bs l).wf P sh = true := by
  have hrestrict : (decodeArgs P sh bs l).restrict sh = decodeArgs P sh bs l := by cases sh <;> rfl
  refine Args.wf_iff.mpr ⟨hrestrict, ?_⟩
  cases sh <;> simp [Args.InRange, decodeArgs, immOk_immAt hP, offOk_offAt hP, lenField_le, lenRest_le]

/-! ## What an opcode byte stands for -/

/-- A row of the opcode map builds an instruction of the row's shape, from the fields of that shape. -/
theorem findRow_build {n : Nat} {r : OpRow} (h : findRow n = some r) (a : Args) :
    (r.build a).shape = r.shape ∧ (r.build a).args = a.restrict r.shape := by
  have hall : ∀ r ∈ opTable, (r.build a).args = a.restrict r.shape := by
    simp only [opTable, opRows1, opRows2, opRows3, opRows4, List.forall_mem_append, List.forall_mem_cons]
    refine ⟨⟨⟨?_, ?_⟩, ?_⟩, ?_⟩ <;> (repeat' refine And.intro rfl ?_) <;> exact List.forall_mem_nil _
  obtain ⟨hop, hopcode⟩ := findRow_op h
  obtain ⟨r', hr', hshape, -⟩ := findRow_opcode (r.build a)
  rw [hopcode] at hr'
  cases hr'.symm.trans h
  exact ⟨hshape.symm, hall r (List.mem_of_find?_eq_some h)⟩

/-- What the decoder answers was built by the row of the first byte. -/
theorem decodeBytes_eq_ok {P : Params} {bs : List Byte} {l : Nat} {i : Instr} (h : decodeBytes P bs l = .ok i) :
    ∃ r, P.row (byteAt bs 0) = some r ∧ i = r.build (decodeArgs P r.shape bs l) := by
  unfold decodeBytes at h
  split at h
  · cases h
  · cases h
    exact ⟨_, ‹_›, rfl⟩

/-- An instruction that a row builds has the number of the row, and the arguments restricted to its own shape. -/
theorem Params.row_build {P : Params} {op : Nat} {r : OpRow} (h : P.row op = some r) (a : Args) :
    (r.build a).opcode = r.op ∧ (r.build a).args = a.restrict (r.build a).shape := by
  obtain ⟨r', hr', hr⟩ := Params.row_eq_some h
  obtain ⟨hshape, hargs⟩ := findRow_build hr' a
  have hbuild : r.build = r'.build := by rw [hr]
  rw [hbuild, hshape]
  exact ⟨(findRow_op hr').2 a, hargs⟩

theorem Params.standsFor_iff {P : Params} {op n : Nat} :
    P.standsFor op n = true ↔ ∃ r, P.row op = some r ∧ r.op = n := by
  simp [Params.standsFor, Option.any_eq_true]

/-- If a byte stands for an instruction, then the encoder has an opcode for it. -/
theorem Params.opcodeOf_isSome {P : Params} {op n : Nat} (hop : op < 256) (h : P.standsFor op n = true) :
    (P.opcodeOf n).isSome = true := by
  unfold Params.opcodeOf
  split
  · rfl
  · rw [List.find?_isSome]
    exact ⟨op, List.mem_range.mpr hop, h⟩

theorem byteAt_lt (bs : List Byte) (i : Nat) : byteAt bs i < 256 := (bs.getD i 0).isLt

/-- What the decoder answers, in every opcode table. -/
theorem decodeBytes_wf {P : Params} {bs : List Byte} {l : Nat} {i : Instr} (hP : P.wf = true)
    (h : decodeBytes P bs l = .ok i) :
    ∃ r, P.row (byteAt bs 0) = some r ∧ r.op = i.opcode ∧ i.args.wf P r.shape = true ∧
      (P.opcodeOf i.opcode).isSome = true := by
  obtain ⟨r, hrow, rfl⟩ := decodeBytes_eq_ok h
  obtain ⟨hop, hargs⟩ := Params.row_build hrow (decodeArgs P r.shape bs l)
  have hstands := Params.standsFor_iff.mpr ⟨r, hrow, hop.symm⟩
  refine ⟨r, hrow, hop.symm, ?_, Params.opcodeOf_isSome (byteAt_lt bs 0) hstands⟩
  rw [hargs]
  exact Args.wf_restrict (decodeArgs_wf hP r.shape bs l) _

theorem Params.default_wf : Params.default.wf = true := by decide

/-- Settles O3: the row of the first byte builds the instruction, from operands that the shape's fields hold; in the
default table the row is that of the instruction itself. -/
theorem decodedIsWellFormed : Obligations.DecodedIsWellFormed := by
  refine ⟨fun P bs l i hP h => decodeBytes_wf hP h, fun bs l i h => ?_⟩
  obtain ⟨r, hrow, hop, hwf, -⟩ := decodeBytes_wf Params.default_wf h
  rw [row_default] at hrow
  obtain ⟨r', hr', hshape, -⟩ := findRow_opcode i
  have hopcode : i.opcode = byteAt bs 0 := hop.symm.trans (findRow_op hrow).1
  rw [hopcode, hrow] at hr'
  cases hr'
  exact ⟨by rw [Instr.wf, ← hshape, hwf], hopcode⟩

end Sys2Proof
end

section
/-! PROOFS. The encoder (spec/30_encoding.md R149): the least length that holds an operand, the lengths of an
instruction's fields, and the opcode that the table has for it. -/

namespace Sys2Proof

/-! ## The least length -/

/-- The least length is accepted if any length up to `MAX_IMM` can be taken. -/
theorem leastLen_accepted {P : Params} {p : Nat → Bool} (h : p P.maxImm = true) : p (leastLen P p) = true := by
  unfold leastLen
  cases hfind : (List.range P.maxImm).find? p with
  | none => exact h
  | some n => exact List.find?_some hfind

theorem leastLen_le {P : Params} {p : Nat → Bool} {n : Nat} (h : p n = true) :
    leastLen P p ≤ n := by
  unfold leastLen
  cases hfind : (List.range P.maxImm).find? p with
  | none =>
    have hnone := List.find?_range_eq_none.mp hfind n
    simpa [h] using hnone
  | some m =>
    obtain ⟨-, -, hleast⟩ := List.find?_range_eq_some.mp hfind
    have hn : ¬n < m := fun hlt => by simpa [h] using hleast n hlt
    exact Nat.not_lt.mp hn

theorem immFits_maxImm (P : Params) (v : Word) : immFits P P.maxImm v = immOk P v := by
  simp [immFits, immOk]

theorem offFits_maxImm (P : Params) (o : Int) : offFits P P.maxImm o = offOk P o := by
  simp [offFits, offOk]

theorem immFits_leastLen {P : Params} {v : Word} (h : immOk P v = true) :
    immFits P (leastLen P (immFits P · v)) v = true :=
  leastLen_accepted (p := (immFits P · v)) ((immFits_maxImm P v).trans h)

theorem offFits_leastLen {P : Params} {o : Int} (h : offOk P o = true) :
    offFits P (leastLen P (offFits P · o)) o = true :=
  leastLen_accepted (p := (offFits P · o)) ((offFits_maxImm P o).trans h)

theorem leastLen_immFits_le {P : Params} {n : Nat} {v : Word} (h : immFits P n v = true) :
    leastLen P (immFits P · v) ≤ n := leastLen_le (p := (immFits P · v)) h

theorem leastLen_offFits_le {P : Params} {n : Nat} {o : Int} (h : offFits P n o = true) :
    leastLen P (offFits P · o) ≤ n := leastLen_le (p := (offFits P · o)) h

/-! ## The lengths of the fields -/

theorem Args.fits_lens {P : Params} {sh : Shape} {a : Args} (h : a.wf P sh = true) :
    a.fits P sh (a.lens P sh).1 (a.lens P sh).2 = true := by
  unfold Args.wf at h
  rw [Bool.and_eq_true, beq_iff_eq] at h
  obtain ⟨hrestrict, hrange⟩ := h
  refine Args.fits_iff.mpr ⟨hrestrict, ?_⟩
  cases sh with simp only [Bool.and_eq_true] at hrange
  | noArguments | oneRegisterOneExtendedImmediate | twoRegisters | threeRegisters => trivial
  | oneImmediate | oneRegisterOneImmediate | twoRegistersOneImmediate => exact immFits_leastLen hrange
  | twoImmediates | oneRegisterTwoImmediates | twoRegistersTwoImmediates =>
    exact ⟨immFits_leastLen hrange.1, immFits_leastLen hrange.2⟩
  | oneOffset | twoRegistersOneOffset => exact offFits_leastLen hrange
  | oneRegisterOneImmediateOneOffset => exact ⟨immFits_leastLen hrange.1, offFits_leastLen hrange.2⟩

theorem Args.lens_le {P : Params} {sh : Shape} {lX lY : Nat} {a : Args} (h : a.fits P sh lX lY = true) :
    (a.lens P sh).1 ≤ lX ∧ (a.lens P sh).2 ≤ lY := by
  obtain ⟨-, hfits⟩ := Args.fits_iff.mp h
  cases sh with simp only at hfits
  | noArguments | oneRegisterOneExtendedImmediate | twoRegisters | threeRegisters =>
    exact ⟨Nat.zero_le _, Nat.zero_le _⟩
  | oneImmediate | oneRegisterOneImmediate | twoRegistersOneImmediate =>
    exact ⟨leastLen_immFits_le hfits, Nat.zero_le _⟩
  | twoImmediates | oneRegisterTwoImmediates | twoRegistersTwoImmediates =>
    exact ⟨leastLen_immFits_le hfits.1, leastLen_immFits_le hfits.2⟩
  | oneOffset | twoRegistersOneOffset => exact ⟨leastLen_offFits_le hfits, Nat.zero_le _⟩
  | oneRegisterOneImmediateOneOffset => exact ⟨leastLen_immFits_le hfits.1, leastLen_offFits_le hfits.2⟩

/-- Longer fields make longer encodings. -/
theorem encodeAs_length_mono {lX lY lX' lY' : Nat} (hX : lX ≤ lX') (hY : lY ≤ lY') (op : Nat) (sh : Shape) (i : Instr) :
    (encodeAs op sh lX lY i).length ≤ (encodeAs op sh lX' lY' i).length := by
  simp only [encodeAs, List.length_cons, encodeArgs_length]
  cases sh <;> simp only <;> omega

/-! ## The opcode and the shape -/

theorem Params.opcodeOf_lt {P : Params} {n op : Nat} (hn : n < 256) (h : P.opcodeOf n = some op) : op < 256 := by
  unfold Params.opcodeOf at h
  split at h
  · cases h
    exact hn
  · exact List.mem_range.mp (List.mem_of_find?_eq_some h)

/-- The form of an instruction that the table has is an opcode that stands for it and the shape of that opcode. -/
theorem Params.exists_formOf {P : Params} {i : Instr} (h : (P.opcodeOf i.opcode).isSome = true) :
    ∃ op r, op < 256 ∧ P.row op = some r ∧ r.op = i.opcode ∧ P.formOf i = (op, r.shape) := by
  obtain ⟨op, hop⟩ := Option.isSome_iff_exists.mp h
  obtain ⟨r, hrow, hr⟩ := Params.standsFor_iff.mp (Params.standsFor_of_opcodeOf hop)
  exact ⟨op, r, Params.opcodeOf_lt (opcode_lt i) hop, hrow, hr, by simp [Params.formOf, hop, hrow]⟩

/-- The default table has every instruction at its own opcode and shape (spec/30_encoding.md R144). -/
theorem formOf_default (i : Instr) :
    Params.default.opcodeOf i.opcode = some i.opcode ∧ Params.default.formOf i = (i.opcode, i.shape) := by
  obtain ⟨r, hr, hshape, -⟩ := findRow_opcode i
  have hrow : Params.default.row i.opcode = some r := hr
  have hstands : Params.default.standsFor i.opcode i.opcode = true :=
    Params.standsFor_iff.mpr ⟨r, hrow, (findRow_op hr).1⟩
  have hop : Params.default.opcodeOf i.opcode = some i.opcode := by rw [Params.opcodeOf, if_pos hstands]
  exact ⟨hop, by simp [Params.formOf, hop, hr, hshape]⟩

/-- Settles O2: the least lengths hold the operands, so decoding is that of `decodeBytes_encodeAs`, and they are below
any lengths that do. -/
theorem decodeOfEncode : Obligations.DecodeOfEncode := by
  refine ⟨fun P i rest hP henc => ?_, fun i => ?_⟩
  · simp only [Params.encodes, Bool.and_eq_true] at henc
    obtain ⟨hsome, hwf⟩ := henc
    obtain ⟨op, r, hop, hrow, hr, hform⟩ := Params.exists_formOf hsome
    rw [hform] at hwf ⊢
    have henc : encode P i = encodeAs op r.shape (i.args.lens P r.shape).1 (i.args.lens P r.shape).2 i := by
      simp only [encode, hform]
    rw [henc]
    refine ⟨decodeBytes_encodeAs rest hP hop hrow hr (Args.fits_lens hwf), fun lX lY hfits => ?_⟩
    obtain ⟨hX, hY⟩ := Args.lens_le hfits
    exact encodeAs_length_mono hX hY op r.shape i
  · obtain ⟨hop, hform⟩ := formOf_default i
    exact ⟨hform, by rw [Params.encodes, hop, hform, Option.isSome_some, Bool.true_and, Instr.wf]⟩

end Sys2Proof
end

section
/-! PROOFS. The length and the fields of an instruction, the words of the spec's layouts, and the unknown opcodes
(spec/30_encoding.md R122–R126, R131–R145; spec/40_step.md R164, R165). -/

namespace Sys2Proof

open Machine

/-! ## Fields -/

/-- A field is little-endian (spec/30_encoding.md R123). -/
theorem fieldAt_eq_sum (bs : List Byte) (o n : Nat) :
    fieldAt bs o n = ∑ i ∈ Finset.range n, byteAt bs (o + i) * 2 ^ (8 * i) := by
  induction n generalizing o with
  | zero => rfl
  | succ n ih =>
    rw [fieldAt, ih, Finset.sum_range_succ', Nat.mul_zero, pow_zero, Nat.mul_one, Nat.add_comm, Finset.mul_sum]
    refine congrArg₂ HAdd.hAdd (Finset.sum_congr rfl fun i _ => ?_) rfl
    rw [Nat.mul_succ, pow_add, show o + 1 + i = o + (i + 1) by omega]
    ring

/-- An offset is the two's-complement reading of its field (spec/30_encoding.md R124). -/
theorem offAt_eq_ite (bs : List Byte) (o n : Nat) :
    offAt bs o n = if 2 * fieldAt bs o n < 2 ^ (8 * n) then (fieldAt bs o n : Int)
      else (fieldAt bs o n : Int) - 2 ^ (8 * n) := by
  have hlt : fieldAt bs o n < 2 ^ (8 * n) := two_pow_eight_mul n ▸ fieldAt_lt bs o n
  rw [offAt, signedOf_eq_ite, Nat.mod_eq_of_lt hlt]

/-- Settles O7: each field is its formula; an immediate is the offset of the same bytes, mod 2^64. -/
theorem operandFields : Obligations.OperandFields :=
  ⟨fun _ => rfl, fun _ _ => rfl, fun _ _ _ => rfl, rfl, fun bs o n _ =>
    ⟨fieldAt_eq_sum bs o n, offAt_eq_ite bs o n, sext_eq_u64_signedOf _ _⟩⟩

/-- Settles O6: the skip is the distance of `toNextStart_spec` from the byte after the opcode. -/
theorem skipIsDistanceToNextStart : Obligations.SkipIsDistanceToNextStart :=
  ⟨fun P mask pc => toNextStart_spec mask P.maxSkip (pc + 1), rfl, fun s => by rw [State.nextPC, Nat.add_assoc]⟩

/-! ## Unknown opcodes -/

/-- The opcodes of the default table, in ranges (spec/30_encoding.md R144). -/
def definedOpcodes : List Nat :=
  [0, 1, 10, 20] ++ List.range' 30 4 ++ [40] ++ List.range' 50 13 ++ List.range' 70 4 ++ List.range' 80 11 ++
    List.range' 100 12 ++ List.range' 120 42 ++ List.range' 170 6 ++ [180] ++ List.range' 190 41

theorem opTable_map_op : opTable.map OpRow.op = definedOpcodes := by rfl

theorem findRow_eq_none_iff {op : Nat} : findRow op = none ↔ op ∉ definedOpcodes := by
  simp [findRow, ← opTable_map_op]

/-- The ranges between the defined opcodes (spec/30_encoding.md R145). -/
def unknownOpcode (op : Nat) : Bool :=
  (2 ≤ op ∧ op ≤ 9) ∨ (11 ≤ op ∧ op ≤ 19) ∨ (21 ≤ op ∧ op ≤ 29) ∨ (34 ≤ op ∧ op ≤ 39) ∨
  (41 ≤ op ∧ op ≤ 49) ∨ (63 ≤ op ∧ op ≤ 69) ∨ (74 ≤ op ∧ op ≤ 79) ∨ (91 ≤ op ∧ op ≤ 99) ∨
  (112 ≤ op ∧ op ≤ 119) ∨ (162 ≤ op ∧ op ≤ 169) ∨ (176 ≤ op ∧ op ≤ 179) ∨
  (181 ≤ op ∧ op ≤ 189) ∨ 231 ≤ op

theorem findRow_eq_none_iff_unknownOpcode (op : Nat) : findRow op = none ↔ unknownOpcode op = true := by
  simp only [findRow_eq_none_iff, definedOpcodes, List.mem_append, List.mem_cons, List.not_mem_nil, or_false,
    List.mem_range'_1, unknownOpcode, decide_eq_true_eq]
  omega

theorem isNone_findRow (op : Nat) : (findRow op).isNone = unknownOpcode op := by
  rw [Bool.eq_iff_iff, Option.isNone_iff_eq_none, findRow_eq_none_iff_unknownOpcode]

theorem length_filter_unknownOpcode : ((List.range 256).filter unknownOpcode).length = 117 := by rfl

namespace Machine

theorem opGas_of_unknown {P : Params} {op : Nat} (h : P.row op = none) : opGas P op = P.gasCost P.trapOpcode := by
  rw [opGas, h]
  rfl

theorem byteAt_drop_zero (bs : List Byte) (n : Nat) : byteAt (bs.drop n) 0 = byteAt bs n := by
  simp [byteAt, List.getD_eq_getElem?_getD]

theorem decodeAt_of_unknown {P : Params} {p : Program} {pc : Nat} (h : P.row (opcodeAt p pc) = none) :
    p.decodeAt P pc = .error (.unknownOpcode (opcodeAt p pc)) := by
  rw [opcodeAt] at h
  rw [Program.decodeAt, decodeBytes, byteAt_drop_zero, h, opcodeAt]

end Machine

/-- Settles O5: the bytes without a row lie between the ranges of the table; a step charges them as TRAP, and the
decoder rejects them. -/
theorem unknownOpcodesPanic : Obligations.UnknownOpcodesPanic := by
  refine ⟨?_, fun op _ => (findRow_eq_none_iff_unknownOpcode op).trans decide_eq_true_iff, rfl,
    fun s hl hok hb hrow => ?_⟩
  · simp only [row_default, isNone_findRow, length_filter_unknownOpcode]
  have hcost := opGas_of_unknown hrow
  refine ⟨fun hgas => ?_, fun hgas => ?_⟩
  · rw [step_of_ready ⟨hl, hok, hb, hcost.symm ▸ hgas⟩, decodeAt_of_unknown hrow]
    simp only [takeException, State.charged, hcost]
  · rw [step_of_oog hl hok hb (hcost.symm ▸ hgas)]
    rfl

/-- Settles O4: the decoder computes each word. -/
theorem specWordsDecode : Obligations.SpecWordsDecode := by
  refine ⟨?_, ?_, ?_, ?_, ?_, ?_, ?_, ?_, ?_, ?_, ?_, ?_, ?_, ?_⟩ <;> rfl

end Sys2Proof
end

section
/-! PROOFS. The program blob (spec/30_encoding.md R110–R117): what a `varU32` and the bytes after the three lengths
decode to, and the serializer. -/

namespace Sys2Proof.Machine

/-! ## `varU32` -/

/-- The first byte of a `varU32` with `l` leading ones and the high bits `high` (spec/30_encoding.md R111). -/
def varHead (l high : Nat) : Byte := BitVec.ofNat 8 (256 - 2 ^ (8 - l) + high)

/-- A first byte announces its number of leading ones and holds its high bits. -/
theorem varHead_spec {l high : Nat} (hl : l ≤ 7) (hhigh : high < 2 ^ (7 - l)) :
    leadingOnes (varHead l high) 8 = l ∧ (varHead l high).toNat % 2 ^ (7 - l) = high := by
  have hall : ∀ l < 8, ∀ high < 2 ^ (7 - l),
      leadingOnes (varHead l high) 8 = l ∧ (varHead l high).toNat % 2 ^ (7 - l) = high := by decide
  exact hall l (Nat.lt_succ_of_le hl) high hhigh

/-- The value of a `varU32` depends on the announced bytes only. -/
theorem varValue_append (b : Byte) {l : Nat} {low : List Byte} (h : low.length = l) (rest : List Byte) :
    varValue b l (low ++ rest) = varValue b l low := by
  unfold varValue
  split
  next h8 => rw [List.take_left' (h.trans h8), List.take_of_length_le (h.trans h8).le]
  next => rw [List.take_left' h, List.take_of_length_le h.le]

theorem decodeVar_append {b : Byte} {low : List Byte} (h : low.length = leadingOnes b 8) (rest : List Byte) :
    decodeVar (b :: (low ++ rest)) =
      if 2 ^ 32 ≤ varValue b (leadingOnes b 8) low then .error .varTooLarge
      else .ok (varValue b (leadingOnes b 8) low, rest) := by
  have hlen : ¬(low ++ rest).length < leadingOnes b 8 := by rw [List.length_append]; omega
  have hmax (v : Nat) : v > Config.maxU32 ↔ 2 ^ 32 ≤ v := by rw [Config.maxU32]; omega
  simp only [decodeVar, if_neg hlen, varValue_append b h, List.drop_left' h, hmax]

theorem decodeVar_truncated {b : Byte} {low : List Byte} (h : low.length < leadingOnes b 8) :
    decodeVar (b :: low) = .error .truncated := by simp only [decodeVar, if_pos h]

/-- A `varU32` with up to 7 leading ones. -/
theorem decodeVar_varHead {l high : Nat} {low : List Byte} (hl : l ≤ 7) (hhigh : high < 2 ^ (7 - l))
    (hlow : low.length = l) (rest : List Byte) :
    decodeVar (varHead l high :: (low ++ rest)) =
      if 2 ^ 32 ≤ high * 2 ^ (8 * l) + leNat low then .error .varTooLarge
      else .ok (high * 2 ^ (8 * l) + leNat low, rest) := by
  obtain ⟨hones, hmod⟩ := varHead_spec hl hhigh
  have hvalue : varValue (varHead l high) l low = high * 2 ^ (8 * l) + leNat low := by
    rw [varValue, if_neg (by omega), hmod, List.take_of_length_le hlow.le]
  rw [decodeVar_append (hlow.trans hones.symm), hones, hvalue]

/-- A `varU32` with 8 leading ones. -/
theorem decodeVar_ff {low : List Byte} (hlow : low.length = 8) (rest : List Byte) :
    decodeVar (0xFF :: (low ++ rest)) =
      if 2 ^ 32 ≤ leNat low then .error .varTooLarge else .ok (leNat low, rest) := by
  have hones : leadingOnes (0xFF : Byte) 8 = 8 := by decide
  rw [decodeVar_append (hlow.trans hones.symm), hones, varValue, if_pos rfl, List.take_of_length_le hlow.le]

/-- The form with `l` leading ones holds a value in the high bits and the `l` bytes after them. -/
theorem decodeVar_leBytes {l v : Nat} (hl : l ≤ 4) (hhigh : v / 256 ^ l < 2 ^ (7 - l)) (hv : v < 2 ^ 32)
    (rest : List Byte) : decodeVar (varHead l (v / 256 ^ l) :: (leBytes l v ++ rest)) = .ok (v, rest) := by
  have hvalue : v / 256 ^ l * 2 ^ (8 * l) + leNat (leBytes l v) = v := by
    rw [leNat_leBytes, two_pow_eight_mul, Nat.div_add_mod']
  rw [decodeVar_varHead (by omega) hhigh (leBytes_length l v), hvalue, if_neg (Nat.not_le.mpr hv)]

/-- The shortest form: as few bytes as hold the value (spec/30_encoding.md R111). -/
theorem encodeVar_eq {v : Nat} (hv : v < 2 ^ 32) :
    ∃ l ≤ 4, v / 256 ^ l < 2 ^ (7 - l) ∧ encodeVar v = varHead l (v / 256 ^ l) :: leBytes l v := by
  unfold encodeVar
  split
  · exact ⟨0, by decide, by omega, by simp [varHead, leBytes]⟩
  split
  · exact ⟨1, by decide, by omega, rfl⟩
  split
  · exact ⟨2, by decide, by omega, rfl⟩
  split
  · exact ⟨3, by decide, by omega, rfl⟩
  · exact ⟨4, by decide, by omega, by rw [Nat.div_eq_of_lt (by omega)]; rfl⟩

theorem decodeVar_encodeVar {v : Nat} (hv : v < 2 ^ 32) (rest : List Byte) :
    decodeVar (encodeVar v ++ rest) = .ok (v, rest) := by
  obtain ⟨l, hl, hhigh, henc⟩ := encodeVar_eq hv
  rw [henc, List.cons_append, decodeVar_leBytes hl hhigh hv]

/-! ## The body -/

theorem decodeBody_of_length {jtLen z codeLen : Nat} {bs : List Byte}
    (h : bs.length = jtLen * z + codeLen + maskBytes codeLen) :
    decodeBody jtLen z codeLen bs = .ok
      { code := (bs.drop (jtLen * z)).take codeLen,
        mask := (List.range codeLen).map (maskBit (bs.drop (jtLen * z + codeLen))),
        jt := jumpTable jtLen z bs } := by
  simp only [decodeBody, h, Nat.lt_irrefl, if_false]

theorem decodeBody_of_lt {jtLen z codeLen : Nat} {bs : List Byte}
    (h : bs.length < jtLen * z + codeLen + maskBytes codeLen) : decodeBody jtLen z codeLen bs = .error .truncated := by
  simp only [decodeBody, if_pos h]

theorem decodeBody_of_gt {jtLen z codeLen : Nat} {bs : List Byte}
    (h : jtLen * z + codeLen + maskBytes codeLen < bs.length) : decodeBody jtLen z codeLen bs = .error .trailing := by
  simp only [decodeBody, if_neg (Nat.lt_asymm h), if_pos h]

/-- The jump table lies in its own field. -/
theorem jumpTable_append {n z : Nat} {jtBytes : List Byte} (h : jtBytes.length = n * z) (rest : List Byte) :
    jumpTable n z (jtBytes ++ rest) = jumpTable n z jtBytes := by
  unfold jumpTable
  split
  · rfl
  refine List.map_congr_left fun i hi => ?_
  have hend : (i + 1) * z ≤ n * z := Nat.mul_le_mul_right z (List.mem_range.mp hi)
  rw [Nat.succ_mul, ← h] at hend
  rw [jumpEntry, jumpEntry, List.drop_append_of_le_length (by omega),
    List.take_append_of_le_length (by rw [List.length_drop]; omega)]

/-- The bytes of the announced lengths decode, field by field. -/
theorem decodeBody_append {jtLen z codeLen : Nat} {jtBytes code maskB : List Byte} (hjt : jtBytes.length = jtLen * z)
    (hcode : code.length = codeLen) (hmask : maskB.length = maskBytes codeLen) :
    decodeBody jtLen z codeLen (jtBytes ++ (code ++ maskB)) =
      .ok { code, mask := (List.range codeLen).map (maskBit maskB), jt := jumpTable jtLen z jtBytes } := by
  have hfront : (jtBytes ++ code).length = jtLen * z + codeLen := by rw [List.length_append, hjt, hcode]
  have hlen : (jtBytes ++ (code ++ maskB)).length = jtLen * z + codeLen + maskBytes codeLen := by
    rw [← List.append_assoc, List.length_append, hfront, hmask]
  rw [decodeBody_of_length hlen, jumpTable_append hjt, List.drop_left' hjt, List.take_left' hcode,
    ← List.append_assoc, List.drop_left' hfront]

theorem toNat_jumpEntry (z : Nat) (bs : List Byte) (i : Nat) :
    (jumpEntry z bs i).toNat = min (leNat ((bs.drop (i * z)).take z)) Config.jumpTableClamp := by
  rw [jumpEntry, BitVec.toNat_ofNat, Nat.mod_eq_of_lt]
  exact Nat.lt_of_le_of_lt (Nat.min_le_right _ _) (by decide)

theorem jumpTable_of_pos {z : Nat} (hz : 0 < z) (n : Nat) (bs : List Byte) :
    jumpTable n z bs = (List.range n).map (jumpEntry z bs) := if_neg hz.ne'

theorem getD_map_range {α : Type} (f : Nat → α) (d : α) {n i : Nat} (hi : i < n) :
    ((List.range n).map f).getD i d = f i := by
  simp [List.getD_eq_getElem?_getD, hi]

/-! ## The serializer -/

theorem testBit_bitsNat (bs : List Bool) (i : Nat) : (bitsNat bs).testBit i = bs.getD i false := by
  induction bs generalizing i with
  | nil => simp [bitsNat]
  | cons b bs ih =>
    cases i with
    | zero => cases b <;> simp [bitsNat, Nat.testBit_zero, Nat.add_mod]
    | succ i =>
      have hhalf : (b.toNat + 2 * bitsNat bs) / 2 = bitsNat bs := by have := b.toNat_lt; omega
      rw [bitsNat, Nat.testBit_succ, hhalf, ih, List.getD_cons_succ]

@[simp] theorem encodeMask_length (mask : List Bool) : (encodeMask mask).length = maskBytes mask.length := by
  simp [encodeMask]

/-- The mask bytes hold the mask bit by bit, and 0 in their padding (spec/30_encoding.md R116, R117). -/
theorem maskBit_encodeMask {mask : List Bool} {i : Nat} (h : i / 8 < maskBytes mask.length) :
    maskBit (encodeMask mask) i = mask.getD i false := by
  have hbit : i % 8 < 8 := Nat.mod_lt i (by decide)
  have hindex : 8 * (i / 8) + i % 8 = i := Nat.div_add_mod i 8
  rw [maskBit, encodeMask, getD_map_range _ _ h, BitVec.getLsbD_ofNat, testBit_bitsNat]
  simp [List.getD_eq_getElem?_getD, hbit, hindex]

theorem map_maskBit_encodeMask (mask : List Bool) :
    (List.range mask.length).map (maskBit (encodeMask mask)) = mask := by
  refine List.ext_getElem (by simp) fun i hi hi' => ?_
  rw [List.getElem_map, List.getElem_range, maskBit_encodeMask (by rw [maskBytes]; omega), List.getD_eq_getElem _ _ hi']

/-- Piece `i`, where a list is made of pieces of one length. -/
theorem take_drop_flatMap_of_length {α β : Type} {f : α → List β} {n : Nat} (hf : ∀ a, (f a).length = n) :
    ∀ (l : List α) (i : Nat) (hi : i < l.length), ((l.flatMap f).drop (i * n)).take n = f l[i]
  | a :: l, 0, _ => by rw [List.flatMap_cons, Nat.zero_mul, List.drop_zero, List.take_left' (hf a)]; rfl
  | a :: l, i + 1, hi => by
    rw [List.flatMap_cons, Nat.succ_mul, Nat.add_comm, ← List.drop_drop, List.drop_left' (hf a),
      take_drop_flatMap_of_length hf l i (Nat.lt_of_succ_lt_succ hi)]
    rfl

theorem length_flatMap_leBytes (z : Nat) (jt : List (BitVec 32)) :
    (jt.flatMap fun e => leBytes z e.toNat).length = jt.length * z := by
  simp [List.length_flatMap]

/-- Entries that fit in `z` bytes are read back from them. -/
theorem jumpTable_flatMap_leBytes {z : Nat} {jt : List (BitVec 32)} (hz : jt = [] ∨ 0 < z)
    (hfits : ∀ e ∈ jt, e.toNat < 2 ^ (8 * z)) :
    jumpTable jt.length z (jt.flatMap fun e => leBytes z e.toNat) = jt := by
  rcases hz with rfl | hz
  · simp [jumpTable]
  rw [jumpTable_of_pos hz]
  refine List.ext_getElem (by simp) fun i hi hi' => BitVec.eq_of_toNat_eq ?_
  have hfit : jt[i].toNat % 256 ^ z = jt[i].toNat :=
    Nat.mod_eq_of_lt (two_pow_eight_mul z ▸ hfits _ (List.getElem_mem hi'))
  have hclamp : jt[i].toNat ≤ Config.jumpTableClamp := Nat.le_of_lt_succ jt[i].isLt
  rw [List.getElem_map, List.getElem_range, toNat_jumpEntry,
    take_drop_flatMap_of_length (fun e => leBytes_length z e.toNat) jt i hi', leNat_leBytes, hfit,
    Nat.min_eq_left hclamp]

/-- What the serializer requires of a program and an entry width (spec/30_encoding.md R117). -/
theorem serializable_iff {z : Byte} {p : Program} : serializable z p = true ↔
    p.mask.length = p.code.length ∧ p.code.length < 2 ^ 32 ∧ p.jt.length < 2 ^ 32 ∧ (p.jt = [] ∨ 0 < z.toNat) ∧
      ∀ e ∈ p.jt, e.toNat < 2 ^ (8 * z.toNat) := by
  have hmax (n : Nat) : n ≤ Config.maxU32 ↔ n < 2 ^ 32 := by rw [Config.maxU32]; omega
  have hz : z ≠ 0 ↔ 0 < z.toNat := by
    rw [Nat.pos_iff_ne_zero, ne_eq, ne_eq, ← BitVec.toNat_inj]
    rfl
  simp only [serializable, Bool.and_eq_true, Bool.or_eq_true, beq_iff_eq, bne_iff_ne, decide_eq_true_eq,
    List.isEmpty_iff, List.all_eq_true, hmax, hz, and_assoc]

theorem decodeProgram_serialize {z : Byte} {p : Program} (h : serializable z p = true) :
    decodeProgram (serialize z p) = .ok p := by
  obtain ⟨hmask, hcode, hjt, hz, hfits⟩ := serializable_iff.mp h
  rw [serialize, decodeProgram, decodeVar_encodeVar hjt]
  simp only [decodeVar_encodeVar hcode]
  rw [decodeBody_append (length_flatMap_leBytes _ _) rfl (by rw [encodeMask_length, hmask]),
    jumpTable_flatMap_leBytes hz hfits, ← hmask, map_maskBit_encodeMask]

end Sys2Proof.Machine

namespace Sys2Proof

open Machine

/-- Settles O8: the decoder counts the leading ones of the first byte and then reads, or misses, as many bytes. -/
theorem varU32Decodes : Obligations.VarU32Decodes := by
  refine ⟨fun l high low rest hl hhigh hlow => decodeVar_varHead hl hhigh hlow rest,
    fun low rest hlow => decodeVar_ff hlow rest, fun l high low hl hhigh hlow => ?_,
    fun low hlow => decodeVar_truncated hlow, rfl, fun v rest hv => decodeVar_encodeVar hv rest⟩
  exact decodeVar_truncated ((varHead_spec hl hhigh).1.symm ▸ hlow)

/-- Settles O9: `decodeBody_append`, read off field by field. -/
theorem blobBodyDecodes : Obligations.BlobBodyDecodes := by
  intro jtLen z codeLen jtBytes code maskB hjt hcode hmask
  refine ⟨_, decodeBody_append hjt hcode hmask, rfl, by simp, fun i hi => getD_map_range _ _ hi, fun hz => if_pos hz,
    fun hz => ?_⟩
  simp only [jumpTable_of_pos hz]
  exact ⟨by simp, fun i hi => by rw [getD_map_range _ _ hi, toNat_jumpEntry]; rfl⟩

/-- Settles O10: both `varU32` read back, and then each field of the body; a padding bit is a mask bit past the code. -/
theorem blobRoundTrip : Obligations.BlobRoundTrip := by
  intro z p h
  obtain ⟨hmask, -⟩ := serializable_iff.mp h
  refine ⟨decodeProgram_serialize h, _, _, rfl, length_flatMap_leBytes _ _, by rw [encodeMask_length, hmask]; rfl,
    fun i hi hlt => ?_⟩
  rw [encodeMask_length] at hlt
  have hbit := maskBit_encodeMask (mask := p.mask) (i := i) (by omega)
  rwa [List.getD_eq_default _ _ (hmask.symm ▸ hi)] at hbit

end Sys2Proof
end

section
/-! PROOFS. The length of a blob (spec/30_encoding.md R112). A blob that decodes is cut into two `varU32` fields, the
entry width between them and a body; each field is read the same whatever follows it, and is truncated when cut short. -/

namespace Sys2Proof.Machine

/-- The bytes of a `varU32` of value `v`: read as such before any other bytes, and truncated when cut short. -/
structure ReadsVar (field : List Byte) (v : Nat) : Prop where
  le_max : v ≤ Config.maxU32
  append : ∀ rest, decodeVar (field ++ rest) = .ok (v, rest)
  take : ∀ k, k < field.length → decodeVar (field.take k) = .error .truncated

theorem decodeVar_eq_ok {bs rest : List Byte} {v : Nat} (h : decodeVar bs = .ok (v, rest)) :
    ∃ field, bs = field ++ rest ∧ ReadsVar field v := by
  cases bs with
  | nil => cases h
  | cons b bs =>
    by_cases hlen : bs.length < leadingOnes b 8
    · rw [decodeVar_truncated hlen] at h
      cases h
    obtain ⟨low, tail, rfl, hlow⟩ : ∃ low tail, bs = low ++ tail ∧ low.length = leadingOnes b 8 :=
      ⟨_, _, (List.take_append_drop _ bs).symm, List.length_take_of_le (Nat.not_lt.mp hlen)⟩
    by_cases hmax : 2 ^ 32 ≤ varValue b (leadingOnes b 8) low
    · rw [decodeVar_append hlow, if_pos hmax] at h
      cases h
    have hread (rest : List Byte) : decodeVar (b :: (low ++ rest)) = .ok (varValue b (leadingOnes b 8) low, rest) := by
      rw [decodeVar_append hlow, if_neg hmax]
    cases (hread tail).symm.trans h
    refine ⟨b :: low, rfl, Nat.le_of_lt_succ (Nat.not_le.mp hmax), hread, fun k hk => ?_⟩
    cases k with
    | zero => rfl
    | succ k =>
      refine decodeVar_truncated ?_
      rw [List.length_take, ← hlow]
      exact Nat.lt_of_le_of_lt (Nat.min_le_left _ _) (Nat.lt_of_succ_lt_succ hk)

/-- What a body that decodes holds. -/
theorem decodeBody_eq_ok {jtLen z codeLen : Nat} {bs : List Byte} {p : Program}
    (h : decodeBody jtLen z codeLen bs = .ok p) :
    bs.length = jtLen * z + codeLen + maskBytes codeLen ∧ p.code.length = codeLen ∧ p.mask.length = codeLen := by
  rcases Nat.lt_trichotomy bs.length (jtLen * z + codeLen + maskBytes codeLen) with hlen | hlen | hlen
  · cases (decodeBody_of_lt hlen).symm.trans h
  · cases (decodeBody_of_length hlen).symm.trans h
    refine ⟨hlen, ?_, by simp⟩
    rw [List.length_take, List.length_drop]
    omega
  · cases (decodeBody_of_gt hlen).symm.trans h

/-- A blob in its fields (spec/30_encoding.md R110): the two lengths, the entry width and a body. -/
structure BlobFields where
  jtLenField : List Byte
  jtLen : Nat
  z : Byte
  codeLenField : List Byte
  codeLen : Nat
  body : List Byte

namespace BlobFields

/-- The blob that the fields make. -/
def bytes (f : BlobFields) : List Byte := f.jtLenField ++ f.z :: (f.codeLenField ++ f.body)

/-- The length that the fields before the body announce for it. -/
def bodyLength (f : BlobFields) : Nat := f.jtLen * f.z.toNat + f.codeLen + maskBytes f.codeLen

/-- The two lengths are read from their fields. -/
structure Valid (f : BlobFields) : Prop where
  jtLen : ReadsVar f.jtLenField f.jtLen
  codeLen : ReadsVar f.codeLenField f.codeLen

variable {f : BlobFields} (hf : f.Valid)
include hf

/-- Behind its two lengths a blob decodes as its body does. -/
theorem Valid.decode_append (rest : List Byte) :
    decodeProgram (f.jtLenField ++ f.z :: (f.codeLenField ++ rest)) = decodeBody f.jtLen f.z.toNat f.codeLen rest := by
  rw [decodeProgram, hf.jtLen.append]
  simp only [hf.codeLen.append]

/-- Cut anywhere before the end of the announced body, a blob is truncated. -/
theorem Valid.decode_take (hlen : f.body.length = f.bodyLength) {k : Nat} (hk : k < f.bytes.length) :
    decodeProgram (f.bytes.take k) = .error .truncated := by
  rw [bytes] at hk ⊢
  by_cases hjt : k < f.jtLenField.length
  · rw [List.take_append_of_le_length hjt.le, decodeProgram, hf.jtLen.take k hjt]
  obtain ⟨m, rfl⟩ := Nat.exists_eq_add_of_le (Nat.not_lt.mp hjt)
  rw [List.take_length_add_append]
  cases m with
  | zero => rw [List.take_zero, decodeProgram, hf.jtLen.append]
  | succ m =>
    rw [List.take_succ_cons]
    by_cases hcode : m < f.codeLenField.length
    · rw [List.take_append_of_le_length hcode.le, decodeProgram, hf.jtLen.append]
      simp only [hf.codeLen.take m hcode]
    obtain ⟨n, rfl⟩ := Nat.exists_eq_add_of_le (Nat.not_lt.mp hcode)
    rw [List.take_length_add_append, hf.decode_append]
    refine decodeBody_of_lt ?_
    simp only [List.length_append, List.length_cons] at hk
    rw [List.length_take, ← bodyLength, ← hlen]
    omega

/-- With more bytes than the announced body, a blob has trailing bytes. -/
theorem Valid.decode_bytes_append (hlen : f.body.length = f.bodyLength) {extra : List Byte} (h : extra ≠ []) :
    decodeProgram (f.bytes ++ extra) = .error .trailing := by
  have hpos := List.length_pos_of_ne_nil h
  have hbytes : f.bytes ++ extra = f.jtLenField ++ f.z :: (f.codeLenField ++ (f.body ++ extra)) := by simp [bytes]
  rw [hbytes, hf.decode_append]
  refine decodeBody_of_gt ?_
  rw [List.length_append, ← bodyLength, hlen]
  omega

end BlobFields

/-- A blob that decodes consists of valid fields, with a body of the announced length. -/
theorem decodeProgram_eq_ok {blob : List Byte} {p : Program} (h : decodeProgram blob = .ok p) :
    ∃ f : BlobFields, blob = f.bytes ∧ f.Valid ∧ f.body.length = f.bodyLength ∧
      p.code.length = f.codeLen ∧ p.mask.length = f.codeLen := by
  unfold decodeProgram at h
  split at h
  next => cases h
  next => cases h
  next jtLen z bs hjt =>
    split at h
    next => cases h
    next codeLen body hcode =>
      obtain ⟨jtLenField, rfl, hjtLen⟩ := decodeVar_eq_ok hjt
      obtain ⟨codeLenField, rfl, hcodeLen⟩ := decodeVar_eq_ok hcode
      exact ⟨⟨jtLenField, jtLen, z, codeLenField, codeLen, body⟩, rfl, ⟨hjtLen, hcodeLen⟩, decodeBody_eq_ok h⟩

end Sys2Proof.Machine

namespace Sys2Proof

open Machine

/-- Settles O11: the blob is its fields, and the length of the body is the announced one. -/
theorem blobLengthIsExact : Obligations.BlobLengthIsExact := by
  intro blob p h
  obtain ⟨f, rfl, hf, hlen, hcode, hmask⟩ := decodeProgram_eq_ok h
  have hwf : p.wf = true := (Program.wf_iff p).mpr ⟨hmask.trans hcode.symm, hcode.symm ▸ hf.codeLen.le_max⟩
  exact ⟨hwf, fun _ hne => hf.decode_bytes_append hlen hne, fun _ hk => hf.decode_take hlen hk⟩

end Sys2Proof
end

section
/-! PROOFS. One step (spec/40_step.md R161–R166, R173): its phases before the instruction, the instruction that it
executes, and what a step that ends in an exception can have changed. -/

namespace Sys2Proof.Machine

/-! ## What a step changes (R173) -/

/-- What a step from `s` ends in. Each exception stands with the fields that it can have changed: it is taken in `s`
with another gas counter, and after a write to a register for the two instructions that write before they jump. -/
inductive StepEnd (s t : State) : Prop where
  /-- No exception but HALT. -/
  | done (h : t.status = .ok ∨ t.status = .halt)
  | oog (ht : t = takeException .oog { s with gas := 0 })
  | panic (g : Nat) (ht : t = takeException .panic { s with gas := g })
  | panicAfterWrite (g : Nat) (r : Reg) (x : Word)
      (hi : (∃ off, s.prog.decodeAt s.params s.pc.toNat = .ok (.loadImmJump r x off)) ∨
        ∃ b y, s.prog.decodeAt s.params s.pc.toNat = .ok (.loadImmJumpInd r b x y))
      (ht : t = takeException .panic { s.setReg r x with gas := g })
  | fault (g : Nat) (a : Addr) (w : Bool) (ht : t = takeException (.fault a w) { s with gas := g })
  | host (g : Nat) (e : BitVec 32) (ht : t = takeException (.host e) { s with gas := g })

/-- The end of a step that executes is that of its instruction, in the state with the gas charged. -/
theorem stepEnd_of_exec {s t : State} {i : Instr} (hi : s.prog.decodeAt s.params s.pc.toNat = .ok i)
    (h : exec i s.charged = .next t) : StepEnd s t := by
  cases exec_outcome h with
  | ok hok => exact .done (.inl hok)
  | trap _ ht => exact .panic _ ht
  | host x _ ht => exact .host _ _ ht
  | fault c k _ _ ht => exact .fault _ _ _ ht
  | badTarget off _ _ ht =>
    rcases ht with ht | ⟨r, x, rfl, ht⟩
    · exact .panic _ ht
    · exact .panicAfterWrite _ r x (.inl ⟨off, hi⟩) ht
  | badAddress a _ _ _ ht =>
    rcases ht with ht | ⟨r, b, x, y, rfl, ht⟩
    · exact .panic _ ht
    · exact .panicAfterWrite _ r x (.inr ⟨b, y, hi⟩) ht
  | halt _ ht => rcases ht with rfl | ⟨r, b, x, y, -, rfl⟩ <;> exact .done (.inr rfl)

theorem step_end {s t : State} (hl : s.loaded = true) (hok : s.status = .ok) (h : step s = .next t) :
    StepEnd s t := by
  rcases step_cases hl with ⟨hne, -⟩ | ⟨-, -, hs⟩ | ⟨-, -, -, hs⟩ | ⟨-, e, -, hs⟩ | ⟨-, i, hi, hs⟩
  · exact absurd hok hne
  · cases hs.symm.trans h
    exact .panic s.gas rfl
  · cases hs.symm.trans h
    exact .oog rfl
  · cases hs.symm.trans h
    exact .panic s.charged.gas rfl
  · exact stepEnd_of_exec hi (hs.symm.trans h)

/-- A PANIC of a core without an exit parameter changes the status alone. -/
theorem takeException_panic_of_exitParam {s : State} (h : s.exitParam = none) :
    takeException .panic s = { s with status := .panic } := by
  rw [takeException, ← h]

/-! ## The checks before the instruction (R161, R162) -/

theorem atBoundary_eq_false {p : Program} {pc : Nat}
    (h : p.code.length ≤ pc ∨ p.mask.getD pc false = false) : atBoundary p pc = false := by
  rw [← Bool.not_eq_true, atBoundary_iff]
  rintro ⟨hlt, hset⟩
  rcases h with hle | hunset
  · exact absurd hlt (Nat.not_lt.mpr hle)
  · cases hunset.symm.trans hset

end Sys2Proof.Machine

namespace Sys2Proof

open Machine

/-- Settles O21: by the end of the step, whose status selects the clause. -/
theorem noPartialEffects : Obligations.NoPartialEffects := by
  intro s t hl hok hexit h
  cases step_end hl hok h with
  | done hdone =>
    refine ⟨fun hst => ?_, fun hst => ?_, fun hst => ?_, fun hst => ?_⟩ <;> simp [hst] at hdone
  | oog ht =>
    subst ht
    exact ⟨fun _ => rfl, nofun, nofun, nofun⟩
  | panic g ht =>
    cases ht.trans (takeException_panic_of_exitParam hexit)
    exact ⟨nofun, nofun, fun _ => .inl rfl, nofun⟩
  | panicAfterWrite g r x hi ht =>
    cases ht.trans (takeException_panic_of_exitParam hexit)
    exact ⟨nofun, nofun, fun _ => .inr ⟨r, x, hi, rfl⟩, nofun⟩
  | fault g a w ht =>
    subst ht
    exact ⟨nofun, fun _ => ⟨a, w, rfl⟩, nofun, nofun⟩
  | host g e ht =>
    subst ht
    exact ⟨nofun, nofun, nofun, fun _ => ⟨e, rfl⟩⟩

/-- Settles O14: a ready step charges the opcode's cost and executes what the bytes at the pc decode to. -/
theorem stepRunsDecoded : Obligations.StepRunsDecoded := by
  intro s i hready hdecode
  have hat : s.prog.decodeAt s.params s.pc.toNat = .ok i := hdecode
  rw [step_of_ready hready, hat, State.charged]

/-- Settles O15: one lemma of `nextStep` for each of the two phases, and for the core that is not loaded. -/
theorem stepChecksStatusAndPc : Obligations.StepChecksStatusAndPc := by
  refine ⟨fun _ => step_of_not_loaded, fun _ => step_of_sticky, fun s hl hok hpc => ?_⟩
  rw [step_of_invalid hl hok (atBoundary_eq_false hpc), takeException]

end Sys2Proof
end

section
/-! PROOFS. Runs (spec/40_step.md R169, R179): the gas that a number of steps use, and the bound that the gas sets to
the number of steps. -/

namespace Sys2Proof.Machine

/-! ## `n` steps -/

theorem core_step : core.step = step := rfl

/-- A run begins with a step and goes on from the state that the step answers. -/
theorem core_run_succ {s u : State} (h : step s = .next u) (n : Nat) : core.run (n + 1) s = core.run n u := by
  simp only [Host.Core.run, core_step, h]

theorem core_run_one (s : State) : core.run 1 s = step s := by
  simp only [Host.Core.run, core_step]
  cases step s <;> rfl

/-- A run of at least one step that answers a state made its first step. -/
theorem core_run_succ_eq_next {n : Nat} {s t : State} (h : core.run (n + 1) s = .next t) :
    ∃ u, step s = .next u ∧ core.run n u = .next t := by
  cases hstep : step s with
  | next u => exact ⟨u, rfl, (core_run_succ hstep n).symm.trans h⟩
  | fault f => exact absurd hstep (step_ne_fault s f)
  | refused r =>
    simp only [Host.Core.run, core_step, hstep] at h
    cases h

/-! ## The gas of a run -/

theorem costOver_zero (s : State) : costOver 0 s = 0 := rfl

theorem costOver_succ {s u : State} (h : step s = .next u) (n : Nat) :
    costOver (n + 1) s = s.staticCost + costOver n u := by
  rw [costOver, h]

theorem step_initialGas {s t : State} (h : step s = .next t) : t.initialGas = s.initialGas := by
  obtain ⟨-, -, hinit, -⟩ := step_fixed h
  exact hinit

/-- A step uses its static cost, or all the gas there is when that is less (spec/40_step.md R164). -/
theorem step_usedGas {s t : State} (hgas : s.gas ≤ s.initialGas) (h : step s = .next t) :
    t.usedGas = min s.initialGas (s.usedGas + s.staticCost) := by
  rw [State.usedGas, State.usedGas, step_initialGas h]
  rcases step_gas h with ⟨hcost, hg, -⟩ | ⟨-, hlt, hg, -⟩ | ⟨-, hle, hg⟩
  all_goals omega

/-- The clamp of one step's sum is absorbed by the clamp of the whole run's (spec/40_step.md R179). -/
theorem core_run_usedGas (n : Nat) (s t : State) (hgas : s.gas ≤ s.initialGas) (h : core.run n s = .next t) :
    t.usedGas = min s.initialGas (s.usedGas + costOver n s) := by
  induction n generalizing s with
  | zero =>
    cases h
    rw [costOver_zero, Nat.add_zero, State.usedGas, Nat.min_eq_right (Nat.sub_le _ _)]
  | succ n ih =>
    obtain ⟨u, hstep, hrun⟩ := core_run_succ_eq_next h
    have hinit := step_initialGas hstep
    have hu : u.gas ≤ u.initialGas := hinit ▸ (step_gas_le hstep).trans hgas
    rw [ih u hu hrun, hinit, step_usedGas hgas hstep, costOver_succ hstep]
    omega

/-! ## The bound on a run -/

/-- The only refusal of a loaded core's step is that of SBRK onto a mapped page (spec/20_memory.md R89). -/
theorem step_refused {s : State} {r : Refusal} (hl : s.loaded = true) (h : step s = .refused r) :
    r = .sbrkOntoMappedPage := by
  rcases step_cases hl with ⟨-, hs⟩ | ⟨-, -, hs⟩ | ⟨-, -, -, hs⟩ | ⟨-, e, -, hs⟩ | ⟨-, i, -, hs⟩
  · cases hs.symm.trans h
  · cases hs.symm.trans h
  · cases hs.symm.trans h
  · cases hs.symm.trans h
  · obtain ⟨hr, -⟩ := exec_refused (hs.symm.trans h)
    exact hr

/-- A step that leaves the core OK used gas, when every cost is at least 1. -/
theorem step_gas_lt {s t : State} (hcost : ∀ op, 1 ≤ s.params.gasCost op) (h : step s = .next t)
    (hok : t.status = .ok) : t.gas < s.gas := by
  have hpos := one_le_opGas hcost s.opcode
  rcases step_gas h with ⟨-, -, hne⟩ | ⟨-, -, -, hne⟩ | ⟨hstatic, hle, hg⟩
  · exact absurd hok hne
  · exact absurd hok hne
  · omega

theorem runSteps_succ_of_ok {s t : State} (h : step s = .next t) (hok : t.status = .ok) (k : Nat) :
    runSteps (k + 1) s = runSteps k t := by
  rw [step_eq] at h
  simp only [runSteps, h, hok, if_true]

theorem runSteps_succ_of_not_ok {s t : State} (h : step s = .next t) (hne : t.status ≠ .ok) (k : Nat) :
    runSteps (k + 1) s = .next t := by
  rw [step_eq] at h
  simp only [runSteps, h, if_neg hne]

theorem runSteps_succ_of_refused {s : State} {r : Refusal} (h : step s = .refused r) (k : Nat) :
    runSteps (k + 1) s = .refused r := by
  rw [step_eq] at h
  simp only [runSteps, h]

/-- After `n` steps from `s`, and not before, the status is one other than OK, and the state is `t`. -/
def State.StopsAt (s : State) (n : Nat) (t : State) : Prop :=
  core.run n s = .next t ∧ t.status ≠ .ok ∧ ∀ m, m < n → ∃ u, core.run m s = .next u ∧ u.status = .ok

theorem State.stopsAt_zero {s : State} (h : s.status ≠ .ok) : s.StopsAt 0 s :=
  ⟨rfl, h, fun _ hm => absurd hm (Nat.not_lt_zero _)⟩

theorem State.StopsAt.succ {s u t : State} {n : Nat} (hok : s.status = .ok) (hstep : step s = .next u)
    (h : u.StopsAt n t) : s.StopsAt (n + 1) t := by
  obtain ⟨hrun, hne, hbefore⟩ := h
  refine ⟨(core_run_succ hstep n).trans hrun, hne, fun m hm => ?_⟩
  cases m with
  | zero => exact ⟨s, rfl, hok⟩
  | succ m =>
    rw [core_run_succ hstep]
    exact hbefore m (Nat.lt_of_succ_lt_succ hm)

/-- With more fuel than gas, a run stops within `gas + 1` steps, or is refused within them: every step that leaves the
core OK takes one from the gas. -/
theorem runSteps_stops (k : Nat) (s : State) (hfuel : s.gas < k) (hl : s.loaded = true)
    (hcost : ∀ op, 1 ≤ s.params.gasCost op) :
    (∃ n t, n ≤ s.gas + 1 ∧ s.StopsAt n t ∧ runSteps k s = .next t) ∨
    ∃ n, n ≤ s.gas + 1 ∧ core.run n s = .refused .sbrkOntoMappedPage ∧
      runSteps k s = .refused .sbrkOntoMappedPage := by
  induction k generalizing s with
  | zero => exact absurd hfuel (Nat.not_lt_zero _)
  | succ k ih =>
    by_cases hok : s.status = .ok
    case neg =>
      exact .inl ⟨0, s, Nat.zero_le _, State.stopsAt_zero hok, runSteps_succ_of_not_ok (step_of_sticky hl hok) hok k⟩
    cases hstep : step s with
    | fault f => exact absurd hstep (step_ne_fault s f)
    | refused r =>
      cases step_refused hl hstep
      exact .inr ⟨1, by omega, (core_run_one s).trans hstep, runSteps_succ_of_refused hstep k⟩
    | next u =>
      by_cases hu : u.status = .ok
      case neg =>
        exact .inl ⟨1, u, by omega, (State.stopsAt_zero hu).succ hok hstep, runSteps_succ_of_not_ok hstep hu k⟩
      have hlt := step_gas_lt hcost hstep hu
      obtain ⟨hloaded, -, -, hparams⟩ := step_fixed hstep
      rw [runSteps_succ_of_ok hstep hu]
      rcases ih u (by omega) (hloaded.trans hl) (by rwa [hparams]) with ⟨n, t, hn, hstop, hrun⟩ | ⟨n, hn, hrun⟩
      · exact .inl ⟨n + 1, t, by omega, hstop.succ hok hstep, hrun⟩
      · exact .inr ⟨n + 1, by omega, by rwa [core_run_succ hstep]⟩

end Sys2Proof.Machine

namespace Sys2Proof

open Machine

/-- Settles O22: each step adds its static cost up to the allotment, by induction on the number of steps. -/
theorem gasAccounting : Obligations.GasAccounting := core_run_usedGas

/-- Settles O23: `runProgram` has more fuel than the core has gas. -/
theorem runEndsWithinGas : Obligations.RunEndsWithinGas := by
  intro s hl hcost
  rcases runSteps_stops (s.gas + 1) s (Nat.lt_succ_self _) hl hcost with
    ⟨n, t, hn, ⟨hrun, hne, hbefore⟩, hprogram⟩ | hrefused
  · exact .inl ⟨n, t, hn, hrun, hne, hprogram, hbefore⟩
  · exact .inr hrefused

end Sys2Proof
end

section
/-! PROOFS. Basic blocks (spec/40_step.md R170–R172): the terminating set, the block starts, and the walk along the
instructions of a block that its cost sums. -/

namespace Sys2Proof.Machine

/-! ## The terminating set (R171) -/

theorem terminating_iff (op : Nat) : terminating op = true ↔ op ∈ terminatingSet := by
  simp only [terminating, terminatingSet, Bool.or_eq_true, Bool.and_eq_true, beq_iff_eq, decide_eq_true_eq,
    List.mem_cons, List.not_mem_nil, or_false]
  omega

theorem endsBlock_iff (P : Params) (op : Nat) : endsBlock P op = true ↔ EndsBlock P op := by
  simp only [endsBlock, EndsBlock, Option.any_eq_true, terminating_iff]

theorem terminatingSet_subset_definedOpcodes : terminatingSet ⊆ definedOpcodes := by decide

/-- In the default table an opcode stands for the instruction of its number. -/
theorem endsBlock_default_iff (op : Nat) : EndsBlock .default op ↔ op ∈ terminatingSet := by
  simp only [EndsBlock, row_default]
  constructor
  · rintro ⟨r, hr, hmem⟩
    obtain ⟨hop, -⟩ := findRow_op hr
    exact hop ▸ hmem
  · intro hmem
    have hdefined : findRow op ≠ none :=
      fun hnone => findRow_eq_none_iff.mp hnone (terminatingSet_subset_definedOpcodes hmem)
    obtain ⟨r, hr⟩ := Option.ne_none_iff_exists'.mp hdefined
    obtain ⟨hop, -⟩ := findRow_op hr
    exact ⟨r, hr, hop.symm ▸ hmem⟩

/-! ## Block starts (R170) -/

theorem terminatorEndsAt_iff {P : Params} {p : Program} {q n : Nat} :
    terminatorEndsAt P p q n = true ↔
      p.mask.getD n false = true ∧ n + 1 + skip P p.mask n = q ∧ EndsBlock P (opcodeAt p n) := by
  simp only [terminatorEndsAt, Bool.and_eq_true, beq_iff_eq, endsBlock_iff, and_assoc]

theorem skip_le_maxSkip (P : Params) (mask : List Bool) (n : Nat) : skip P mask n ≤ P.maxSkip := by
  obtain ⟨hle, -, -⟩ := toNextStart_spec mask P.maxSkip (n + 1)
  exact hle

/-- An instruction that ends at `q` starts within the offsets that `isBlockStart` looks at: its distance is its skip. -/
theorem any_terminatorEndsAt_iff (P : Params) (p : Program) (q : Nat) :
    ((List.range (P.maxSkip + 1)).any fun d => d < q && terminatorEndsAt P p q (q - 1 - d)) = true ↔
      ∃ n, n < q ∧ terminatorEndsAt P p q n = true := by
  simp only [List.any_eq_true, List.mem_range, Bool.and_eq_true, decide_eq_true_eq]
  constructor
  · rintro ⟨d, -, hd, hends⟩
    exact ⟨q - 1 - d, by omega, hends⟩
  · rintro ⟨n, hn, hends⟩
    obtain ⟨-, hend, -⟩ := terminatorEndsAt_iff.mp hends
    have hskip := skip_le_maxSkip P p.mask n
    refine ⟨skip P p.mask n, by omega, by omega, ?_⟩
    rwa [show q - 1 - skip P p.mask n = n by omega]

theorem isBlockStart_iff {P : Params} {p : Program} {q : Nat} :
    isBlockStart P p q = true ↔ q = 0 ∨ q < p.code.length ∧ p.mask.getD q false = true ∧
      ∃ n, n < q ∧ p.mask.getD n false = true ∧ n + 1 + skip P p.mask n = q ∧ EndsBlock P (opcodeAt p n) := by
  simp only [isBlockStart, Bool.or_eq_true, Bool.and_eq_true, beq_iff_eq, atBoundary_iff, any_terminatorEndsAt_iff,
    terminatorEndsAt_iff, and_assoc]

theorem isBB_iff {P : Params} {p : Program} {t : Int} :
    isBB P p t = true ↔ ∃ q : Nat, t = q ∧ isBlockStart P p q = true := by
  simp only [isBB, Bool.and_eq_true, decide_eq_true_eq]
  constructor
  · rintro ⟨hnonneg, hstart⟩
    exact ⟨t.toNat, (Int.toNat_of_nonneg hnonneg).symm, hstart⟩
  · rintro ⟨q, rfl, hstart⟩
    exact ⟨Int.natCast_nonneg q, hstart⟩

@[simp] theorem isBB_natCast (P : Params) (p : Program) (q : Nat) : isBB P p (q : Int) = isBlockStart P p q := by
  simp [isBB]

/-! ## The walk of a block (R172) -/

/-- The block goes on from `n` to `n'`: there the next instruction stands, in the code, and neither does the block end
with `n` nor another begin at `n'`. -/
def BlockGoesOn (P : Params) (p : Program) (n n' : Nat) : Prop :=
  n' = n + 1 + skip P p.mask n ∧ n' < p.code.length ∧ isBB P p n' = false ∧ ¬EndsBlock P (opcodeAt p n)

/-- The instruction at `n` is the last one of its block. -/
def BlockStops (P : Params) (p : Program) (n : Nat) : Prop :=
  EndsBlock P (opcodeAt p n) ∨ p.code.length ≤ n + 1 + skip P p.mask n ∨
    isBB P p ((n + 1 + skip P p.mask n : Nat) : Int) = true

theorem blockGoesOn_of_not_blockStops {P : Params} {p : Program} {n : Nat} (h : ¬BlockStops P p n) :
    BlockGoesOn P p n (n + 1 + skip P p.mask n) := by
  simp only [BlockStops, not_or, Nat.not_le, Bool.not_eq_true] at h
  obtain ⟨hends, hlt, hstart⟩ := h
  exact ⟨rfl, hlt, hstart, hends⟩

theorem BlockGoesOn.lt_length {P : Params} {p : Program} {n n' : Nat} (h : BlockGoesOn P p n n') :
    n' < p.code.length := by
  obtain ⟨-, hlt, -, -⟩ := h
  exact hlt

/-- The condition on which `blockCost` stops. -/
theorem blockStops_iff {P : Params} {p : Program} {n : Nat} :
    (endsBlock P (opcodeAt p n) || decide (p.code.length ≤ n + 1 + skip P p.mask n) ||
      isBlockStart P p (n + 1 + skip P p.mask n)) = true ↔ BlockStops P p n := by
  simp only [Bool.or_eq_true, endsBlock_iff, decide_eq_true_eq, BlockStops, isBB_natCast, or_assoc]

/-- The last instruction of a block costs what its opcode costs. -/
theorem blockCost_of_blockStops {P : Params} {p : Program} {n : Nat} (h : BlockStops P p n) (fuel : Nat) :
    blockCost P p (fuel + 1) n = opGas P (opcodeAt p n) := by
  rw [blockCost, if_pos (blockStops_iff.mpr h), Nat.add_zero]

/-- Any other instruction adds its cost to that of the rest of the block. -/
theorem blockCost_of_not_blockStops {P : Params} {p : Program} {n : Nat} (h : ¬BlockStops P p n) (fuel : Nat) :
    blockCost P p (fuel + 1) n =
      opGas P (opcodeAt p n) + blockCost P p fuel (n + 1 + skip P p.mask n) := by
  rw [blockCost, if_neg (mt blockStops_iff.mp h)]

/-- The offsets of the instructions of a block from `n` to its end. -/
inductive BlockWalk (P : Params) (p : Program) : Nat → List Nat → Prop
  | last {n : Nat} (h : BlockStops P p n) : BlockWalk P p n [n]
  | cons {n n' : Nat} {ns : List Nat} (h : BlockGoesOn P p n n') (hns : BlockWalk P p n' ns) :
    BlockWalk P p n (n :: ns)

namespace BlockWalk

variable {P : Params} {p : Program} {n : Nat} {ns : List Nat}

theorem head? (h : BlockWalk P p n ns) : ns.head? = some n := by
  cases h <;> rfl

theorem isChain (h : BlockWalk P p n ns) : ns.IsChain (BlockGoesOn P p) := by
  induction h with
  | last => exact .singleton _
  | cons hstep hns ih =>
    refine List.isChain_cons.mpr ⟨fun m hm => ?_, ih⟩
    cases hns.head?.symm.trans hm
    exact hstep

theorem blockStops_getLast? (h : BlockWalk P p n ns) : ∀ m, ns.getLast? = some m → BlockStops P p m := by
  induction h with
  | last hstops =>
    intro m hm
    cases hm
    exact hstops
  | cons _ hns ih =>
    cases hns <;> simpa only [List.getLast?_cons_cons] using ih

end BlockWalk

/-- Fuel for the bytes that are left is enough to walk a block, and its cost is the sum along the walk. -/
theorem exists_blockWalk (P : Params) (p : Program) (fuel n : Nat) (hn : n < p.code.length)
    (hfuel : p.code.length ≤ n + fuel) :
    ∃ ns, BlockWalk P p n ns ∧ blockCost P p fuel n = (ns.map fun m => opGas P (opcodeAt p m)).sum := by
  induction fuel generalizing n with
  | zero => omega
  | succ fuel ih =>
    by_cases hstops : BlockStops P p n
    · exact ⟨[n], .last hstops, blockCost_of_blockStops hstops fuel⟩
    · have hgoes := blockGoesOn_of_not_blockStops hstops
      obtain ⟨ns, hwalk, hcost⟩ := ih _ hgoes.lt_length (by omega)
      refine ⟨n :: ns, .cons hgoes hwalk, ?_⟩
      rw [blockCost_of_not_blockStops hstops, hcost, List.map_cons, List.sum_cons]

theorem map_fst_blockGasCosts (P : Params) (p : Program) :
    (blockGasCosts P p).map Prod.fst = (List.range p.code.length).filter (isBlockStart P p) := by
  simp [blockGasCosts, Function.comp_def]

theorem mem_blockGasCosts {P : Params} {p : Program} {b c : Nat} (h : (b, c) ∈ blockGasCosts P p) :
    b < p.code.length ∧ c = blockCost P p p.code.length b := by
  simp only [blockGasCosts, List.mem_map, List.mem_filter, List.mem_range, Prod.mk.injEq] at h
  obtain ⟨_, ⟨hlt, -⟩, rfl, rfl⟩ := h
  exact ⟨hlt, rfl⟩

end Sys2Proof.Machine

namespace Sys2Proof

open Machine

/-- Settles O12: the search of `isBlockStart` finds every terminator that ends at the offset. -/
theorem blockStartSet : Obligations.BlockStartSet := by
  refine ⟨fun P p t => ?_, rfl, endsBlock_default_iff⟩
  rw [isBB_iff]
  simp only [isBlockStart_iff]
  constructor
  · rintro ⟨q, rfl, rfl | ⟨hlt, hboundary, hends⟩⟩
    · exact .inl rfl
    · exact .inr ⟨q, rfl, hlt, hboundary, hends⟩
  · rintro (rfl | ⟨q, rfl, hlt, hboundary, hends⟩)
    · exact ⟨0, rfl, .inl rfl⟩
    · exact ⟨q, rfl, .inr ⟨hlt, hboundary, hends⟩⟩

/-- Settles O13: the cost of a block is the sum along its walk. -/
theorem blockGasCosts : Obligations.BlockGasCosts := by
  intro P p _
  refine ⟨?_, fun b c hmem => ?_⟩
  · simp only [isBB_natCast, map_fst_blockGasCosts]
  obtain ⟨hlt, rfl⟩ := mem_blockGasCosts hmem
  obtain ⟨ns, hwalk, hcost⟩ := exists_blockWalk P p p.code.length b hlt (Nat.le_add_left _ _)
  exact ⟨ns, hwalk.head?, hcost, hwalk.isChain, hwalk.blockStops_getLast?⟩

end Sys2Proof
end

section
/-! PROOFS. The instructions without register operands (spec/41_noargs_hostcall.md R200–R202): the operation each of
them is, and the shape of its result. -/

namespace Sys2Proof.Machine

theorem exec_trap (s : State) : exec .trap s = .next (takeException .panic s) := rfl

theorem exec_fallthrough (s : State) : exec .fallthrough s = .next (s.commit s.after) := rfl

theorem exec_ecalli (x : Word) (s : State) : exec (.ecalli x) s = .next (takeException (.host (low32 x)) s) := rfl

/-- The low half of a word is its value mod 2^32 (spec/00_scope.md R12). -/
theorem low32_eq_ofNat (v : Word) : low32 v = BitVec.ofNat 32 (v.toNat % 2 ^ 32) := by
  apply BitVec.eq_of_toNat_eq
  rw [low32, BitVec.toNat_setWidth, BitVec.toNat_ofNat, Nat.mod_mod]

end Sys2Proof.Machine

namespace Sys2Proof

open Machine

/-- Settles O37: TRAP is a PANIC, FALLTHROUGH a commit of the next pc, and ECALLI a HOST with the low half of its
immediate. -/
theorem noArgumentResults : Obligations.NoArgumentResults := by
  intro s x
  refine ⟨⟨_, exec_trap s, s.ended_panic⟩, ⟨_, exec_fallthrough s, s.wentTo_commit s.after⟩, ?_⟩
  rw [← low32_eq_ofNat]
  exact ⟨_, exec_ecalli x s, s.ended_host (low32 x)⟩

end Sys2Proof
end

section
/-! PROOFS. The branches and jumps (spec/42_branch.md R210–R229): the comparisons as relations of the values compared,
the outcomes of a taken static jump and of a dynamic jump, and with these the shape of every instruction's result. -/

namespace Sys2Proof.Machine

/-! ## The comparisons as relations of the values -/

theorem beq_iff_toNat_eq (v w : Word) : (v == w) = true ↔ v.toNat = w.toNat := by
  rw [beq_iff_eq, BitVec.toNat_inj]

theorem bne_iff_toNat_ne (v w : Word) : (v != w) = true ↔ v.toNat ≠ w.toNat := by
  rw [bne_iff_ne, BitVec.toNat_ne]

theorem ltU_iff (v w : Word) : ltU v w = true ↔ v.toNat < w.toNat := decide_eq_true_iff

theorem leU_iff (v w : Word) : leU v w = true ↔ v.toNat ≤ w.toNat := decide_eq_true_iff

theorem ltS_iff (v w : Word) : ltS v w = true ↔ s64 v < s64 w := decide_eq_true_iff

theorem leS_iff (v w : Word) : leS v w = true ↔ s64 v ≤ s64 w := decide_eq_true_iff

/-! ## The outcomes of a jump (spec/40_step.md R175, R176) -/

theorem branch_true_of_isBB {target : Int} {s : State} (h : isBB s.params s.prog target = true) :
    branch target true s = s.commit (BitVec.ofInt 32 target) := by
  rw [branch_true, if_pos h]

theorem branch_true_of_not_isBB {target : Int} {s : State} (h : isBB s.params s.prog target = false) :
    branch target true s = takeException .panic s := by
  rw [branch_true, if_neg (Bool.eq_false_iff.mp h)]

theorem djump_of_haltAddress {a : Addr} {s : State} (h : a = s.params.haltAddress) :
    djump a s = takeException .halt s := by
  rw [djump_eq, if_pos h]

theorem djump_of_target {a : Addr} {s : State} {t : BitVec 32} (hne : a ≠ s.params.haltAddress)
    (ht : dynamicTarget s.params s.prog a = some t) : djump a s = s.commit t := by
  rw [djump_eq, if_neg hne, ht]

theorem djump_of_no_target {a : Addr} {s : State} (hne : a ≠ s.params.haltAddress)
    (hnone : dynamicTarget s.params s.prog a = none) : djump a s = takeException .panic s := by
  rw [djump_eq, if_neg hne, hnone]

/-! ## The instructions that write a register or read the jump table -/

theorem exec_loadImmJump (r : Reg) (x : Word) (off : Int) (s : State) :
    exec (.loadImmJump r x off) s = .next (branch (s.target off) true (s.setReg r x)) := rfl

theorem exec_jumpInd (r : Reg) (x : Word) (s : State) :
    exec (.jumpInd r x) s = .next (djump (s.indAddr r x) s) := rfl

/-- The address is that of the registers before the write. -/
theorem exec_loadImmJumpInd (r b : Reg) (x y : Word) (s : State) :
    exec (.loadImmJumpInd r b x y) s = .next (djump (s.indAddr b y) (s.setReg r x)) := rfl

theorem loadImmJump_of_isBB {s : State} {off : Int} (r : Reg) (x : Word)
    (h : isBB s.params s.prog (s.pc.toNat + off) = true) :
    Yields (.loadImmJump r x off) s (s.WroteAndWentTo r x (BitVec.ofInt 32 (s.pc.toNat + off))) := by
  refine ⟨_, ?_, s.wroteAndWentTo_commit r x _⟩
  rw [exec_loadImmJump, State.target, branch_true_of_isBB (s := s.setReg r x) h]

/-- The PANIC is taken after the write. -/
theorem loadImmJump_of_not_isBB {s : State} {off : Int} (r : Reg) (x : Word)
    (h : isBB s.params s.prog (s.pc.toNat + off) = false) :
    Yields (.loadImmJump r x off) s ((s.setReg r x).Ended .panic none s.faultIsWrite s.pc) := by
  refine ⟨_, ?_, (s.setReg r x).ended_panic⟩
  rw [exec_loadImmJump, State.target, branch_true_of_not_isBB (s := s.setReg r x) h]

end Sys2Proof.Machine

namespace Sys2Proof

open Machine

/-- Settles O54: each is a branch on a comparison with its immediate. -/
theorem branchImmResults : Obligations.BranchImmResults := by
  intro s a x off
  refine ⟨?eq, ?ne, ?ltU, ?leU, ?geU, ?gtU, ?ltS, ?leS, ?geS, ?gtS⟩
  case eq => exact branches_of_branch rfl (beq_iff_toNat_eq (s.reg a) x)
  case ne => exact branches_of_branch rfl (bne_iff_toNat_ne (s.reg a) x)
  case ltU => exact branches_of_branch rfl (ltU_iff (s.reg a) x)
  case leU => exact branches_of_branch rfl (leU_iff (s.reg a) x)
  case geU => exact branches_of_branch rfl (leU_iff x (s.reg a))
  case gtU => exact branches_of_branch rfl (ltU_iff x (s.reg a))
  case ltS => exact branches_of_branch rfl (ltS_iff (s.reg a) x)
  case leS => exact branches_of_branch rfl (leS_iff (s.reg a) x)
  case geS => exact branches_of_branch rfl (leS_iff x (s.reg a))
  case gtS => exact branches_of_branch rfl (ltS_iff x (s.reg a))

/-- Settles O55: the register branches and JUMP are branches; LOAD_IMM_JUMP is a taken one after a register write. -/
theorem branchRegAndJumpResults : Obligations.BranchRegAndJumpResults := by
  intro s a b x off
  refine ⟨?eq, ?ne, ?ltU, ?ltS, ?geU, ?geS, ?jump, loadImmJump_of_isBB a x, loadImmJump_of_not_isBB a x⟩
  case eq => exact branches_of_branch rfl (beq_iff_toNat_eq (s.reg a) (s.reg b))
  case ne => exact branches_of_branch rfl (bne_iff_toNat_ne (s.reg a) (s.reg b))
  case ltU => exact branches_of_branch rfl (ltU_iff (s.reg a) (s.reg b))
  case ltS => exact branches_of_branch rfl (ltS_iff (s.reg a) (s.reg b))
  case geU => exact branches_of_branch rfl (leU_iff (s.reg b) (s.reg a))
  case geS => exact branches_of_branch rfl (leS_iff (s.reg b) (s.reg a))
  case jump => exact branches_of_branch (b := true) rfl (iff_of_true rfl trivial)

/-- Settles O56: the three outcomes of a dynamic jump, in the state before and in the state after a register write. -/
theorem dynamicJumpResults : Obligations.DynamicJumpResults := by
  intro s a b x y
  refine ⟨fun h => ?halt, fun hne t ht => ?target, fun hne hnone => ?panic,
    fun h => ?writeHalt, fun hne t ht => ?writeTarget, fun hne hnone => ?writePanic⟩
  case halt => exact ⟨_, by rw [exec_jumpInd, djump_of_haltAddress h], s.ended_halt⟩
  case target => exact ⟨_, by rw [exec_jumpInd, djump_of_target hne ht], s.wentTo_commit t⟩
  case panic => exact ⟨_, by rw [exec_jumpInd, djump_of_no_target hne hnone], s.ended_panic⟩
  case writeHalt =>
    exact ⟨_, by rw [exec_loadImmJumpInd, djump_of_haltAddress (s := s.setReg a x) h], (s.setReg a x).ended_halt⟩
  case writeTarget =>
    exact ⟨_, by rw [exec_loadImmJumpInd, djump_of_target (s := s.setReg a x) hne ht],
      s.wroteAndWentTo_commit a x t⟩
  case writePanic =>
    exact ⟨_, by rw [exec_loadImmJumpInd, djump_of_no_target (s := s.setReg a x) hne hnone],
      (s.setReg a x).ended_panic⟩

end Sys2Proof
end

section
/-! PROOFS. The loads (spec/43_load.md R240–R255) and the moves (spec/46_memory_move.md R311–R315): the shared operation
that each instruction is, and with it the shape of its result. -/

namespace Sys2Proof.Machine

/-- A conditional move gives its destination the new value if the condition holds, and otherwise the value it had;
either way it goes on to the next instruction (spec/46_memory_move.md R312–R315). -/
theorem computes_of_cmov {i : Instr} {c : Bool} {p : Prop} [Decidable p] {rd : Reg} {v : Word} {s : State}
    (h : exec i s = cmov c rd v s) (hc : c = true ↔ p) : Computes i rd (if p then v else s.reg rd) s := by
  by_cases hp : p
  · rw [cmov, if_pos (hc.mpr hp)] at h
    exact computes_of_writeResult h (if_pos hp).symm
  · rw [cmov, if_neg (mt hc.mp hp)] at h
    exact computes_of_advance h (if_neg hp).symm

end Sys2Proof.Machine

namespace Sys2Proof

open Machine

/-- Settles O51: each is a load of its width from its address, with its extension. -/
theorem loadResults : Obligations.LoadResults := by
  intro s a b x
  refine ⟨?u8, ?i8, ?u16, ?i16, ?u32, ?i32, ?u64, ?indU8, ?indI8, ?indU16, ?indI16, ?indU32, ?indI32, ?indU64⟩
  case u8 => exact loads_of_loadInto rfl
  case i8 => exact loads_of_loadInto rfl
  case u16 => exact loads_of_loadInto rfl
  case i16 => exact loads_of_loadInto rfl
  case u32 => exact loads_of_loadInto rfl
  case i32 => exact loads_of_loadInto rfl
  case u64 => exact loads_of_loadInto rfl
  case indU8 => exact loads_of_loadInto rfl
  case indI8 => exact loads_of_loadInto rfl
  case indU16 => exact loads_of_loadInto rfl
  case indI16 => exact loads_of_loadInto rfl
  case indU32 => exact loads_of_loadInto rfl
  case indI32 => exact loads_of_loadInto rfl
  case indU64 => exact loads_of_loadInto rfl

/-- Settles O38: the immediate loads and the register move write one register, and the conditional moves test
whether their register is 0. -/
theorem moveResults : Obligations.MoveResults := by
  intro s a b d x
  refine ⟨?imm64, ?imm, ?move, ?izImm, ?nzImm, ?iz, ?nz⟩
  case imm64 => exact computes_of_writeResult rfl rfl
  case imm => exact computes_of_writeResult rfl rfl
  case move => exact computes_of_writeResult (v := id (s.reg a)) rfl rfl
  case izImm => exact computes_of_cmov rfl (beq_iff_toNat_eq (s.reg b) 0)
  case nzImm => exact computes_of_cmov rfl (bne_iff_toNat_ne (s.reg b) 0)
  case iz => exact computes_of_cmov rfl (beq_iff_toNat_eq (s.reg b) 0)
  case nz => exact computes_of_cmov rfl (bne_iff_toNat_ne (s.reg b) 0)

end Sys2Proof
end

section
/-! PROOFS. The stores (spec/44_store.md R260–R275): each is the shared store operation `storeAt` at its width, address
and value, and a store of at most eight bytes has the shape of the results. -/

namespace Sys2Proof

open Machine

/-- Settles O52: each is a store of its width of low bytes of its value at its address. -/
theorem storeResults : Obligations.StoreResults := by
  intro s a b x y
  refine ⟨?immU8, ?immU16, ?immU32, ?immU64, ?u8, ?u16, ?u32, ?u64, ?immIndU8, ?immIndU16, ?immIndU32, ?immIndU64,
    ?indU8, ?indU16, ?indU32, ?indU64⟩
  case immU8 => exact stores_of_storeAt (by decide) rfl
  case immU16 => exact stores_of_storeAt (by decide) rfl
  case immU32 => exact stores_of_storeAt (by decide) rfl
  case immU64 => exact stores_of_storeAt (by decide) rfl
  case u8 => exact stores_of_storeAt (by decide) rfl
  case u16 => exact stores_of_storeAt (by decide) rfl
  case u32 => exact stores_of_storeAt (by decide) rfl
  case u64 => exact stores_of_storeAt (by decide) rfl
  case immIndU8 => exact stores_of_storeAt (by decide) rfl
  case immIndU16 => exact stores_of_storeAt (by decide) rfl
  case immIndU32 => exact stores_of_storeAt (by decide) rfl
  case immIndU64 => exact stores_of_storeAt (by decide) rfl
  case indU8 => exact stores_of_storeAt (by decide) rfl
  case indU16 => exact stores_of_storeAt (by decide) rfl
  case indU32 => exact stores_of_storeAt (by decide) rfl
  case indU64 => exact stores_of_storeAt (by decide) rfl

end Sys2Proof
end

section
/-! PROOFS. The bit instructions (spec/45_bit.md R280–R299): what the model's counts, extensions, byte reversal and
logic are as operations on natural numbers, and with these the result of every instruction. -/

namespace Sys2Proof.Machine

/-! ## The counts as counts of positions (R280) -/

theorem popcount_eq_countP (n v : Nat) : popcount n v = (List.range n).countP v.testBit := by
  induction n generalizing v with
  | zero => rfl
  | succ n ih =>
    have hshift : v.testBit ∘ Nat.succ = (v / 2).testBit := funext fun k => Nat.testBit_succ v k
    have hlow : v % 2 = if v.testBit 0 = true then 1 else 0 := by
      rw [Nat.testBit_zero]
      rcases Nat.mod_two_eq_zero_or_one v with h | h <;> simp [h]
    rw [popcount, ih, List.range_succ_eq_map, List.countP_cons, List.countP_map, hshift, hlow, Nat.add_comm]

theorem clz_eq_length_takeWhile (n v : Nat) :
    clz n v = ((List.range n).reverse.takeWhile fun k => !v.testBit k).length := by
  induction n with
  | zero => rfl
  | succ n ih =>
    rw [clz, ih, List.range_succ, List.reverse_append, List.reverse_singleton, List.singleton_append,
      List.takeWhile_cons]
    cases v.testBit n <;> rfl

theorem ctz_eq_length_takeWhile (n v : Nat) :
    ctz n v = ((List.range n).takeWhile fun k => !v.testBit k).length := by
  induction n generalizing v with
  | zero => rfl
  | succ n ih =>
    have hshift : (fun k => !v.testBit k) ∘ Nat.succ = fun k => !(v / 2).testBit k :=
      funext fun k => congrArg (!·) (Nat.testBit_succ v k)
    rw [ctz, ih, List.range_succ_eq_map, List.takeWhile_cons, List.takeWhile_map, hshift]
    cases v.testBit 0
    · exact congrArg (· + 1) (List.length_map _).symm
    · rfl

/-- The low half of a word as a number (spec/00_scope.md R12). -/
theorem toNat_low32 (v : Word) : (low32 v).toNat = v.toNat % 2 ^ 32 := BitVec.toNat_setWidth 32 v

/-! ## The extensions and the byte reversal -/

/-- The low bits of a word are its value mod a power of 2. -/
theorem setWidth_eq_ofNat_mod (n : Nat) (v : Word) : v.setWidth n = BitVec.ofNat n (v.toNat % 2 ^ n) := by
  apply BitVec.eq_of_toNat_eq
  rw [BitVec.toNat_setWidth, BitVec.toNat_ofNat, Nat.mod_mod]

/-- Sign extension of the low bits is `sext_n` (R287, R288). -/
theorem signExtend_setWidth_eq_sext (n : Nat) (v : Word) :
    (v.setWidth n).signExtend 64 = sext n (v.toNat % 2 ^ n) := by
  rw [sext, setWidth_eq_ofNat_mod]

/-- A word is given by its value. -/
theorem eq_ofNat_of_toNat_eq {v : Word} {n : Nat} (h : v.toNat = n) : v = BitVec.ofNat 64 n := by
  rw [← h, BitVec.ofNat_toNat, BitVec.setWidth_eq]

theorem Val.toNat_zeroExtend16 (v : Word) : (Val.zeroExtend16 v).toNat = v.toNat % 2 ^ 16 := by
  rw [Val.zeroExtend16, BitVec.toNat_setWidth_of_le (by decide), BitVec.toNat_setWidth]

/-- Byte `i` of the reversal is byte `n - 1 - i` of the value. -/
theorem toNat_getD_reverse_leBytes {n i : Nat} (v : Nat) (hi : i < n) :
    ((leBytes n v).reverse.getD i 0).toNat = v / 256 ^ (n - 1 - i) % 256 := by
  rw [List.getD_eq_getElem?_getD, List.getElem?_reverse (by rwa [leBytes_length]), leBytes_length,
    ← List.getD_eq_getElem?_getD, toNat_getD_leBytes v (by omega)]

/-- Byte `i` of the value has place `n - 1 - i` in the reversal (R280, R290). -/
theorem leNat_reverse_leBytes (n v : Nat) :
    leNat (leBytes n v).reverse = ∑ i ∈ Finset.range n, v / 2 ^ (8 * i) % 256 * 2 ^ (8 * (n - 1 - i)) := by
  rw [leNat_eq_sum, List.length_reverse, leBytes_length, ← Finset.sum_range_reflect]
  refine Finset.sum_congr rfl fun i hi => ?_
  have hlt : i < n := Finset.mem_range.mp hi
  rw [toNat_getD_reverse_leBytes v (by omega), Nat.sub_sub_self (by omega), two_pow_eight_mul i]

/-! ## The logic as operations on the values (R291–R299) -/

theorem Val.toNat_and (a b : Word) : (Val.and a b).toNat = a.toNat &&& b.toNat := BitVec.toNat_and a b

theorem Val.toNat_xor (a b : Word) : (Val.xor a b).toNat = a.toNat ^^^ b.toNat := BitVec.toNat_xor a b

theorem Val.toNat_or (a b : Word) : (Val.or a b).toNat = a.toNat ||| b.toNat := BitVec.toNat_or a b

theorem Val.toNat_andInv (a b : Word) : (Val.andInv a b).toNat = a.toNat &&& (2 ^ 64 - 1 - b.toNat) := by
  rw [Val.andInv, BitVec.toNat_and, BitVec.toNat_not]

theorem Val.toNat_orInv (a b : Word) : (Val.orInv a b).toNat = a.toNat ||| (2 ^ 64 - 1 - b.toNat) := by
  rw [Val.orInv, BitVec.toNat_or, BitVec.toNat_not]

theorem Val.toNat_xnor (a b : Word) : (Val.xnor a b).toNat = 2 ^ 64 - 1 - (a.toNat ^^^ b.toNat) := by
  rw [Val.xnor, BitVec.toNat_not, BitVec.toNat_xor]

/-- An instruction that writes a result and goes on computes the value of that result. -/
theorem computes_of_toNat_eq {i : Instr} {rd : Reg} {v : Word} {n : Nat} {s : State}
    (h : exec i s = writeResult rd v s) (hv : v.toNat = n) : Computes i rd (BitVec.ofNat 64 n) s :=
  computes_of_writeResult h (eq_ofNat_of_toNat_eq hv)

/-- An instruction that writes a number and goes on computes every expression of that number. -/
theorem computes_of_ofNat_eq {i : Instr} {rd : Reg} {m n : Nat} {s : State}
    (h : exec i s = writeResult rd (BitVec.ofNat 64 m) s) (hm : m = n) : Computes i rd (BitVec.ofNat 64 n) s :=
  computes_of_writeResult h (congrArg (BitVec.ofNat 64) hm)

end Sys2Proof.Machine

namespace Sys2Proof

open Machine

/-- Settles O44: each is an operation on words whose value is the operation on their values. -/
theorem logicResults : Obligations.LogicResults := by
  intro s a b d x
  refine ⟨?andImm, ?xorImm, ?orImm, ?and, ?xor, ?or, ?andInv, ?orInv, ?xnor⟩
  case andImm => exact computes_of_toNat_eq rfl (Val.toNat_and (s.reg b) x)
  case xorImm => exact computes_of_toNat_eq rfl (Val.toNat_xor (s.reg b) x)
  case orImm => exact computes_of_toNat_eq rfl (Val.toNat_or (s.reg b) x)
  case and => exact computes_of_toNat_eq rfl (Val.toNat_and (s.reg a) (s.reg b))
  case xor => exact computes_of_toNat_eq rfl (Val.toNat_xor (s.reg a) (s.reg b))
  case or => exact computes_of_toNat_eq rfl (Val.toNat_or (s.reg a) (s.reg b))
  case andInv => exact computes_of_toNat_eq rfl (Val.toNat_andInv (s.reg a) (s.reg b))
  case orInv => exact computes_of_toNat_eq rfl (Val.toNat_orInv (s.reg a) (s.reg b))
  case xnor => exact computes_of_toNat_eq rfl (Val.toNat_xnor (s.reg a) (s.reg b))

/-- Settles O45: the recursive counts are counts of positions, of the whole value or of its low half. -/
theorem bitCountResults : Obligations.BitCountResults := by
  intro s a d
  have hlow : (low32 (s.reg a)).toNat = s.u a % 2 ^ 32 := toNat_low32 (s.reg a)
  rw [← hlow]
  refine ⟨?ones64, ?ones32, ?leading64, ?leading32, ?trailing64, ?trailing32⟩
  case ones64 => exact computes_of_ofNat_eq rfl (popcount_eq_countP 64 _)
  case ones32 => exact computes_of_ofNat_eq rfl (popcount_eq_countP 32 _)
  case leading64 => exact computes_of_ofNat_eq rfl (clz_eq_length_takeWhile 64 _)
  case leading32 => exact computes_of_ofNat_eq rfl (clz_eq_length_takeWhile 32 _)
  case trailing64 => exact computes_of_ofNat_eq rfl (ctz_eq_length_takeWhile 64 _)
  case trailing32 => exact computes_of_ofNat_eq rfl (ctz_eq_length_takeWhile 32 _)

/-- Settles O46: the extensions are of the low bits, and the reversal puts byte `i` in place `7 - i`. -/
theorem extensionResults : Obligations.ExtensionResults := by
  intro s a d
  refine ⟨?sign8, ?sign16, ?zero16, ?reverse⟩
  case sign8 => exact computes_of_writeResult rfl (signExtend_setWidth_eq_sext 8 (s.reg a))
  case sign16 => exact computes_of_writeResult rfl (signExtend_setWidth_eq_sext 16 (s.reg a))
  case zero16 => exact computes_of_toNat_eq rfl (Val.toNat_zeroExtend16 (s.reg a))
  case reverse => exact computes_of_ofNat_eq rfl (leNat_reverse_leBytes 8 (s.reg a).toNat)

end Sys2Proof
end

section
/-! PROOFS. Heap growth (spec/46_memory_move.md R310; spec/20_memory.md R87–R89): the pages that a growth takes, when
`Sbrk` refuses or grows, and what the memory it answers holds. -/

namespace Sys2Proof.Machine

/-- Page `p` lies between the old end of the heap's pages and the end that a growth by `n` gives them (R87). -/
def Memory.InGrowth (m : Memory) (n p : Nat) : Prop :=
  m.heapTop / Config.pageSize ≤ p ∧ p < alignUp (m.heapPtr + n) / Config.pageSize

/-- What a growth of `m` by `n` bytes leaves in memory: the pages of the growth are Writable and zero, the heap's ends
have moved, and the rest is as before (R87). -/
structure Memory.GrewBy (m : Memory) (n : Nat) (m' : Memory) : Prop where
  heapPtr : m'.heapPtr = m.heapPtr + n
  heapTop : m'.heapTop = max m.heapTop (alignUp (m.heapPtr + n))
  heapStart : m'.heapStart = m.heapStart
  heapEnd : m'.heapEnd = m.heapEnd
  newPage : ∀ p, m.InGrowth n p → m'.pageState p = .writable
  oldPage : ∀ p, ¬m.InGrowth n p → m'.pageState p = m.pageState p
  newByte : ∀ a, m.InGrowth n (a / Config.pageSize) → m'.byte a = 0
  oldByte : ∀ a, ¬m.InGrowth n (a / Config.pageSize) → m'.byte a = m.byte a

/-- The pages that `Sbrk` counts from the heap's top are those of the growth; there are none if the top is above. -/
theorem Memory.inGrowth_iff {m : Memory} {n p : Nat} :
    m.InGrowth n p ↔ m.heapTop / Config.pageSize ≤ p ∧ p < m.heapTop / Config.pageSize +
      (alignUp (m.heapPtr + n) / Config.pageSize - m.heapTop / Config.pageSize) := by
  unfold Memory.InGrowth
  omega

theorem Memory.anyMapped_growth_eq_false {m : Memory} {n : Nat} :
    m.anyMapped (m.heapTop / Config.pageSize)
        (alignUp (m.heapPtr + n) / Config.pageSize - m.heapTop / Config.pageSize) = false ↔
      ∀ p, m.InGrowth n p → m.pageState p = .unmapped := by
  simp only [Memory.anyMapped_eq_false, Memory.inGrowth_iff, and_imp]

/-- `Sbrk` refuses exactly a growth within `HEAP_LIMIT` onto a mapped page (R89). -/
theorem Memory.sbrk_eq_refuse {m : Memory} {limit n : Nat} :
    m.sbrk limit n = .refuse ↔
      m.heapPtr + n ≤ limit ∧ ∃ p, m.InGrowth n p ∧ m.pageState p ≠ .unmapped := by
  have hmapped : (∃ p, m.InGrowth n p ∧ m.pageState p ≠ .unmapped) ↔
      ¬∀ p, m.InGrowth n p → m.pageState p = .unmapped := by simp only [not_forall, exists_prop, ne_eq]
  rw [hmapped, ← Memory.anyMapped_growth_eq_false, Bool.not_eq_false]
  simp only [Memory.sbrk]
  split
  case isTrue hlimit => simp [Nat.not_le.mpr hlimit]
  case isFalse hlimit =>
    split
    case isTrue hmap => simp only [hmap, Nat.not_lt.mp hlimit, and_self]
    case isFalse hmap => simp only [hmap, reduceCtorEq, and_false, Bool.false_eq_true]

/-- The memory that `Sbrk` answers is the grown one, and the number is the old heap pointer (R87). -/
theorem Memory.grewBy_of_sbrk {m m' : Memory} {limit n old : Nat} (h : m.sbrk limit n = .grown old m') :
    old = m.heapPtr ∧ m.GrewBy n m' := by
  obtain ⟨-, hold, -, rfl⟩ := Memory.sbrk_eq_grown h
  set first := m.heapTop / Config.pageSize with hfirst
  set count := alignUp (m.heapPtr + n) / Config.pageSize - first with hcount
  have hpage := m.mapPages_pageState (st := .writable) (by decide) first count
  have hbyte := m.mapPages_byte .writable first count
  refine ⟨hold, ?_⟩
  exact {
    heapPtr := rfl
    heapTop := rfl
    heapStart := m.mapPages_heapStart .writable first count
    heapEnd := m.mapPages_heapEnd .writable first count
    newPage := fun p hp => (hpage p).trans (if_pos (Memory.inGrowth_iff.mp hp))
    oldPage := fun p hp => (hpage p).trans (if_neg (mt Memory.inGrowth_iff.mpr hp))
    newByte := fun a ha => (hbyte a).trans (if_pos (Memory.inGrowth_iff.mp ha))
    oldByte := fun a ha => (hbyte a).trans (if_neg (mt Memory.inGrowth_iff.mpr ha)) }

/-- Within `HEAP_LIMIT` and onto Unmapped pages only, `Sbrk` grows the heap: it neither fails nor refuses. -/
theorem Memory.exists_sbrk_grown {m : Memory} {limit n : Nat} (hlimit : m.heapPtr + n ≤ limit)
    (hunmapped : ∀ p, m.InGrowth n p → m.pageState p = .unmapped) :
    ∃ m', m.sbrk limit n = .grown m.heapPtr m' ∧ m.GrewBy n m' := by
  cases h : m.sbrk limit n with
  | fail => exact absurd hlimit (Nat.not_le.mpr (Memory.sbrk_eq_fail.mp h))
  | refuse =>
    obtain ⟨-, p, hp, hmapped⟩ := Memory.sbrk_eq_refuse.mp h
    exact absurd (hunmapped p hp) hmapped
  | grown old m' =>
    obtain ⟨rfl, hgrew⟩ := Memory.grewBy_of_sbrk h
    exact ⟨m', rfl, hgrew⟩

/-! ## SBRK by what `Sbrk` answers (R310) -/

section
variable {s : State} {a : Reg} (d : Reg)

theorem exec_sbrk_of_fail (h : s.mem.sbrk s.params.heapLimit (s.u a) = .fail) :
    exec (.sbrk a d) s = writeResult d s.params.sbrkFailResult s := by
  simp only [State.u] at h
  simp only [exec, execSbrk, h]

theorem exec_sbrk_of_refuse (h : s.mem.sbrk s.params.heapLimit (s.u a) = .refuse) :
    exec (.sbrk a d) s = .refused .sbrkOntoMappedPage := by
  simp only [State.u] at h
  simp only [exec, execSbrk, h]

theorem exec_sbrk_of_grown {old : Nat} {m : Memory}
    (h : s.mem.sbrk s.params.heapLimit (s.u a) = .grown old m) :
    exec (.sbrk a d) s = writeResult d (BitVec.ofNat 64 old) { s with mem := m } := by
  simp only [State.u] at h
  simp only [exec, execSbrk, h]

end

/-- A memory change, a register write and a commit: what a growth adds to the state besides memory. -/
theorem State.committed_setReg_of_mem (s : State) (m : Memory) (d : Reg) (v : Word) :
    s.Committed s.after (State.setReg { s with mem := m } d v).advance :=
  ⟨⟨rfl, rfl, rfl, rfl, rfl⟩, rfl, rfl, rfl, rfl⟩

end Sys2Proof.Machine

namespace Sys2Proof

open Machine

/-- Settles O50: one case for each answer of `Sbrk`, which the limit and the page states of the growth decide. -/
theorem sbrkResults : Obligations.SbrkResults := by
  intro s a d new newTop inGrowth
  refine ⟨fun hfail => ?fail, fun hlimit hunmapped => ?grown, fun hlimit hmapped => ?refused⟩
  case fail => exact computes_of_writeResult (exec_sbrk_of_fail d (Memory.sbrk_eq_fail.mpr hfail)) rfl
  case grown =>
    obtain ⟨m, hsbrk, hgrew⟩ := Memory.exists_sbrk_grown hlimit hunmapped
    exact ⟨_, exec_sbrk_of_grown d hsbrk, s.committed_setReg_of_mem m d _, State.reg_setReg_self _ d _,
      fun _ hr => State.reg_setReg_ne _ _ hr, hgrew.heapPtr, hgrew.heapTop, hgrew.heapStart, hgrew.heapEnd,
      hgrew.newPage, hgrew.oldPage, hgrew.newByte, hgrew.oldByte⟩
  case refused => exact exec_sbrk_of_refuse d (Memory.sbrk_eq_refuse.mpr ⟨hlimit, hmapped⟩)

end Sys2Proof
end

section
/-! PROOFS. The gas counter, the allotment and `faultIsWrite` are not observed (spec/60_exceptions.md R416, R427;
spec/10_state.md R43): every shared operation does the same whatever they hold, and so does every instruction. -/

namespace Sys2Proof.Machine

/-- The state with other values in the three fields that no instruction observes. -/
def State.withUnobserved (g g0 : Nat) (w : Bool) (s : State) : State :=
  { s with gas := g, initialGas := g0, faultIsWrite := w }

/-- `faultIsWrite` after an instruction that started with `w`: only FAULT writes it (spec/10_state.md R43). -/
def State.faultBit (w : Bool) (t : State) : Bool := if t.status = .fault then t.faultIsWrite else w

/-- The outcome of an instruction with other values in the unobserved fields before it. -/
def Out.withUnobserved (g g0 : Nat) (w : Bool) : Out → Out
  | .next t => .next (t.withUnobserved g g0 (t.faultBit w))
  | .fault f => .fault f
  | .refused r => .refused r

section
variable (g g0 : Nat) (w : Bool)

theorem takePageFault_withUnobserved (f : Fault) (s : State) :
    Host.Outcome.next (takePageFault f (s.withUnobserved g g0 w)) =
      Out.withUnobserved g g0 w (.next (takePageFault f s)) := by
  cases f
  rfl

theorem loadInto_withUnobserved (n : Nat) (ext : Nat → Word) (rd : Reg) (addr : Addr) (s : State) :
    loadInto n ext rd addr (s.withUnobserved g g0 w) = Out.withUnobserved g g0 w (loadInto n ext rd addr s) := by
  have hmem : (s.withUnobserved g g0 w).mem = s.mem := rfl
  rw [loadInto, loadInto, hmem]
  cases s.mem.read addr n with
  | error f => exact takePageFault_withUnobserved g g0 w f s
  | ok v => rfl

theorem storeAt_withUnobserved (n : Nat) (addr : Addr) (v : Word) (s : State) :
    storeAt n addr v (s.withUnobserved g g0 w) = Out.withUnobserved g g0 w (storeAt n addr v s) := by
  have hmem : (s.withUnobserved g g0 w).mem = s.mem := rfl
  rw [storeAt, storeAt, hmem]
  cases s.mem.write addr n v.toNat with
  | error f => exact takePageFault_withUnobserved g g0 w f s
  | ok m => rfl

theorem branch_withUnobserved (target : Int) (cond : Bool) (s : State) :
    Host.Outcome.next (branch target cond (s.withUnobserved g g0 w)) =
      Out.withUnobserved g g0 w (.next (branch target cond s)) := by
  have hprog : (s.withUnobserved g g0 w).prog = s.prog := rfl
  have hparams : (s.withUnobserved g g0 w).params = s.params := rfl
  cases cond with
  | false => rfl
  | true =>
    rw [branch_true, branch_true, hprog, hparams]
    cases isBB s.params s.prog target <;> rfl

theorem djump_withUnobserved (a : Addr) (s : State) :
    Host.Outcome.next (djump a (s.withUnobserved g g0 w)) = Out.withUnobserved g g0 w (.next (djump a s)) := by
  have hprog : (s.withUnobserved g g0 w).prog = s.prog := rfl
  have hparams : (s.withUnobserved g g0 w).params = s.params := rfl
  rw [djump_eq, djump_eq, hprog, hparams]
  split
  · rfl
  · cases dynamicTarget s.params s.prog a <;> rfl

theorem cmov_withUnobserved (c : Bool) (rd : Reg) (v : Word) (s : State) :
    cmov c rd v (s.withUnobserved g g0 w) = Out.withUnobserved g g0 w (cmov c rd v s) := by
  cases c <;> rfl

theorem execSbrk_withUnobserved (a d : Reg) (s : State) :
    execSbrk a d (s.withUnobserved g g0 w) = Out.withUnobserved g g0 w (execSbrk a d s) := by
  have hanswer : (s.withUnobserved g g0 w).mem.sbrk (s.withUnobserved g g0 w).params.heapLimit
      ((s.withUnobserved g g0 w).reg a).toNat = s.mem.sbrk s.params.heapLimit (s.reg a).toNat := rfl
  rw [execSbrk, execSbrk, hanswer]
  cases s.mem.sbrk s.params.heapLimit (s.reg a).toNat <;> rfl

/-- No instruction observes the three fields: by the shared operation that it is, and for one that only writes a
register by evaluation. -/
theorem exec_withUnobserved (i : Instr) (s : State) :
    exec i (s.withUnobserved g g0 w) = Out.withUnobserved g g0 w (exec i s) := by
  cases i
  case loadU8 | loadI8 | loadU16 | loadI16 | loadU32 | loadI32 | loadU64 | loadIndU8 | loadIndI8 | loadIndU16 |
      loadIndI16 | loadIndU32 | loadIndI32 | loadIndU64 =>
    exact loadInto_withUnobserved g g0 w _ _ _ _ s
  case storeImmU8 | storeImmU16 | storeImmU32 | storeImmU64 | storeU8 | storeU16 | storeU32 | storeU64 |
      storeImmIndU8 | storeImmIndU16 | storeImmIndU32 | storeImmIndU64 | storeIndU8 | storeIndU16 | storeIndU32 |
      storeIndU64 =>
    exact storeAt_withUnobserved g g0 w _ _ _ s
  case jump | branchEqImm | branchNeImm | branchLtUImm | branchLeUImm | branchGeUImm | branchGtUImm | branchLtSImm |
      branchLeSImm | branchGeSImm | branchGtSImm | branchEq | branchNe | branchLtU | branchLtS | branchGeU |
      branchGeS =>
    exact branch_withUnobserved g g0 w _ _ s
  case loadImmJump r x off => exact branch_withUnobserved g g0 w _ true (s.setReg r x)
  case jumpInd => exact djump_withUnobserved g g0 w _ s
  case loadImmJumpInd r b x y => exact djump_withUnobserved g g0 w _ (s.setReg r x)
  case cmovIzImm | cmovNzImm | cmovIz | cmovNz => exact cmov_withUnobserved g g0 w _ _ _ s
  case sbrk => exact execSbrk_withUnobserved g g0 w _ _ s
  all_goals rfl

end

/-- Two ready states that differ in the unobserved fields only take the same step, each at its own gas. -/
theorem step_withUnobserved {s : State} {g : Nat} (g0 : Nat) (w : Bool) (hready : s.Ready)
    (hg : opGas s.params s.opcode ≤ g) :
    step (s.withUnobserved g g0 w) = Out.withUnobserved (g - opGas s.params s.opcode) g0 w (step s) := by
  obtain ⟨hl, hok, hb, -⟩ := id hready
  have hready' : (s.withUnobserved g g0 w).Ready := ⟨hl, hok, hb, hg⟩
  have hdecode : (s.withUnobserved g g0 w).prog.decodeAt (s.withUnobserved g g0 w).params
      (s.withUnobserved g g0 w).pc.toNat = s.prog.decodeAt s.params s.pc.toNat := rfl
  rw [step_of_ready hready', step_of_ready hready, hdecode]
  cases s.prog.decodeAt s.params s.pc.toNat with
  | error e => rfl
  | ok i => exact exec_withUnobserved _ g0 w i s.charged

end Sys2Proof.Machine

namespace Sys2Proof

open Machine

/-- Settles O31: the decoded instruction is the same and does the same. -/
theorem gasIsUnobservable : Obligations.GasIsUnobservable := by
  intro s t g g0 w hready hg hstep
  have h := step_withUnobserved g0 w hready hg
  rw [hstep] at h
  exact h

end Sys2Proof
end

section
/-! PROOFS. The exceptions of a step (spec/60_exceptions.md R401–R405): for each status that a step can end with, when it
does and what the state then is. -/

namespace Sys2Proof.Machine

/-! ## The reasons for a PANIC of an instruction, and what it can have written -/

/-- The instruction is TRAP, or it jumps to a target or a dynamic address that is no block start (R401). -/
def State.PanicsOn (s : State) (i : Instr) : Prop :=
  i = .trap ∨ (∃ off, takenOffset i s = some off ∧ isBB s.params s.prog (s.pc.toNat + off) = false) ∨
    ∃ a, dynamicAddress i s = some a ∧ a ≠ s.params.haltAddress ∧ dynamicTarget s.params s.prog a = none

/-- The instruction at the pc writes `x` to `r` before it jumps. -/
def State.WritesBeforeJump (s : State) (r : Reg) (x : Word) : Prop :=
  (∃ off, s.prog.decodeAt s.params s.pc.toNat = .ok (.loadImmJump r x off)) ∨
    ∃ b y, s.prog.decodeAt s.params s.pc.toNat = .ok (.loadImmJumpInd r b x y)

theorem State.panicsOn_charged (s : State) (i : Instr) : s.charged.PanicsOn i ↔ s.PanicsOn i := by
  rw [State.PanicsOn, State.PanicsOn, takenOffset_charged, dynamicAddress_charged]
  rfl

theorem State.indAddr_charged (s : State) (r : Reg) (x : Word) : s.charged.indAddr r x = s.indAddr r x := rfl

/-! ## What the step of a running core ends with -/

/-- Why a step from `s` to `t` ends with a status, and what it then changed. -/
inductive StepOutcome (s t : State) : Status → Prop where
  | ok : StepOutcome s t .ok
  /-- The pc is no instruction boundary (R162). -/
  | invalidPc (hb : atBoundary s.prog s.pc.toNat = false) (ht : t = takeException .panic s) : StepOutcome s t .panic
  /-- The opcode has no instruction (R165). -/
  | unknownOpcode (hready : s.Ready) (hrow : s.params.row s.opcode = none)
      (ht : t = takeException .panic s.charged) : StepOutcome s t .panic
  /-- The instruction panics, some after a register write (R401). -/
  | panic (hready : s.Ready) (i : Instr) (hi : s.prog.decodeAt s.params s.pc.toNat = .ok i) (hpanics : s.PanicsOn i)
      (ht : t = takeException .panic s.charged ∨
        ∃ r x, s.WritesBeforeJump r x ∧ t = takeException .panic (s.charged.setReg r x)) : StepOutcome s t .panic
  /-- The gas charge underflows (R403). -/
  | oog (hb : atBoundary s.prog s.pc.toNat = true) (hgas : s.gas < opGas s.params s.opcode) : StepOutcome s t .oog
  /-- ECALLI (R404). -/
  | host (hready : s.Ready) (x : Word) (hi : s.prog.decodeAt s.params s.pc.toNat = .ok (.ecalli x)) :
      StepOutcome s t .host
  /-- A load or store of a byte that is not permitted (R402). -/
  | fault (hready : s.Ready) (i : Instr) (c : Access) (k : Nat) (hi : s.prog.decodeAt s.params s.pc.toNat = .ok i)
      (ha : accessOf i s = some c) (hoff : s.mem.FirstOffence c k) : StepOutcome s t .fault
  /-- A dynamic jump to the halt address (R405). -/
  | halt (hready : s.Ready) (i : Instr) (hi : s.prog.decodeAt s.params s.pc.toNat = .ok i)
      (hd : dynamicAddress i s = some s.params.haltAddress) : StepOutcome s t .halt

/-- The outcome of a step that executes is that of its instruction. -/
theorem stepOutcome_of_exec {s t : State} {i : Instr} (hready : s.Ready)
    (hi : s.prog.decodeAt s.params s.pc.toNat = .ok i) (h : exec i s.charged = .next t) :
    StepOutcome s t t.status := by
  cases exec_outcome h with
  | ok hok =>
    rw [hok]
    exact .ok
  | trap htrap ht =>
    rw [ht]
    exact .panic hready i hi (.inl htrap) (.inl rfl)
  | host x hx ht =>
    subst hx ht
    exact .host hready x hi
  | fault c k ha hoff ht =>
    subst ht
    exact .fault hready i c k hi ((accessOf_charged i s).symm.trans ha) hoff
  | badTarget off ho hb ht =>
    have hpanics : s.PanicsOn i := (s.panicsOn_charged i).mp (.inr (.inl ⟨off, ho, hb⟩))
    rcases ht with rfl | ⟨r, x, rfl, rfl⟩
    · exact .panic hready i hi hpanics (.inl rfl)
    · exact .panic hready _ hi hpanics (.inr ⟨r, x, .inl ⟨off, hi⟩, rfl⟩)
  | badAddress a hd hne hnone ht =>
    have hpanics : s.PanicsOn i := (s.panicsOn_charged i).mp (.inr (.inr ⟨a, hd, hne, hnone⟩))
    rcases ht with rfl | ⟨r, b, x, y, rfl, rfl⟩
    · exact .panic hready i hi hpanics (.inl rfl)
    · exact .panic hready _ hi hpanics (.inr ⟨r, x, .inr ⟨b, y, hi⟩, rfl⟩)
  | halt hd ht =>
    rw [dynamicAddress_charged] at hd
    rcases ht with rfl | ⟨r, b, x, y, -, rfl⟩
    · exact .halt hready i hi hd
    · exact .halt hready i hi hd

/-- Only an opcode without an instruction does not decode (spec/30_encoding.md R128). -/
theorem row_of_decodeAt_error {P : Params} {p : Program} {pc : Nat} {e : Reject} (h : p.decodeAt P pc = .error e) :
    P.row (opcodeAt p pc) = none := by
  rw [Program.decodeAt, decodeBytes, byteAt_drop_zero] at h
  rw [opcodeAt]
  cases hrow : P.row (byteAt p.code pc) with
  | none => rfl
  | some r =>
    rw [hrow] at h
    cases h

theorem step_outcome {s t : State} (hl : s.loaded = true) (hok : s.status = .ok) (h : step s = .next t) :
    StepOutcome s t t.status := by
  rcases step_cases hl with ⟨hne, -⟩ | ⟨-, hb, hs⟩ | ⟨-, hb, hgas, hs⟩ | ⟨hready, e, he, hs⟩ | ⟨hready, i, hi, hs⟩
  · exact absurd hok hne
  · cases hs.symm.trans h
    exact .invalidPc hb rfl
  · cases hs.symm.trans h
    exact .oog hb hgas
  · cases hs.symm.trans h
    exact .unknownOpcode hready (row_of_decodeAt_error he) rfl
  · exact stepOutcome_of_exec hready hi (hs.symm.trans h)

/-- A step that ended with a status `st` has one of the reasons for `st`. -/
theorem step_outcome_of_status {s t : State} {st : Status} (hl : s.loaded = true) (hok : s.status = .ok)
    (h : step s = .next t) (hst : t.status = st) : StepOutcome s t st :=
  hst ▸ step_outcome hl hok h

/-- No step leaves the status that a step ended with, other than OK (R411, R412). -/
theorem step_of_ended {s t : State} (hl : s.loaded = true) (h : step s = .next t) (hne : t.status ≠ .ok) :
    step t = .next t := by
  obtain ⟨hloaded, -⟩ := step_fixed h
  exact step_of_sticky (hloaded.trans hl) hne

/-! ## The step for each reason -/

theorem step_of_decoded {s : State} {i : Instr} (hready : s.Ready)
    (hi : s.prog.decodeAt s.params s.pc.toNat = .ok i) : step s = exec i s.charged := by
  rw [step_of_ready hready, hi]

theorem step_of_unknown {s : State} (hready : s.Ready) (hrow : s.params.row s.opcode = none) :
    step s = .next (takeException .panic s.charged) := by
  rw [step_of_ready hready, decodeAt_of_unknown hrow]

theorem step_of_firstOffence {s : State} {i : Instr} {c : Access} {k : Nat} (hready : s.Ready)
    (hi : s.prog.decodeAt s.params s.pc.toNat = .ok i) (ha : accessOf i s = some c) (hoff : s.mem.FirstOffence c k) :
    step s = .next (takeException (.fault (BitVec.ofNat 32 (accessAddr c.addr k)) c.isWrite) s.charged) := by
  rw [step_of_decoded hready hi, exec_of_firstOffence ((accessOf_charged i s).trans ha) hoff, ofNat_accessAddr]

/-- An instruction with a taken static jump branches to its target, in a state with the same program. -/
theorem exec_of_takenOffset {i : Instr} {s : State} {off : Int} (h : takenOffset i s = some off) :
    ∃ s', s'.params = s.params ∧ s'.prog = s.prog ∧ exec i s = .next (branch (s.target off) true s') := by
  cases exec_cases i s with
  | jump off' s' ho he hs =>
    cases ho.symm.trans h
    rcases hs with rfl | ⟨r, x, -, rfl⟩
    · exact ⟨s', rfl, rfl, he⟩
    · exact ⟨s.setReg r x, rfl, rfl, he⟩
  | plain _ _ _ _ ho => cases ho.symm.trans h
  | load _ _ _ _ _ _ ho => cases ho.symm.trans h
  | store _ _ _ _ _ ho => cases ho.symm.trans h
  | dynamic _ _ _ _ _ _ ho => cases ho.symm.trans h
  | trap hi =>
    subst hi
    cases h
  | ecalli x hi =>
    subst hi
    cases h
  | sbrk rA rD hi =>
    subst hi
    cases h

/-- An instruction with a dynamic address jumps through the jump table, in a state with the same program. -/
theorem exec_of_dynamicAddress {i : Instr} {s : State} {a : Addr} (h : dynamicAddress i s = some a) :
    ∃ s', s'.params = s.params ∧ s'.prog = s.prog ∧ exec i s = .next (djump a s') := by
  cases exec_cases i s with
  | dynamic a' s' hd he hs =>
    cases hd.symm.trans h
    rcases hs with rfl | ⟨r, b, x, y, -, rfl⟩
    · exact ⟨s', rfl, rfl, he⟩
    · exact ⟨s.setReg r x, rfl, rfl, he⟩
  | plain _ _ _ _ _ hd => cases hd.symm.trans h
  | load _ _ _ _ _ _ _ hd => cases hd.symm.trans h
  | store _ _ _ _ _ _ hd => cases hd.symm.trans h
  | jump _ _ _ _ _ _ hd => cases hd.symm.trans h
  | trap hi =>
    subst hi
    cases h
  | ecalli x hi =>
    subst hi
    cases h
  | sbrk rA rD hi =>
    subst hi
    cases h

/-- Each reason for a PANIC of an instruction suffices. -/
theorem exec_of_panicsOn {i : Instr} {s : State} (h : s.PanicsOn i) : ∃ t, exec i s = .next t ∧ t.status = .panic := by
  rcases h with rfl | ⟨off, ho, hb⟩ | ⟨a, hd, hne, hnone⟩
  · exact ⟨_, exec_trap s, rfl⟩
  · obtain ⟨s', hparams, hprog, he⟩ := exec_of_takenOffset ho
    rw [← hparams, ← hprog] at hb
    exact ⟨_, he.trans (congrArg _ (branch_true_of_not_isBB hb)), rfl⟩
  · obtain ⟨s', hparams, hprog, he⟩ := exec_of_dynamicAddress hd
    rw [← hparams] at hne
    rw [← hparams, ← hprog] at hnone
    exact ⟨_, he.trans (congrArg _ (djump_of_no_target hne hnone)), rfl⟩

/-- A dynamic jump to the halt address ends with HALT (R176). -/
theorem exec_of_haltAddress {i : Instr} {s : State} (h : dynamicAddress i s = some s.params.haltAddress) :
    ∃ t, exec i s = .next t ∧ t.status = .halt := by
  obtain ⟨s', hparams, -, he⟩ := exec_of_dynamicAddress h
  exact ⟨_, he.trans (congrArg _ (djump_of_haltAddress (congrArg Params.haltAddress hparams.symm))), rfl⟩

end Sys2Proof.Machine

namespace Sys2Proof

open Machine

/-- Settles O16: a step's charge underflows at a boundary only, before anything is executed. -/
theorem oogExactly : Obligations.OogExactly := by
  intro s hl hok
  refine ⟨⟨?onlyIf, fun ⟨hb, hgas⟩ => ⟨_, step_of_oog hl hok hb hgas, rfl⟩⟩,
    fun hb hgas => step_of_oog hl hok hb hgas, fun t h hst => step_of_ended hl h (by simp [hst])⟩
  rintro ⟨t, h, hst⟩
  cases step_outcome_of_status hl hok h hst with
  | oog hb hgas => exact ⟨hb, hgas⟩

/-- Settles O17: ECALLI is the only instruction that raises HOST. -/
theorem hostExactly : Obligations.HostExactly := by
  intro s hl hok
  have hecalli (x : Word) (hready : s.Ready) (hi : s.prog.decodeAt s.params s.pc.toNat = .ok (.ecalli x)) :
      step s = .next (takeException (.host (low32 x)) s.charged) := by
    rw [step_of_decoded hready hi, exec_ecalli]
  refine ⟨⟨?onlyIf, fun ⟨hready, x, hi⟩ => ⟨_, hecalli x hready hi, rfl⟩⟩, fun x hready hi => ?effect⟩
  case onlyIf =>
    rintro ⟨t, h, hst⟩
    cases step_outcome_of_status hl hok h hst with
    | host hready x hi => exact ⟨hready, x, hi⟩
  case effect =>
    rw [hecalli x hready hi, low32_eq_ofNat]
    rfl

/-- Settles O18: only a dynamic jump can halt, and it does so before it reads the jump table. -/
theorem haltExactly : Obligations.HaltExactly := by
  intro s hl hok
  refine ⟨⟨?onlyIf, ?halts⟩, fun r x hready hi ha => ?jumpInd, fun r b x y hready hi ha => ?loadImmJumpInd,
    fun t h hst => step_of_ended hl h (by simp [hst])⟩
  case onlyIf =>
    rintro ⟨t, h, hst⟩
    cases step_outcome_of_status hl hok h hst with
    | halt hready i hi hd => exact ⟨hready, i, hi, hd⟩
  case halts =>
    rintro ⟨hready, i, hi, hd⟩
    rw [step_of_decoded hready hi]
    exact exec_of_haltAddress ((dynamicAddress_charged i s).trans hd)
  case jumpInd =>
    rw [step_of_decoded hready hi, exec_jumpInd, State.indAddr_charged, djump_of_haltAddress (s := s.charged) ha]
    rfl
  case loadImmJumpInd =>
    rw [step_of_decoded hready hi, exec_loadImmJumpInd, State.indAddr_charged,
      djump_of_haltAddress (s := s.charged.setReg r x) ha]
    rfl

/-- Settles O19: only a load or store can fault, and it does so at its first offence. -/
theorem faultExactly : Obligations.FaultExactly := by
  intro s hl hok
  refine ⟨⟨?onlyIf, ?faults⟩, fun i c k hready hi ha hoff => step_of_firstOffence hready hi ha hoff,
    fun t h hst => step_of_ended hl h (by simp [hst])⟩
  case onlyIf =>
    rintro ⟨t, h, hst⟩
    cases step_outcome_of_status hl hok h hst with
    | fault hready i c k hi ha hoff => exact ⟨hready, i, c, k, hi, ha, hoff⟩
  case faults =>
    rintro ⟨hready, i, c, k, hi, ha, hoff⟩
    exact ⟨_, step_of_firstOffence hready hi ha hoff, rfl⟩

/-- Settles O20: the reasons for a PANIC of a step, and for each of them what the step changed. -/
theorem panicExactly : Obligations.PanicExactly := by
  intro s hl hok
  refine ⟨⟨?onlyIf, ?panics⟩, fun t h hst => ?effect⟩
  case onlyIf =>
    rintro ⟨t, h, hst⟩
    cases step_outcome_of_status hl hok h hst with
    | invalidPc hb => exact .inl hb
    | unknownOpcode hready hrow => exact .inr ⟨hready, .inl hrow⟩
    | panic hready i hi hpanics => exact .inr ⟨hready, .inr ⟨i, hi, hpanics⟩⟩
  case panics =>
    rintro (hb | ⟨hready, hrow | ⟨i, hi, hpanics⟩⟩)
    · exact ⟨_, step_of_invalid hl hok hb, rfl⟩
    · exact ⟨_, step_of_unknown hready hrow, rfl⟩
    · rw [step_of_decoded hready hi]
      exact exec_of_panicsOn ((s.panicsOn_charged i).mpr hpanics)
  case effect =>
    have hstays : step t = .next t := step_of_ended hl h (by simp [hst])
    cases step_outcome_of_status hl hok h hst with
    | invalidPc hb ht =>
      subst ht
      exact ⟨rfl, rfl, by rw [hb]; rfl, rfl, .inl rfl, hstays⟩
    | unknownOpcode hready hrow ht =>
      obtain ⟨-, -, hb, -⟩ := hready
      subst ht
      exact ⟨rfl, rfl, by rw [hb]; rfl, rfl, .inl rfl, hstays⟩
    | panic hready i hi hpanics ht =>
      obtain ⟨-, -, hb, -⟩ := hready
      rcases ht with rfl | ⟨r, x, hwrites, rfl⟩
      · exact ⟨rfl, rfl, by rw [hb]; rfl, rfl, .inl rfl, hstays⟩
      · exact ⟨rfl, rfl, by rw [hb]; rfl, rfl, .inr ⟨r, x, hwrites, rfl⟩, hstays⟩

end Sys2Proof
end

section
/-! PROOFS. The host's commands between resets (spec/60_exceptions.md R411, R412, R417): each keeps the invariant, and
none but `resumeHost` leaves a status other than OK. -/

namespace Sys2Proof.Machine

/-! ## The invariant -/

/-- A write of the host's memory port keeps the canonical form and the heap relations (spec/20_memory.md R90). -/
theorem State.Inv.of_writeBytes {s : State} {a : Addr} {bs : List Byte} {m : Memory} (hinv : s.Inv)
    (hw : s.mem.writeBytes a bs = .ok m) : State.Inv { s with mem := m } :=
  { params := hinv.params
    program := hinv.program
    gas := hinv.gas
    exit := hinv.exit
    memory := Memory.wf_writeBytes hw hinv.memory
    heap := (Memory.sameOutside_writeBytes hw).heapWf.trans hinv.heap }

/-- A gas counter in range keeps the invariant (spec/10_state.md R45). -/
theorem State.Inv.of_gas {s : State} {g : Nat} (hinv : s.Inv) (hg : g ≤ s.params.gasMax) :
    State.Inv { s with gas := g } := by
  obtain ⟨-, hinit⟩ := (State.gasWf_iff s).mp hinv.gas
  exact ⟨hinv.params, hinv.program, (State.gasWf_iff _).mpr ⟨hg, hinit⟩, hinv.exit, hinv.memory, hinv.heap⟩

theorem runSteps_inv {n : Nat} {s t : State} (hinv : s.Inv) (h : runSteps n s = .next t) : t.Inv :=
  runSteps_induction (fun _ _ => step_inv) n s t hinv h

theorem command_inv {c : Command} {s t : State} (hinv : s.Inv) (h : c.apply s = .ok t) : t.Inv := by
  rcases command_apply_cases h with hstep | hrun | ⟨-, -, rfl⟩ | ⟨x, rfl⟩ | ⟨g, hg, rfl⟩ | ⟨a, bs, m, hw, rfl⟩ | rfl
  · exact step_inv hinv hstep
  · exact runSteps_inv hinv hrun
  · exact ⟨hinv.params, hinv.program, hinv.gas, rfl, hinv.memory, hinv.heap⟩
  · exact ⟨hinv.params, hinv.program, hinv.gas, hinv.exit, hinv.memory, hinv.heap⟩
  · exact hinv.of_gas hg
  · exact hinv.of_writeBytes hw
  · exact hinv

/-! ## The return from an exception (R411, R412) -/

theorem resumeHost_of_host {s : State} (hl : s.loaded = true) (hst : s.status = .host) :
    resumeHost s = .next { s with status := .ok, exitParam := none } := by
  simp [resumeHost, hl, hst]

theorem resumeHost_refused {s : State} (h : s.loaded = false ∨ s.status ≠ .host) :
    ∃ r, resumeHost s = .refused r := by
  unfold resumeHost
  split
  · exact ⟨_, rfl⟩
  · next hl =>
    have hne : s.status ≠ .host := h.resolve_left (by simpa using hl)
    exact ⟨_, if_pos hne⟩

theorem step_eq_of_not_ok {s t : State} (hne : s.status ≠ .ok) (h : step s = .next t) : t = s := by
  cases hl : s.loaded with
  | false => cases (step_of_not_loaded hl).symm.trans h
  | true =>
    cases (step_of_sticky hl hne).symm.trans h
    rfl

/-- A run from a status other than OK makes one step, which changes nothing. -/
theorem runProgram_eq_of_not_ok {s t : State} (hne : s.status ≠ .ok) (h : runProgram s = .next t) : t = s := by
  cases hl : s.loaded with
  | false => cases (runSteps_succ_of_refused (step_of_not_loaded hl) s.gas).symm.trans h
  | true =>
    cases (runSteps_succ_of_not_ok (step_of_sticky hl hne) hne s.gas).symm.trans h
    rfl

theorem command_status {c : Command} {s t : State} (hne : s.status ≠ .ok) (h : c.apply s = .ok t) :
    t.status = s.status ∨ (c = .resumeHost ∧ s.status = .host ∧ t.status = .ok) := by
  rcases command_apply_cases h with hstep | hrun | ⟨hc, hst, rfl⟩ | ⟨x, rfl⟩ | ⟨g, -, rfl⟩ | ⟨a, bs, m, -, rfl⟩ | rfl
  · exact .inl (congrArg State.status (step_eq_of_not_ok hne hstep))
  · exact .inl (congrArg State.status (runProgram_eq_of_not_ok hne hrun))
  · exact .inr ⟨hc, hst, rfl⟩
  · exact .inl rfl
  · exact .inl rfl
  · exact .inl rfl
  · exact .inl rfl

end Sys2Proof.Machine

namespace Sys2Proof

open Machine

/-- Settles O26: steps and runs keep the invariant, and every other command by the field that it writes. -/
theorem commandsKeepInv : Obligations.CommandsKeepInv := fun _ _ _ => command_inv

/-- Settles O57: a step or a run changes nothing in a status other than OK, and the other commands write no status. -/
theorem onlyResumeLeavesHost : Obligations.OnlyResumeLeavesHost :=
  ⟨fun _ => resumeHost_of_host, fun _ => resumeHost_refused, fun _ _ _ => command_status⟩

end Sys2Proof
end

section
/-! PROOFS. The memory builder and the reset command (spec/70_reset_and_hazards.md R440–R446): what a builder makes is
canonical, and what a reset writes. -/

namespace Sys2Proof.Machine

/-! ## The memory builder (R443–R446) -/

theorem rangeOk_iff {start stop : Nat} {data : List Byte} :
    rangeOk start stop data = true ↔
      start % Config.pageSize = 0 ∧ stop % Config.pageSize = 0 ∧ start < stop ∧ stop ≤ Config.addrSpace ∧
        data.length ≤ stop - start := by
  simp only [rangeOk, Bool.and_eq_true, beq_iff_eq, decide_eq_true_eq, and_assoc]

/-- An accepted range maps its pages and stores its data. -/
theorem Builder.setRange_eq_ok {st : PageState} {start stop : Nat} {data : List Byte} {b b' : Builder}
    (h : b.setRange st start stop data = .ok b') :
    rangeOk start stop data = true ∧
      b'.mem = (b.mem.mapPages st (start / Config.pageSize) ((stop - start) / Config.pageSize)).setBytes
        (dataCells start data) := by
  simp only [Builder.setRange] at h
  split at h
  · cases h
  · next hok =>
    simp only [Bool.or_eq_true, not_or, Bool.not_eq_true', Bool.not_eq_false] at hok
    obtain ⟨⟨-, hrange⟩, -⟩ := hok
    cases h
    exact ⟨hrange, rfl⟩

theorem exists_of_mem_dataCells {start : Nat} {data : List Byte} {e : Nat × Byte} (h : e ∈ dataCells start data) :
    ∃ i, i < data.length ∧ e.1 = start + i := by
  obtain ⟨haddr, -⟩ := List.of_mem_zip h
  obtain ⟨i, hi, heq⟩ := List.mem_map.mp haddr
  exact ⟨i, List.mem_range.mp hi, heq.symm⟩

/-- Storing bytes of mapped pages keeps the canonical form. -/
theorem Memory.wf_setBytes {m : Memory} {l : List (Nat × Byte)} (hwf : m.wf = true)
    (hl : ∀ e ∈ l, e.1 < Config.addrSpace ∧ m.canRead e.1 = true) : (m.setBytes l).wf = true := by
  obtain ⟨hpages, hcells⟩ := m.wf_iff.mp hwf
  refine (Memory.wf_iff _).mpr ⟨?_, Memory.cellsWf_setBytes hcells l hl⟩
  rwa [Memory.pagesWf, Memory.setBytes_pages]

/-- The bytes of a page that was mapped are readable. -/
theorem Memory.mapPages_canRead (m : Memory) {st : PageState} (hst : st ≠ .unmapped) {p n a : Nat}
    (hp : p ≤ a / Config.pageSize ∧ a / Config.pageSize < p + n) : (m.mapPages st p n).canRead a = true := by
  rw [Memory.canRead, Memory.mapPages_pageState m hst, if_pos hp]
  exact bne_iff_ne.mpr hst

/-- An accepted range keeps the canonical form: its pages exist, and its data lies in them (R443, R444). -/
theorem Builder.setRange_wf {st : PageState} {start stop : Nat} {data : List Byte} {b b' : Builder}
    (hst : st ≠ .unmapped) (hwf : b.mem.wf = true) (h : b.setRange st start stop data = .ok b') :
    b'.mem.wf = true := by
  obtain ⟨hrange, hmem⟩ := Builder.setRange_eq_ok h
  obtain ⟨hstart, hstop, hlt, hle, hlen⟩ := rangeOk_iff.mp hrange
  simp only [Config.pageSize, Config.addrSpace] at hstart hstop hle
  rw [hmem]
  refine Memory.wf_setBytes (Memory.wf_mapPages hwf hst _ _ ?_) fun e he => ?_
  · simp only [Config.pageSize, Config.numPages]
    omega
  · obtain ⟨i, hi, heq⟩ := exists_of_mem_dataCells he
    rw [heq]
    refine ⟨?_, Memory.mapPages_canRead b.mem hst ?_⟩
    · simp only [Config.addrSpace]
      omega
    · simp only [Config.pageSize]
      omega

/-- What `finalize` makes of the memory (R445). -/
theorem finalize_eq_ok {hs he : Nat} {b b' : Builder} (h : finalize hs he b = .ok b') :
    heapBoundsOk hs he = true ∧
      b'.mem = { b.mem with heapStart := hs, heapEnd := he, heapPtr := hs, heapTop := hs } := by
  unfold finalize at h
  split at h
  · cases h
  · next hok =>
    simp only [Bool.or_eq_true, not_or, Bool.not_eq_true', Bool.not_eq_false] at hok
    obtain ⟨⟨-, hbounds⟩, -⟩ := hok
    cases h
    exact ⟨hbounds, rfl⟩

/-- A heap that has not grown yet has no pages and its end at its aligned start. -/
theorem Memory.heapWf_of_bounds (m : Memory) {hs he : Nat} (h : heapBoundsOk hs he = true) :
    Memory.heapWf { m with heapStart := hs, heapEnd := he, heapPtr := hs, heapTop := hs } = true := by
  simp only [heapBoundsOk, Bool.and_eq_true, beq_iff_eq, decide_eq_true_eq] at h
  obtain ⟨⟨⟨hstart, hend⟩, hle⟩, hspace⟩ := h
  simp only [Memory.heapWf, Nat.sub_self, Memory.allWritable, Bool.and_eq_true, beq_iff_eq, decide_eq_true_eq]
  exact ⟨⟨⟨⟨⟨⟨⟨hstart, hend⟩, hle⟩, hspace⟩, le_rfl⟩, hle.trans hspace⟩, (alignUp_of_mod hstart).symm⟩, trivial⟩

/-- `finalize` writes the heap registers only, and makes them consistent (R445). -/
theorem finalize_wf {hs he : Nat} {b b' : Builder} (hwf : b.mem.wf = true) (h : finalize hs he b = .ok b') :
    b'.mem.wf = true ∧ b'.mem.heapWf = true := by
  obtain ⟨hbounds, hmem⟩ := finalize_eq_ok h
  rw [hmem]
  exact ⟨hwf, b.mem.heapWf_of_bounds hbounds⟩

/-! ## The arguments of reset (R440, R441) -/

theorem resetNumbersOk_iff {P : Params} {pc0 gas0 : Int} :
    resetNumbersOk P pc0 gas0 = true ↔ 0 ≤ pc0 ∧ pc0 < 2 ^ 32 ∧ 0 ≤ gas0 ∧ gas0 ≤ P.gasMax := by
  simp only [resetNumbersOk, Bool.and_eq_true, decide_eq_true_eq, and_assoc]

/-- The registers that reset takes from values in range: all 0 when they are omitted. -/
theorem exists_resetRegs {regs : Option (List Int)}
    (h : ∀ l, regs = some l → l.length = 13 ∧ ∀ v ∈ l, 0 ≤ v ∧ v < 2 ^ 64) :
    ∃ x : Vector Word 13, resetRegs regs = some x ∧ (regs = none → ∀ r : Reg, x[r.val] = 0) ∧
      ∀ l, regs = some l → ∀ r : Reg, (x[r.val].toNat : Int) = l.getD r.val 0 := by
  cases regs with
  | none => exact ⟨_, rfl, fun _ r => Vector.getElem_replicate r.isLt, nofun⟩
  | some l =>
    obtain ⟨hlen, hrange⟩ := h l rfl
    have hall : l.all (fun v => decide (0 ≤ v) && decide (v < (2 : Int) ^ 64)) = true := by
      simpa only [List.all_eq_true, Bool.and_eq_true, decide_eq_true_eq] using hrange
    refine ⟨_, if_pos ⟨hlen, hall⟩, nofun, fun l' hl' r => ?_⟩
    cases hl'
    have hr : r.val < l.length := by omega
    obtain ⟨hnonneg, hlt⟩ := hrange _ (List.getElem_mem hr)
    rw [Vector.getElem_ofFn, List.getD_eq_getElem _ _ hr]
    exact (toNat_u64 _).trans (Int.emod_eq_of_lt hnonneg hlt)

/-- The memory that reset takes from a finalized builder: the empty one when it is omitted. -/
theorem exists_resetMem {mem : Option Builder} (h : ∀ b, mem = some b → b.finalized = true) :
    ∃ m, resetMem mem = some m ∧ (mem = none → m = Memory.empty) ∧ ∀ b, mem = some b → m = b.mem := by
  cases mem with
  | none => exact ⟨_, rfl, fun _ => rfl, nofun⟩
  | some b =>
    refine ⟨_, if_pos (h b rfl), nofun, fun b' hb' => ?_⟩
    cases hb'
    rfl

theorem resetMem_wf {mem : Option Builder} {m : Memory}
    (h : ∀ b, mem = some b → b.mem.wf = true ∧ b.mem.heapWf = true) (hm : resetMem mem = some m) :
    m.wf = true ∧ m.heapWf = true := by
  cases mem with
  | none =>
    cases hm
    exact ⟨Memory.empty_wf, Memory.empty_heapWf⟩
  | some b =>
    simp only [resetMem, Option.ite_none_right_eq_some] at hm
    obtain ⟨-, hb⟩ := hm
    cases hb
    exact h b rfl

/-! ## What reset answers (R441, R442) -/

/-- A program that a blob decodes to has a mask of its length and a length of 32 bits (spec/30_encoding.md R111). -/
theorem decodeProgram_wf {blob : List Byte} {p : Program} (h : decodeProgram blob = .ok p) : p.wf = true := by
  obtain ⟨f, -, hvalid, -, hcode, hmask⟩ := decodeProgram_eq_ok h
  rw [Program.wf_iff, hcode, hmask]
  exact ⟨rfl, hvalid.codeLen.le_max⟩

theorem hostReset_inv {blob : List Byte} {pc0 gas0 : Int} {regs : Option (List Int)} {mem : Option Builder}
    {s t : State} (hparams : s.params.wf = true)
    (hmem : ∀ b, mem = some b → b.mem.wf = true ∧ b.mem.heapWf = true)
    (h : hostReset blob pc0 gas0 regs mem s = .done t) : t.Inv := by
  rcases hostReset_cases blob pc0 gas0 regs mem s with hr | ⟨e, -, hr⟩ | ⟨p, x, m, hnumbers, -, hm, hp, hr⟩
  · cases hr.symm.trans h
  · cases hr.symm.trans h
  · cases hr.symm.trans h
    obtain ⟨-, -, hnonneg, hgas⟩ := resetNumbersOk_iff.mp hnumbers
    obtain ⟨hwf, hheap⟩ := resetMem_wf hmem hm
    have hgasMax : gas0.toNat ≤ s.params.gasMax := Int.toNat_le.mpr hgas
    exact ⟨hparams, decodeProgram_wf hp, (State.gasWf_iff _).mpr ⟨hgasMax, hgasMax⟩, rfl, hwf, hheap⟩

section
variable {blob : List Byte} {pc0 gas0 : Int} {regs : Option (List Int)} {mem : Option Builder} {s : State}
  {x : Vector Word 13} {m : Memory}

theorem hostReset_of_ok {p : Program} (hnumbers : resetNumbersOk s.params pc0 gas0 = true)
    (hregs : resetRegs regs = some x) (hmem : resetMem mem = some m) (hp : decodeProgram blob = .ok p) :
    hostReset blob pc0 gas0 regs mem s = .done (loadedState s.params p pc0 gas0 x m) := by
  simp only [hostReset, hnumbers, hregs, hmem, hp]

theorem hostReset_of_error {e : BlobError} (hnumbers : resetNumbersOk s.params pc0 gas0 = true)
    (hregs : resetRegs regs = some x) (hmem : resetMem mem = some m) (he : decodeProgram blob = .error e) :
    hostReset blob pc0 gas0 regs mem s = .decodeError e (unloadedFrom s) := by
  simp only [hostReset, hnumbers, hregs, hmem, he]

end

/-- A number in range fits in the pc. -/
theorem toNat_ofInt_of_lt {i : Int} (hnonneg : 0 ≤ i) (hlt : i < 2 ^ 32) : ((BitVec.ofInt 32 i).toNat : Int) = i := by
  rw [BitVec.toNat_ofInt]
  omega

end Sys2Proof.Machine

namespace Sys2Proof

open Machine

/-- Settles O27: the builder maps pages that exist and stores data in them, and a blob decodes to a well-formed
program. -/
theorem builderAndResetMakeInv : Obligations.BuilderAndResetMakeInv :=
  ⟨Memory.empty_wf, fun _ _ _ _ _ _ hst hwf h => Builder.setRange_wf hst hwf h, fun _ _ _ _ => finalize_wf,
    fun _ _ _ _ _ _ _ => hostReset_inv⟩

/-- Settles O58: with arguments in range reset gets as far as the blob, and the state before gives the parameters
only. -/
theorem resetSequence : Obligations.ResetSequence := by
  intro blob pc0 gas0 regs mem s hpc hpc' hgas hgas' hregs hmem
  have hnumbers : resetNumbersOk s.params pc0 gas0 = true := resetNumbersOk_iff.mpr ⟨hpc, hpc', hgas, hgas'⟩
  obtain ⟨x, hx, hxnone, hxsome⟩ := exists_resetRegs hregs
  obtain ⟨m, hm, hmnone, hmsome⟩ := exists_resetMem hmem
  refine ⟨fun p hp => ?done, fun e he => ?error⟩
  case done =>
    refine ⟨loadedState s.params p pc0 gas0 x m, fun s' hs' => ?_, rfl, rfl, rfl, toNat_ofInt_of_lt hpc hpc',
      Int.toNat_of_nonneg hgas, Int.toNat_of_nonneg hgas, rfl, rfl, hxnone, hxsome, hmnone, hmsome⟩
    rw [← hs']
    exact hostReset_of_ok (hs' ▸ hnumbers) hx hm hp
  case error => exact ⟨_, hostReset_of_error hnumbers hx hm he, rfl, rfl, rfl⟩

end Sys2Proof
end

section
/-! PROOFS. Arithmetic and comparisons (spec/47_math.md R320–R353): the value of each operation on words as an operation
on numbers, unsigned or signed, and with these the result of every instruction. A 32-bit result is sign-extended, so
its value at 32 bits is all there is to show. -/

namespace Sys2Proof.Machine

/-! ## From the value of a result to the shape of the instruction -/

/-- A 32-bit result is written as the sign extension of its value (spec/10_state.md R34). -/
theorem sext32_eq_sext (r : BitVec 32) : sext32 r = sext 32 r.toNat := by
  rw [sext32, sext, BitVec.ofNat_toNat, BitVec.setWidth_eq]

/-- A 32-bit result is written as its signed reading. -/
theorem sext32_eq_u64 (r : BitVec 32) : sext32 r = u64 r.toInt := rfl

/-- A word is given by its signed reading. -/
theorem u64_s64 (v : Word) : u64 (s64 v) = v := BitVec.ofInt_toInt

section
variable {i : Instr} {rd : Reg} {s : State}

theorem computes_of_toNat_eq_32 {r : BitVec 32} {n : Nat} (h : exec i s = writeResult rd (sext32 r) s)
    (hr : r.toNat = n) : Computes i rd (sext 32 n) s :=
  computes_of_writeResult h (hr ▸ sext32_eq_sext r)

theorem computes_of_toInt_eq_32 {r : BitVec 32} {j : Int} (h : exec i s = writeResult rd (sext32 r) s)
    (hr : r.toInt = j) : Computes i rd (u64 j) s :=
  computes_of_writeResult h (hr ▸ sext32_eq_u64 r)

theorem computes_of_s64_eq {v : Word} {j : Int} (h : exec i s = writeResult rd v s) (hv : s64 v = j) :
    Computes i rd (u64 j) s :=
  computes_of_writeResult h (hv ▸ (u64_s64 v).symm)

end

/-! ## Sums, differences and products (R321, R322, R325, R328–R333, R338–R340) -/

theorem toNat_low32_add (a b : Word) : (low32 a + low32 b).toNat = (a.toNat + b.toNat) % 2 ^ 32 := by
  rw [BitVec.toNat_add, toNat_low32, toNat_low32, ← Nat.add_mod]

theorem toNat_low32_sub (a b : Word) :
    (low32 a - low32 b).toNat = (a.toNat + 2 ^ 32 - b.toNat % 2 ^ 32) % 2 ^ 32 := by
  rw [BitVec.toNat_sub, toNat_low32, toNat_low32]
  omega

theorem toNat_low32_mul (a b : Word) : (low32 a * low32 b).toNat = a.toNat * b.toNat % 2 ^ 32 := by
  rw [BitVec.toNat_mul, toNat_low32, toNat_low32, ← Nat.mul_mod]

theorem Val.toNat_add64 (a b : Word) : (Val.add64 a b).toNat = (a.toNat + b.toNat) % 2 ^ 64 := BitVec.toNat_add a b

theorem Val.toNat_sub64 (a b : Word) : (Val.sub64 a b).toNat = (a.toNat + 2 ^ 64 - b.toNat) % 2 ^ 64 := by
  rw [Val.sub64, BitVec.toNat_sub]
  omega

theorem Val.toNat_mul64 (a b : Word) : (Val.mul64 a b).toNat = a.toNat * b.toNat % 2 ^ 64 := BitVec.toNat_mul a b

theorem Val.negAdd64_eq (a b : Word) : Val.negAdd64 a b = u64 ((b.toNat : Int) - a.toNat) := by
  have hvalue := toNat_u64 ((b.toNat : Int) - a.toNat)
  apply BitVec.eq_of_toNat_eq
  rw [Val.negAdd64, BitVec.toNat_sub]
  omega

/-! ## The upper halves of products (R345–R347) -/

/-- The upper half of a product of 128 bits is the product divided by 2^64, rounding down. -/
theorem upper64_ofInt (p : Int) : upper64 (BitVec.ofInt 128 p) = u64 (p / 2 ^ 64) := by
  have hvalue := toNat_u64 (p / 2 ^ 64)
  apply BitVec.eq_of_toNat_eq
  rw [upper64, BitVec.toNat_setWidth, BitVec.toNat_ushiftRight, BitVec.toNat_ofInt, Nat.shiftRight_eq_div_pow]
  omega

theorem signExtend_eq_ofInt (v : Word) : v.signExtend 128 = BitVec.ofInt 128 (s64 v) := rfl

theorem setWidth_eq_ofInt (v : Word) : v.setWidth 128 = BitVec.ofInt 128 v.toNat := by
  rw [BitVec.ofInt_natCast, BitVec.ofNat_toNat]

theorem Val.mulUpperSS_eq (a b : Word) : Val.mulUpperSS a b = u64 (s64 a * s64 b / 2 ^ 64) := by
  rw [Val.mulUpperSS, signExtend_eq_ofInt, signExtend_eq_ofInt, ← BitVec.ofInt_mul, upper64_ofInt]

theorem Val.mulUpperSU_eq (a b : Word) : Val.mulUpperSU a b = u64 (s64 a * b.toNat / 2 ^ 64) := by
  rw [Val.mulUpperSU, signExtend_eq_ofInt, setWidth_eq_ofInt, ← BitVec.ofInt_mul, upper64_ofInt]

theorem Val.mulUpperUU_eq (a b : Word) : Val.mulUpperUU a b = BitVec.ofNat 64 (a.toNat * b.toNat / 2 ^ 64) := by
  have hcast : (a.toNat : Int) * b.toNat / 2 ^ 64 = (a.toNat * b.toNat / 2 ^ 64 : Nat) := by push_cast; rfl
  rw [Val.mulUpperUU, setWidth_eq_ofInt, setWidth_eq_ofInt, ← BitVec.ofInt_mul, upper64_ofInt, hcast, u64,
    BitVec.ofInt_natCast]

/-! ## Unsigned division (R334, R336, R341, R343) -/

theorem low32_eq_zero_iff (v : Word) : low32 v = 0 ↔ v.toNat % 2 ^ 32 = 0 := by
  rw [← BitVec.toNat_inj, toNat_low32]
  rfl

theorem word_eq_zero_iff (v : Word) : v = 0 ↔ v.toNat = 0 := by
  rw [← BitVec.toNat_inj]
  rfl

theorem allOnes_eq_ofNat : BitVec.allOnes 64 = BitVec.ofNat 64 (2 ^ 64 - 1) := rfl

theorem Val.divU32_eq (a b : Word) : Val.divU32 a b =
    if b.toNat % 2 ^ 32 = 0 then BitVec.ofNat 64 (2 ^ 64 - 1)
      else sext 32 (a.toNat % 2 ^ 32 / (b.toNat % 2 ^ 32)) := by
  refine if_congr (low32_eq_zero_iff b) allOnes_eq_ofNat ?_
  rw [sext32_eq_sext, BitVec.toNat_udiv, toNat_low32, toNat_low32]

theorem Val.remU32_eq (a b : Word) : Val.remU32 a b =
    if b.toNat % 2 ^ 32 = 0 then sext 32 (a.toNat % 2 ^ 32)
      else sext 32 (a.toNat % 2 ^ 32 % (b.toNat % 2 ^ 32)) := by
  refine if_congr (low32_eq_zero_iff b) ?_ ?_
  · rw [sext32_eq_sext, toNat_low32]
  · rw [sext32_eq_sext, BitVec.toNat_umod, toNat_low32, toNat_low32]

theorem Val.divU64_eq (a b : Word) : Val.divU64 a b =
    if b.toNat = 0 then BitVec.ofNat 64 (2 ^ 64 - 1) else BitVec.ofNat 64 (a.toNat / b.toNat) :=
  if_congr (word_eq_zero_iff b) allOnes_eq_ofNat (eq_ofNat_of_toNat_eq BitVec.toNat_udiv)

theorem Val.remU64_eq (a b : Word) : Val.remU64 a b =
    if b.toNat = 0 then a else BitVec.ofNat 64 (a.toNat % b.toNat) :=
  if_congr (word_eq_zero_iff b) rfl (eq_ofNat_of_toNat_eq BitVec.toNat_umod)

/-! ## Signed division, at every width (R335, R337, R342, R344) -/

section
variable {n : Nat} (x y : BitVec (n + 1))

theorem toInt_intMin : (BitVec.intMin (n + 1)).toInt = -2 ^ n := BitVec.toInt_intMin_of_pos n.succ_pos

theorem toInt_neg_one : (-1#(n + 1)).toInt = -1 := by
  rw [BitVec.neg_one_eq_allOnes, BitVec.toInt_allOnes, if_pos n.succ_pos]

/-- The one overflow: the least value divided by −1. -/
theorem divisionOverflows_iff :
    x.toInt = -2 ^ n ∧ y.toInt = -1 ↔ x = BitVec.intMin (n + 1) ∧ y = -1#(n + 1) := by
  rw [← toInt_intMin, ← toInt_neg_one (n := n), BitVec.toInt_inj, BitVec.toInt_inj]

/-- The quotient is rounded toward 0, and the overflow leaves the dividend. -/
theorem toInt_sdiv_eq_ite :
    (x.sdiv y).toInt = if x.toInt = -2 ^ n ∧ y.toInt = -1 then x.toInt else x.toInt.tdiv y.toInt := by
  split
  case isTrue h =>
    obtain ⟨rfl, rfl⟩ := (divisionOverflows_iff x y).mp h
    rw [BitVec.intMin_sdiv_neg_one]
  case isFalse h =>
    rw [divisionOverflows_iff, not_and_or] at h
    exact BitVec.toInt_sdiv_of_ne_or_ne x y h

/-- The remainder is what the quotient leaves of the dividend, and 0 for the overflow. -/
theorem toInt_srem_eq_ite :
    (x.srem y).toInt =
      if x.toInt = -2 ^ n ∧ y.toInt = -1 then 0 else x.toInt - y.toInt * x.toInt.tdiv y.toInt := by
  rw [BitVec.toInt_srem]
  split
  case isTrue h =>
    obtain ⟨-, hy⟩ := h
    rw [hy, Int.tmod_neg, Int.tmod_one]
  case isFalse => exact Int.tmod_def _ _

end

theorem low32_eq_zero_iff_s32 (v : Word) : low32 v = 0 ↔ s32 v = 0 := by
  rw [← BitVec.toInt_inj]
  rfl

theorem word_eq_zero_iff_s64 (v : Word) : v = 0 ↔ s64 v = 0 := by
  rw [← BitVec.toInt_inj]
  rfl

theorem Val.divS32_eq (a b : Word) : Val.divS32 a b =
    if s32 b = 0 then BitVec.ofNat 64 (2 ^ 64 - 1)
      else if s32 a = -2 ^ 31 ∧ s32 b = -1 then u64 (s32 a) else u64 ((s32 a).tdiv (s32 b)) := by
  refine if_congr (low32_eq_zero_iff_s32 b) allOnes_eq_ofNat ?_
  rw [sext32_eq_u64, toInt_sdiv_eq_ite (n := 31), apply_ite u64]
  rfl

theorem Val.remS32_eq (a b : Word) : Val.remS32 a b =
    if s32 b = 0 then u64 (s32 a)
      else if s32 a = -2 ^ 31 ∧ s32 b = -1 then 0 else u64 (s32 a - s32 b * (s32 a).tdiv (s32 b)) := by
  refine if_congr (low32_eq_zero_iff_s32 b) rfl ?_
  rw [sext32_eq_u64, toInt_srem_eq_ite (n := 31), apply_ite u64]
  rfl

theorem Val.divS64_eq (a b : Word) : Val.divS64 a b =
    if s64 b = 0 then BitVec.ofNat 64 (2 ^ 64 - 1)
      else if s64 a = -2 ^ 63 ∧ s64 b = -1 then a else u64 ((s64 a).tdiv (s64 b)) := by
  refine if_congr (word_eq_zero_iff_s64 b) allOnes_eq_ofNat ?_
  rw [← u64_s64 (a.sdiv b), s64, toInt_sdiv_eq_ite (n := 63), apply_ite u64]
  exact if_congr Iff.rfl (u64_s64 a) rfl

theorem Val.remS64_eq (a b : Word) : Val.remS64 a b =
    if s64 b = 0 then a
      else if s64 a = -2 ^ 63 ∧ s64 b = -1 then 0 else u64 (s64 a - s64 b * (s64 a).tdiv (s64 b)) := by
  refine if_congr (word_eq_zero_iff_s64 b) rfl ?_
  rw [← u64_s64 (a.srem b), s64, toInt_srem_eq_ite (n := 63), apply_ite u64]
  rfl

/-! ## Comparisons, maximum and minimum (R323, R324, R326, R327, R348–R353) -/

theorem ofCond_eq_ite {c : Bool} {p : Prop} [Decidable p] (h : c = true ↔ p) : ofCond c = if p then 1 else 0 :=
  if_congr h rfl rfl

theorem Val.s64_maxS (a b : Word) : s64 (Val.maxS a b) = max (s64 a) (s64 b) := by
  simp only [Val.maxS, apply_ite s64, ltS_iff]
  split <;> omega

theorem Val.s64_minS (a b : Word) : s64 (Val.minS a b) = min (s64 a) (s64 b) := by
  simp only [Val.minS, apply_ite s64, ltS_iff]
  split <;> omega

theorem Val.toNat_maxU (a b : Word) : (Val.maxU a b).toNat = max a.toNat b.toNat := by
  simp only [Val.maxU, apply_ite BitVec.toNat, ltU_iff]
  split <;> omega

theorem Val.toNat_minU (a b : Word) : (Val.minU a b).toNat = min a.toNat b.toNat := by
  simp only [Val.minU, apply_ite BitVec.toNat, ltU_iff]
  split <;> omega

end Sys2Proof.Machine

namespace Sys2Proof

open Machine

/-- Settles O39: each sum or difference by its value, at 32 bits or at 64. -/
theorem addSubResults : Obligations.AddSubResults := by
  intro s a b d x
  refine ⟨?addImm32, ?negAddImm32, ?addImm64, ?negAddImm64, ?add32, ?sub32, ?add64, ?sub64⟩
  case addImm32 => exact computes_of_toNat_eq_32 rfl (toNat_low32_add (s.reg b) x)
  case negAddImm32 => exact computes_of_toNat_eq_32 rfl (toNat_low32_sub x (s.reg b))
  case addImm64 => exact computes_of_toNat_eq rfl (Val.toNat_add64 (s.reg b) x)
  case negAddImm64 => exact computes_of_writeResult rfl (Val.negAdd64_eq (s.reg b) x)
  case add32 => exact computes_of_toNat_eq_32 rfl (toNat_low32_add (s.reg a) (s.reg b))
  case sub32 => exact computes_of_toNat_eq_32 rfl (toNat_low32_sub (s.reg a) (s.reg b))
  case add64 => exact computes_of_toNat_eq rfl (Val.toNat_add64 (s.reg a) (s.reg b))
  case sub64 => exact computes_of_toNat_eq rfl (Val.toNat_sub64 (s.reg a) (s.reg b))

/-- Settles O40: the low halves of products by their values, the upper halves by a product of 128 bits. -/
theorem mulResults : Obligations.MulResults := by
  intro s a b d x
  refine ⟨?mulImm32, ?mulImm64, ?mul32, ?mul64, ?upperSS, ?upperUU, ?upperSU⟩
  case mulImm32 => exact computes_of_toNat_eq_32 rfl (toNat_low32_mul (s.reg b) x)
  case mulImm64 => exact computes_of_toNat_eq rfl (Val.toNat_mul64 (s.reg b) x)
  case mul32 => exact computes_of_toNat_eq_32 rfl (toNat_low32_mul (s.reg a) (s.reg b))
  case mul64 => exact computes_of_toNat_eq rfl (Val.toNat_mul64 (s.reg a) (s.reg b))
  case upperSS => exact computes_of_writeResult rfl (Val.mulUpperSS_eq (s.reg a) (s.reg b))
  case upperUU => exact computes_of_writeResult rfl (Val.mulUpperUU_eq (s.reg a) (s.reg b))
  case upperSU => exact computes_of_writeResult rfl (Val.mulUpperSU_eq (s.reg a) (s.reg b))

/-- Settles O41: a divisor 0 is told by its value, and otherwise quotient and remainder are those of the values. -/
theorem unsignedDivisionResults : Obligations.UnsignedDivisionResults := by
  intro s a b d
  refine ⟨?div32, ?rem32, ?div64, ?rem64⟩
  case div32 => exact computes_of_writeResult rfl (Val.divU32_eq (s.reg a) (s.reg b))
  case rem32 => exact computes_of_writeResult rfl (Val.remU32_eq (s.reg a) (s.reg b))
  case div64 => exact computes_of_writeResult rfl (Val.divU64_eq (s.reg a) (s.reg b))
  case rem64 => exact computes_of_writeResult rfl (Val.remU64_eq (s.reg a) (s.reg b))

/-- Settles O42: the signed quotient and remainder with their overflow, at 32 bits and at 64. -/
theorem signedDivisionResults : Obligations.SignedDivisionResults := by
  intro s a b d
  refine ⟨?div32, ?rem32, ?div64, ?rem64⟩
  case div32 => exact computes_of_writeResult rfl (Val.divS32_eq (s.reg a) (s.reg b))
  case rem32 => exact computes_of_writeResult rfl (Val.remS32_eq (s.reg a) (s.reg b))
  case div64 => exact computes_of_writeResult rfl (Val.divS64_eq (s.reg a) (s.reg b))
  case rem64 => exact computes_of_writeResult rfl (Val.remS64_eq (s.reg a) (s.reg b))

/-- Settles O43: each comparison is a relation of the values, and maximum and minimum follow from it. -/
theorem comparisonResults : Obligations.ComparisonResults := by
  intro s a b d x
  refine ⟨?ltUImm, ?ltSImm, ?gtUImm, ?gtSImm, ?ltU, ?ltS, ?maxS, ?maxU, ?minS, ?minU⟩
  case ltUImm => exact computes_of_writeResult rfl (ofCond_eq_ite (ltU_iff (s.reg b) x))
  case ltSImm => exact computes_of_writeResult rfl (ofCond_eq_ite (ltS_iff (s.reg b) x))
  case gtUImm => exact computes_of_writeResult rfl (ofCond_eq_ite (ltU_iff x (s.reg b)))
  case gtSImm => exact computes_of_writeResult rfl (ofCond_eq_ite (ltS_iff x (s.reg b)))
  case ltU => exact computes_of_writeResult rfl (ofCond_eq_ite (ltU_iff (s.reg a) (s.reg b)))
  case ltS => exact computes_of_writeResult rfl (ofCond_eq_ite (ltS_iff (s.reg a) (s.reg b)))
  case maxS => exact computes_of_s64_eq rfl (Val.s64_maxS (s.reg a) (s.reg b))
  case maxU => exact computes_of_toNat_eq rfl (Val.toNat_maxU (s.reg a) (s.reg b))
  case minS => exact computes_of_s64_eq rfl (Val.s64_minS (s.reg a) (s.reg b))
  case minU => exact computes_of_toNat_eq rfl (Val.toNat_minU (s.reg a) (s.reg b))

end Sys2Proof
end

section
/-! PROOFS. Shifts and rotates (spec/48_shift_rotate.md R360–R386): a left shift multiplies by a power of 2 and a right
shift divides by one, and a rotate adds two parts of the value that have no bit in common. -/

namespace Sys2Proof.Machine

/-! ## Logical shifts -/

theorem toNat_low32_shiftLeft (v : Word) (k : Nat) : (low32 v <<< k).toNat = v.toNat * 2 ^ k % 2 ^ 32 := by
  rw [BitVec.toNat_shiftLeft, toNat_low32, Nat.shiftLeft_eq, Nat.mod_mul_mod]

theorem toNat_low32_ushiftRight (v : Word) (k : Nat) : (low32 v >>> k).toNat = v.toNat % 2 ^ 32 / 2 ^ k := by
  rw [BitVec.toNat_ushiftRight, toNat_low32, Nat.shiftRight_eq_div_pow]

theorem Val.toNat_shloL64 (a b : Word) : (Val.shloL64 a b).toNat = a.toNat * 2 ^ (b.toNat % 64) % 2 ^ 64 := by
  rw [Val.shloL64, amount64, BitVec.toNat_shiftLeft, Nat.shiftLeft_eq]

theorem Val.toNat_shloR64 (a b : Word) : (Val.shloR64 a b).toNat = a.toNat / 2 ^ (b.toNat % 64) := by
  rw [Val.shloR64, amount64, BitVec.toNat_ushiftRight, Nat.shiftRight_eq_div_pow]

/-! ## Arithmetic right shifts -/

theorem toInt_sshiftRight_eq_div {n : Nat} (v : BitVec n) (k : Nat) : (v.sshiftRight k).toInt = v.toInt / 2 ^ k := by
  rw [BitVec.toInt_sshiftRight, Int.shiftRight_eq_div_pow, Nat.cast_pow, Nat.cast_ofNat]

/-! ## Rotates -/

section
variable {n v k : Nat}

/-- The bits that a right rotate moves to the top are the `k` low ones. -/
theorem shiftLeft_sub_mod (hk : k ≤ n) : v <<< (n - k) % 2 ^ n = (v % 2 ^ k) <<< (n - k) := by
  have hpow : 2 ^ n = 2 ^ k * 2 ^ (n - k) := by rw [← pow_add, Nat.add_sub_cancel' hk]
  rw [Nat.shiftLeft_eq, Nat.shiftLeft_eq, hpow, Nat.mul_mod_mul_right]

/-- The two parts of a right rotate have no bit in common, so that their union is their sum, which does not overflow. -/
theorem shiftRight_or_shiftLeft (hv : v < 2 ^ n) (hk : k ≤ n) :
    v >>> k ||| v <<< (n - k) % 2 ^ n = (v / 2 ^ k + v * 2 ^ (n - k)) % 2 ^ n := by
  have hpow : 2 ^ n = 2 ^ k * 2 ^ (n - k) := by rw [← pow_add, Nat.add_sub_cancel' hk]
  have hlow : v >>> k < 2 ^ (n - k) := by
    rw [Nat.shiftRight_eq_div_pow]
    exact Nat.div_lt_of_lt_mul (hpow ▸ hv)
  have hunion : v >>> k ||| v <<< (n - k) % 2 ^ n = v >>> k + v <<< (n - k) % 2 ^ n := by
    rw [shiftLeft_sub_mod hk, Nat.or_comm, ← Nat.shiftLeft_add_eq_or_of_lt hlow, Nat.add_comm]
  have hlt : v >>> k + v <<< (n - k) % 2 ^ n < 2 ^ n := by
    rw [← hunion]
    exact Nat.or_lt_two_pow (hlow.trans_le (Nat.pow_le_pow_right two_pos (Nat.sub_le n k)))
      (Nat.mod_lt _ (Nat.two_pow_pos n))
  rw [hunion, ← Nat.mod_eq_of_lt hlt, Nat.add_mod_mod, Nat.shiftRight_eq_div_pow, Nat.shiftLeft_eq]

/-- The formula of R360 needs no case for the amount 0: the part that is multiplied then vanishes. -/
theorem rotrSpec_eq (hv : v < 2 ^ n) (k : Nat) :
    rotrSpec n v k = (v / 2 ^ k + v * 2 ^ (n - k)) % 2 ^ n := by
  unfold rotrSpec
  split
  case isTrue hk =>
    subst hk
    rw [pow_zero, Nat.div_one, Nat.sub_zero, Nat.add_mul_mod_self_right, Nat.mod_eq_of_lt hv]
  case isFalse => rfl

/-- A left rotate is a right rotate by the rest of the width. -/
theorem rotlSpec_eq_rotrSpec (hv : v < 2 ^ n) (hk : k ≤ n) : rotlSpec n v k = rotrSpec n v (n - k) := by
  rw [rotrSpec_eq hv, Nat.sub_sub_self hk, Nat.add_comm]
  unfold rotlSpec
  split
  case isTrue hzero =>
    subst hzero
    rw [pow_zero, Nat.mul_one, Nat.sub_zero, Nat.div_eq_of_lt hv, Nat.add_zero, Nat.mod_eq_of_lt hv]
  case isFalse => rfl

end

theorem toNat_rotateRight_eq {n k : Nat} (v : BitVec n) (hk : k < n) :
    (v.rotateRight k).toNat = rotrSpec n v.toNat k := by
  rw [BitVec.toNat_rotateRight, Nat.mod_eq_of_lt hk, rotrSpec_eq v.isLt, shiftRight_or_shiftLeft v.isLt hk.le]

theorem toNat_rotateLeft_eq {n k : Nat} (v : BitVec n) (hk : k < n) :
    (v.rotateLeft k).toNat = rotlSpec n v.toNat k := by
  have hparts := shiftRight_or_shiftLeft v.isLt (Nat.sub_le n k)
  rw [Nat.sub_sub_self hk.le] at hparts
  rw [BitVec.toNat_rotateLeft, Nat.mod_eq_of_lt hk, Nat.or_comm, hparts, rotlSpec_eq_rotrSpec v.isLt hk.le,
    rotrSpec_eq v.isLt, Nat.sub_sub_self hk.le]

theorem amount32_lt (b : Word) : amount32 b < 32 := Nat.mod_lt _ (by decide)

theorem amount64_lt (b : Word) : amount64 b < 64 := Nat.mod_lt _ (by decide)

theorem Val.toNat_rotR64 (a b : Word) : (Val.rotR64 a b).toNat = rotrSpec 64 a.toNat (b.toNat % 64) :=
  toNat_rotateRight_eq a (amount64_lt b)

theorem Val.toNat_rotL64 (a b : Word) : (Val.rotL64 a b).toNat = rotlSpec 64 a.toNat (b.toNat % 64) :=
  toNat_rotateLeft_eq a (amount64_lt b)

theorem toNat_low32_rotateRight (a b : Word) :
    ((low32 a).rotateRight (amount32 b)).toNat = rotrSpec 32 (a.toNat % 2 ^ 32) (b.toNat % 32) := by
  rw [toNat_rotateRight_eq _ (amount32_lt b), toNat_low32, amount32]

theorem toNat_low32_rotateLeft (a b : Word) :
    ((low32 a).rotateLeft (amount32 b)).toNat = rotlSpec 32 (a.toNat % 2 ^ 32) (b.toNat % 32) := by
  rw [toNat_rotateLeft_eq _ (amount32_lt b), toNat_low32, amount32]

end Sys2Proof.Machine

namespace Sys2Proof

open Machine

/-- Settles O47: each shift by its value; the alternate forms exchange the value and the amount. -/
theorem logicalShiftResults : Obligations.LogicalShiftResults := by
  intro s a b d x
  refine ⟨?leftImm32, ?rightImm32, ?leftImmAlt32, ?rightImmAlt32, ?leftImm64, ?rightImm64, ?leftImmAlt64,
    ?rightImmAlt64, ?left32, ?right32, ?left64, ?right64⟩
  case leftImm32 => exact computes_of_toNat_eq_32 rfl (toNat_low32_shiftLeft (s.reg b) _)
  case rightImm32 => exact computes_of_toNat_eq_32 rfl (toNat_low32_ushiftRight (s.reg b) _)
  case leftImmAlt32 => exact computes_of_toNat_eq_32 rfl (toNat_low32_shiftLeft x _)
  case rightImmAlt32 => exact computes_of_toNat_eq_32 rfl (toNat_low32_ushiftRight x _)
  case leftImm64 => exact computes_of_toNat_eq rfl (Val.toNat_shloL64 (s.reg b) x)
  case rightImm64 => exact computes_of_toNat_eq rfl (Val.toNat_shloR64 (s.reg b) x)
  case leftImmAlt64 => exact computes_of_toNat_eq rfl (Val.toNat_shloL64 x (s.reg b))
  case rightImmAlt64 => exact computes_of_toNat_eq rfl (Val.toNat_shloR64 x (s.reg b))
  case left32 => exact computes_of_toNat_eq_32 rfl (toNat_low32_shiftLeft (s.reg a) _)
  case right32 => exact computes_of_toNat_eq_32 rfl (toNat_low32_ushiftRight (s.reg a) _)
  case left64 => exact computes_of_toNat_eq rfl (Val.toNat_shloL64 (s.reg a) (s.reg b))
  case right64 => exact computes_of_toNat_eq rfl (Val.toNat_shloR64 (s.reg a) (s.reg b))

/-- Settles O48: the signed reading of the result, at 32 bits or at 64, is the quotient. -/
theorem arithmeticShiftResults : Obligations.ArithmeticShiftResults := by
  intro s a b d x
  refine ⟨?imm32, ?immAlt32, ?imm64, ?immAlt64, ?reg32, ?reg64⟩
  case imm32 => exact computes_of_toInt_eq_32 rfl (toInt_sshiftRight_eq_div (low32 (s.reg b)) _)
  case immAlt32 => exact computes_of_toInt_eq_32 rfl (toInt_sshiftRight_eq_div (low32 x) _)
  case imm64 => exact computes_of_s64_eq rfl (toInt_sshiftRight_eq_div (s.reg b) _)
  case immAlt64 => exact computes_of_s64_eq rfl (toInt_sshiftRight_eq_div x _)
  case reg32 => exact computes_of_toInt_eq_32 rfl (toInt_sshiftRight_eq_div (low32 (s.reg a)) _)
  case reg64 => exact computes_of_s64_eq rfl (toInt_sshiftRight_eq_div (s.reg a) _)

/-- Settles O49: the union of the two shifted parts is the sum of R360, at 32 bits or at 64. -/
theorem rotateResults : Obligations.RotateResults := by
  intro s a b d x
  refine ⟨?rightImm64, ?rightImmAlt64, ?rightImm32, ?rightImmAlt32, ?left64, ?left32, ?right64, ?right32⟩
  case rightImm64 => exact computes_of_toNat_eq rfl (Val.toNat_rotR64 (s.reg b) x)
  case rightImmAlt64 => exact computes_of_toNat_eq rfl (Val.toNat_rotR64 x (s.reg b))
  case rightImm32 => exact computes_of_toNat_eq_32 rfl (toNat_low32_rotateRight (s.reg b) x)
  case rightImmAlt32 => exact computes_of_toNat_eq_32 rfl (toNat_low32_rotateRight x (s.reg b))
  case left64 => exact computes_of_toNat_eq rfl (Val.toNat_rotL64 (s.reg a) (s.reg b))
  case left32 => exact computes_of_toNat_eq_32 rfl (toNat_low32_rotateLeft (s.reg a) (s.reg b))
  case right64 => exact computes_of_toNat_eq rfl (Val.toNat_rotR64 (s.reg a) (s.reg b))
  case right32 => exact computes_of_toNat_eq_32 rfl (toNat_low32_rotateRight (s.reg a) (s.reg b))

end Sys2Proof
end
